-- ==== Sys2Proof/Word.lean ====
section
/-! DEFINITION. The two value types of the core: the word, which the spec gives no width, and the ROM byte. -/

namespace Sys2Proof

/-- A word: the content of a register, a RAM address or a stack entry, "a mathematical integer with no
width of its own" (10_state.md R13). -/
abbrev Word := Int

/-- One byte of the ROM or of an encoded instruction (00_scope.md R7, 20_memory.md R30). -/
abbrev Byte := BitVec 8

end Sys2Proof
end

