-- ==== Sys2Proof/Config.lean ====
section
/-! DEFINITION. The implementation parameters of 00_scope.md R5, and the free values: constants with no body that
stand for what the spec leaves open. -/

namespace Sys2Proof

/-- `SHIFT_FLAG_SOURCE`: what SHL and SHR compute Z and N from (42_bitwise.md R92). -/
inductive ShiftFlagSource where
  | registerId
  | result
deriving DecidableEq, Repr

/-- The five display opcodes (45_io_system.md R113). -/
inductive DisplayOpcode where
  | dsp | cls | bfr | sb | col
deriving DecidableEq, Repr

/-- The five methods of the Display interface (45_io_system.md R113). -/
inductive DisplayMethod where
  | setPixel | clear | swapBuffer | setDrawingTarget | setColor
deriving DecidableEq, Repr, Inhabited

/-- The parameters that are fixed for the lifetime of one machine (00_scope.md R5). The ROM is held beside them
in the state, and `DISPLAY_MAP` and `RND` are the constants with no body below. -/
structure Config where
  /-- `BITS`: the width that value capping wraps to. -/
  bits : Nat
  /-- `REGISTER_COUNT`. -/
  registerCount : Nat
  /-- `RAM_SIZE`, in words. -/
  ramSize : Nat
  /-- `STACK_SIZE`, in entries. -/
  stackSize : Nat
  /-- `PRINTING`. -/
  printing : Bool
  /-- `DISPLAY_PRESENT`. -/
  displayPresent : Bool
  /-- `SHIFT_FLAG_SOURCE`. -/
  shiftFlagSource : ShiftFlagSource
  /-- `OPCODE_ID`: the 6-bit number of each of the 42 opcodes, in the order of the table of 30_encoding.md R62. -/
  opcodeIds : List Nat
deriving DecidableEq, Repr

/-- The reference assignment of opcode numbers: position in the table, NOP = 0 to HLT = 41 (30_encoding.md R62). -/
def referenceOpcodeIds : List Nat := List.range 42

/-- The source defaults of 00_scope.md R5 (`PRINTING` and `DISPLAY_PRESENT`: 92_eei_decisions.md D35). -/
def Config.default : Config where
  bits := 32
  registerCount := 16
  ramSize := 1024
  stackSize := 1024
  printing := false
  displayPresent := false
  shiftFlagSource := .registerId
  opcodeIds := referenceOpcodeIds

/-- An injective map from the 42 mnemonics to [0, 63] with MOV = 1 (00_scope.md R5, row `OPCODE_ID`). -/
abbrev OpcodeIds.legal (ids : List Nat) : Prop :=
  ids.length = 42 ∧ ids.Nodup ∧ (∀ n ∈ ids, n < 64) ∧ ids[1]? = some 1

/-- The legal values of the parameters (00_scope.md R5). -/
abbrev Config.legal (c : Config) : Prop :=
  1 ≤ c.bits ∧ 1 ≤ c.registerCount ∧ c.registerCount ≤ 16 ∧ OpcodeIds.legal c.opcodeIds

/-- `MIN` (00_scope.md R6). -/
def Config.min (c : Config) : Int := -((2 ^ (c.bits - 1) : Nat) : Int)

/-- `MAX` (00_scope.md R6). -/
def Config.max (c : Config) : Int := ((2 ^ (c.bits - 1) : Nat) : Int) - 1

/-- `MOD_B` (00_scope.md R6). -/
def Config.modB (c : Config) : Int := ((2 ^ c.bits : Nat) : Int)

/-- FREE VALUE (log 8). `DISPLAY_MAP`: the Display method each display opcode calls, OPEN in 92_eei_decisions.md D18. -/
opaque Config.displayMap : DisplayOpcode → DisplayMethod

/-- FREE VALUE (log 5). The value that the k-th free draw gives RND, in [0, 2^31 - 1] (45_io_system.md R120). -/
opaque Config.rndDraw : Nat → BitVec 31

/-- FREE VALUE (log 2). The pc after a step that faulted (60_exceptions.md R123: not specified). -/
opaque Config.faultPc : Nat → Int

/-- FREE VALUE (log 2). Register `i` after a step that faulted (60_exceptions.md R123: not specified). -/
opaque Config.faultReg : Nat → Nat → Word

/-- FREE VALUE (log 2). The flags after a step that faulted, numbered Z 0, N 1, C 2, O 3 (60_exceptions.md R123: not
specified). -/
opaque Config.faultFlag : Nat → Nat → Bool

/-- FREE VALUE (log 2). The RAM word at an address after a step that faulted (60_exceptions.md R123: not specified). -/
opaque Config.faultRam : Nat → Nat → Word

/-- FREE VALUE (log 2). The stack after a step that faulted, before it is cut to `STACK_SIZE` entries
(60_exceptions.md R123: not specified). -/
opaque Config.faultStack : Nat → List Word

end Sys2Proof
end

