-- ==== Sys2Proof/Syntax.lean ====
section
/-! DEFINITION. The instructions: the four operand forms, the 42 opcodes of the table of 30_encoding.md R62, and one
constructor of `Instr` per row of spec/opcode_table.json. -/

namespace Sys2Proof

/-- An operand, one of four tagged forms (20_memory.md R38). The payload is an integer, as in the spec; the ranges an
encoding admits are the check `Operand.wf` (log 10). -/
inductive Operand where
  /-- Reads or writes the register `id`. -/
  | register (id : Int)
  /-- A literal; not a write target. -/
  | immediate (value : Int)
  /-- Reads or writes RAM at `addr`. -/
  | memoryAddress (addr : Int)
  /-- Reads or writes RAM at the address that the register `id` holds. -/
  | registerMemory (id : Int)
deriving DecidableEq, Repr

/-- The 42 named opcodes, in the order of the table of 30_encoding.md R62. -/
inductive Opcode where
  | nop
  | mov
  | add
  | sub
  | mul
  | div
  | mod
  | inc
  | dec
  | neg
  | and
  | or
  | xor
  | not
  | clr
  | test
  | shl
  | shr
  | cmp
  | jmp
  | jz
  | jnz
  | jn
  | jnn
  | jo
  | jno
  | jc
  | jnc
  | call
  | ret
  | push
  | pop
  | ldr
  | str
  | dsp
  | cls
  | bfr
  | sb
  | col
  | prt
  | rnd
  | hlt
deriving DecidableEq, Repr

/-- The mnemonic of an opcode as the table spells it (30_encoding.md R62). -/
def Opcode.mnemonic : Opcode → String
  | .nop => "NOP"
  | .mov => "MOV"
  | .add => "ADD"
  | .sub => "SUB"
  | .mul => "MUL"
  | .div => "DIV"
  | .mod => "MOD"
  | .inc => "INC"
  | .dec => "DEC"
  | .neg => "NEG"
  | .and => "AND"
  | .or => "OR"
  | .xor => "XOR"
  | .not => "NOT"
  | .clr => "CLR"
  | .test => "TEST"
  | .shl => "SHL"
  | .shr => "SHR"
  | .cmp => "CMP"
  | .jmp => "JMP"
  | .jz => "JZ"
  | .jnz => "JNZ"
  | .jn => "JN"
  | .jnn => "JNN"
  | .jo => "JO"
  | .jno => "JNO"
  | .jc => "JC"
  | .jnc => "JNC"
  | .call => "CALL"
  | .ret => "RET"
  | .push => "PUSH"
  | .pop => "POP"
  | .ldr => "LDR"
  | .str => "STR"
  | .dsp => "DSP"
  | .cls => "CLS"
  | .bfr => "BFR"
  | .sb => "SB"
  | .col => "COL"
  | .prt => "PRT"
  | .rnd => "RND"
  | .hlt => "HLT"

/-- The position of an opcode in the table of 30_encoding.md R62, which is its number under the reference
assignment. -/
def Opcode.index : Opcode → Nat
  | .nop => 0
  | .mov => 1
  | .add => 2
  | .sub => 3
  | .mul => 4
  | .div => 5
  | .mod => 6
  | .inc => 7
  | .dec => 8
  | .neg => 9
  | .and => 10
  | .or => 11
  | .xor => 12
  | .not => 13
  | .clr => 14
  | .test => 15
  | .shl => 16
  | .shr => 17
  | .cmp => 18
  | .jmp => 19
  | .jz => 20
  | .jnz => 21
  | .jn => 22
  | .jnn => 23
  | .jo => 24
  | .jno => 25
  | .jc => 26
  | .jnc => 27
  | .call => 28
  | .ret => 29
  | .push => 30
  | .pop => 31
  | .ldr => 32
  | .str => 33
  | .dsp => 34
  | .cls => 35
  | .bfr => 36
  | .sb => 37
  | .col => 38
  | .prt => 39
  | .rnd => 40
  | .hlt => 41

/-- Every opcode, in table order. -/
def Opcode.all : List Opcode :=
  [.nop, .mov, .add, .sub, .mul, .div, .mod, .inc, .dec, .neg, .and, .or, .xor, .not] ++
  [.clr, .test, .shl, .shr, .cmp, .jmp, .jz, .jnz, .jn, .jnn, .jo, .jno, .jc, .jnc] ++
  [.call, .ret, .push, .pop, .ldr, .str, .dsp, .cls, .bfr, .sb, .col, .prt, .rnd, .hlt]

/-- An instruction: an opcode with its ordered operands, whose number "is encoded per instruction (not per opcode)"
(30_encoding.md R49). -/
inductive Instr where
  /-- NOP (R73): no operation. -/
  | nop (ops : List Operand)
  /-- MOV (R74): dest <- cap(src); C,O written. -/
  | mov (ops : List Operand)
  /-- ADD (R77): dest <- cap(a+b); ZNCO. -/
  | add (ops : List Operand)
  /-- SUB (R78): dest <- cap(a-b); ZNCO. -/
  | sub (ops : List Operand)
  /-- MUL (R79): dest <- cap(a*b); ZNCO. -/
  | mul (ops : List Operand)
  /-- DIV (R80): dest <- cap(floor(a/b)); ZNCO; DivisionByZero. -/
  | div (ops : List Operand)
  /-- MOD (R81): dest <- cap(a mod b), divisor's sign; ZNCO; DivisionByZero. -/
  | mod (ops : List Operand)
  /-- INC (R82): dest <- cap(a+1); ZNCO. -/
  | inc (ops : List Operand)
  /-- DEC (R83): dest <- cap(a-1); ZNCO. -/
  | dec (ops : List Operand)
  /-- NEG (R84): dest <- cap(-a); ZNCO. -/
  | neg (ops : List Operand)
  /-- AND (R86): dest <- a & b uncapped; BoolFlags. -/
  | and (ops : List Operand)
  /-- OR (R87): dest <- a | b uncapped; BoolFlags. -/
  | or (ops : List Operand)
  /-- XOR (R88): dest <- a ^ b uncapped; BoolFlags. -/
  | xor (ops : List Operand)
  /-- NOT (R89): dest <- ~a uncapped; BoolFlags. -/
  | not (ops : List Operand)
  /-- CLR (R90): both operands <- 0; no flags. -/
  | clr (ops : List Operand)
  /-- TEST (R91): BoolFlags(a & b); no write. -/
  | test (ops : List Operand)
  /-- SHL (R93): reg <- a * 2^k uncapped; ShiftFlags. -/
  | shl (ops : List Operand)
  /-- SHR (R94): reg <- floor(a / 2^k); ShiftFlags. -/
  | shr (ops : List Operand)
  /-- CMP (R95): flags of cap(a-b); no write. -/
  | cmp (ops : List Operand)
  /-- JMP (R97): pc <- target. -/
  | jmp (ops : List Operand)
  /-- JZ (R98): if Z: pc <- target. -/
  | jz (ops : List Operand)
  /-- JNZ (R99): if not Z: pc <- target. -/
  | jnz (ops : List Operand)
  /-- JN (R100): if N: pc <- target. -/
  | jn (ops : List Operand)
  /-- JNN (R101): if not N: pc <- target. -/
  | jnn (ops : List Operand)
  /-- JO (R102): if O: pc <- target. -/
  | jo (ops : List Operand)
  /-- JNO (R103): if not O: pc <- target. -/
  | jno (ops : List Operand)
  /-- JC (R104): if C: pc <- target. -/
  | jc (ops : List Operand)
  /-- JNC (R105): if not C: pc <- target. -/
  | jnc (ops : List Operand)
  /-- CALL (R106): Push(pc); pc <- target. -/
  | call (ops : List Operand)
  /-- RET (R107): pc <- Pop(). -/
  | ret (ops : List Operand)
  /-- PUSH (R109): Push(value). -/
  | push (ops : List Operand)
  /-- POP (R110): reg <- Pop(). -/
  | pop (ops : List Operand)
  /-- LDR (R111): reg <- ram[value of operand 1]. -/
  | ldr (ops : List Operand)
  /-- STR (R112): ram[value of operand 0] <- value of operand 1. -/
  | str (ops : List Operand)
  /-- DSP (R114): DisplayEvent(opcode, operand values) if DISPLAY_PRESENT, else nothing. -/
  | dsp (ops : List Operand)
  /-- CLS (R115): DisplayEvent(opcode, operand values) if DISPLAY_PRESENT, else nothing. -/
  | cls (ops : List Operand)
  /-- BFR (R116): DisplayEvent(opcode, operand values) if DISPLAY_PRESENT, else nothing. -/
  | bfr (ops : List Operand)
  /-- SB (R117): DisplayEvent(opcode, operand values) if DISPLAY_PRESENT, else nothing. -/
  | sb (ops : List Operand)
  /-- COL (R118): DisplayEvent(opcode, operand values) if DISPLAY_PRESENT, else nothing. -/
  | col (ops : List Operand)
  /-- PRT (R119): PrintEvent(value) if PRINTING. -/
  | prt (ops : List Operand)
  /-- RND (R120): dest <- draw in [0, 2^31-1], uncapped. -/
  | rnd (ops : List Operand)
  /-- HLT (R121): halted <- true. -/
  | hlt (ops : List Operand)
deriving DecidableEq, Repr

/-- The opcode of an instruction. -/
def Instr.opcode : Instr → Opcode
  | .nop _ => .nop
  | .mov _ => .mov
  | .add _ => .add
  | .sub _ => .sub
  | .mul _ => .mul
  | .div _ => .div
  | .mod _ => .mod
  | .inc _ => .inc
  | .dec _ => .dec
  | .neg _ => .neg
  | .and _ => .and
  | .or _ => .or
  | .xor _ => .xor
  | .not _ => .not
  | .clr _ => .clr
  | .test _ => .test
  | .shl _ => .shl
  | .shr _ => .shr
  | .cmp _ => .cmp
  | .jmp _ => .jmp
  | .jz _ => .jz
  | .jnz _ => .jnz
  | .jn _ => .jn
  | .jnn _ => .jnn
  | .jo _ => .jo
  | .jno _ => .jno
  | .jc _ => .jc
  | .jnc _ => .jnc
  | .call _ => .call
  | .ret _ => .ret
  | .push _ => .push
  | .pop _ => .pop
  | .ldr _ => .ldr
  | .str _ => .str
  | .dsp _ => .dsp
  | .cls _ => .cls
  | .bfr _ => .bfr
  | .sb _ => .sb
  | .col _ => .col
  | .prt _ => .prt
  | .rnd _ => .rnd
  | .hlt _ => .hlt

/-- The operands of an instruction, operand 0 first. -/
def Instr.operands : Instr → List Operand
  | .nop ops => ops
  | .mov ops => ops
  | .add ops => ops
  | .sub ops => ops
  | .mul ops => ops
  | .div ops => ops
  | .mod ops => ops
  | .inc ops => ops
  | .dec ops => ops
  | .neg ops => ops
  | .and ops => ops
  | .or ops => ops
  | .xor ops => ops
  | .not ops => ops
  | .clr ops => ops
  | .test ops => ops
  | .shl ops => ops
  | .shr ops => ops
  | .cmp ops => ops
  | .jmp ops => ops
  | .jz ops => ops
  | .jnz ops => ops
  | .jn ops => ops
  | .jnn ops => ops
  | .jo ops => ops
  | .jno ops => ops
  | .jc ops => ops
  | .jnc ops => ops
  | .call ops => ops
  | .ret ops => ops
  | .push ops => ops
  | .pop ops => ops
  | .ldr ops => ops
  | .str ops => ops
  | .dsp ops => ops
  | .cls ops => ops
  | .bfr ops => ops
  | .sb ops => ops
  | .col ops => ops
  | .prt ops => ops
  | .rnd ops => ops
  | .hlt ops => ops

/-- The instruction with a given opcode and operands. -/
def Instr.ofOpcode (ops : List Operand) : Opcode → Instr
  | .nop => .nop ops
  | .mov => .mov ops
  | .add => .add ops
  | .sub => .sub ops
  | .mul => .mul ops
  | .div => .div ops
  | .mod => .mod ops
  | .inc => .inc ops
  | .dec => .dec ops
  | .neg => .neg ops
  | .and => .and ops
  | .or => .or ops
  | .xor => .xor ops
  | .not => .not ops
  | .clr => .clr ops
  | .test => .test ops
  | .shl => .shl ops
  | .shr => .shr ops
  | .cmp => .cmp ops
  | .jmp => .jmp ops
  | .jz => .jz ops
  | .jnz => .jnz ops
  | .jn => .jn ops
  | .jnn => .jnn ops
  | .jo => .jo ops
  | .jno => .jno ops
  | .jc => .jc ops
  | .jnc => .jnc ops
  | .call => .call ops
  | .ret => .ret ops
  | .push => .push ops
  | .pop => .pop ops
  | .ldr => .ldr ops
  | .str => .str ops
  | .dsp => .dsp ops
  | .cls => .cls ops
  | .bfr => .bfr ops
  | .sb => .sb ops
  | .col => .col ops
  | .prt => .prt ops
  | .rnd => .rnd ops
  | .hlt => .hlt ops

/-- What the codec can raise (30_encoding.md R58, R59, R65). -/
inductive CodecError where
  /-- `EncodingError`, a payload value outside its field's range. Raised by the encoder. Safe: the spec's own error. -/
  | payloadRange (value : Int)
  /-- `EncodingError`, more than two operands. Raised by the encoder. Safe: the spec's own error. -/
  | tooManyOperands (count : Nat)
  /-- `DecodingError`. Raised by the decoder. Safe: the spec's own error. -/
  | decodingError
  /-- `InvalidOpcode`, with the 6-bit id. Raised by the decoder. Safe: the spec's own error. -/
  | invalidOpcode (id : Nat)
deriving DecidableEq, Repr

end Sys2Proof
end

