-- ==== Sys2Proof/WellFormed.lean ====
section
/-! DEFINITION. Which instruction terms are instructions of the encoding: at most two operands, each payload in the
range of its field. -/

namespace Sys2Proof

/-- The payload fits its field: a register id in [0, 15], an immediate in [-2^31, 2^31 - 1], an address in
[0, 65535] (30_encoding.md R53, R54, R55). -/
def Operand.wf : Operand → Bool
  | .register id => decide (0 ≤ id ∧ id ≤ 15)
  | .immediate value => decide (-2147483648 ≤ value ∧ value ≤ 2147483647)
  | .memoryAddress addr => decide (0 ≤ addr ∧ addr ≤ 65535)
  | .registerMemory id => decide (0 ≤ id ∧ id ≤ 15)

/-- The operand count fits its 2-bit field and is not the illegal value 3 (30_encoding.md R49, R50). -/
def Instr.countWf (i : Instr) : Bool := decide (i.operands.length ≤ 2)

/-- The instruction has an encoding (30_encoding.md R60 (a)). -/
def Instr.wf (i : Instr) : Bool := i.countWf && i.operands.all Operand.wf

end Sys2Proof
end

