-- ==== Sys2Proof/Decode.lean ====
section
/-! DEFINITION. The instruction codec: the length rule, the decoder and the encoder (30_encoding.md R50 to R60). -/

namespace Sys2Proof

/-- `v[hi:lo]`, the unsigned integer made of bits `hi` down to `lo` of `v` (00_scope.md R7). -/
def bits (v hi lo : Nat) : Nat := (v >>> lo) % 2 ^ (hi - lo + 1)

/-- `sext_32(v)` of a number below 2^32 (00_scope.md R7). -/
def sext32 (v : Nat) : Int :=
  if v < 2147483648 then (v : Int) else (v : Int) - 4294967296

/-- `OPCODE_ID(opc)` under the numbering `ids` (00_scope.md R5). -/
def opcodeId (ids : List Nat) (opc : Opcode) : Nat := ids.getD opc.index 0

/-- The opcode whose number is `id`, none if no admitted mnemonic has it (30_encoding.md R59). -/
def opcodeOf (ids : List Nat) (id : Nat) : Option Opcode :=
  Opcode.all.find? (fun opc => opcodeId ids opc == id)

/-- The operand type tag (30_encoding.md R51). -/
def tagOf : Operand → Nat
  | .register _ => 0
  | .immediate _ => 1
  | .memoryAddress _ => 2
  | .registerMemory _ => 3

/-- `Size(tag)`: the payload bytes of a tag (30_encoding.md R51, R57). -/
def tagSize : Nat → Nat
  | 1 => 4
  | 2 => 2
  | _ => 1

/-- The payload bytes of the first `n` operands of the type byte `t` (30_encoding.md R57). -/
def payloadSize : Nat → Nat → Nat
  | 0, _ => 0
  | n + 1, t => tagSize (bits t 1 0) + payloadSize n (t >>> 2)

/-- `Length(b0, b1)`, none for operand count 3; `b1` does not matter for operand count 0 (30_encoding.md R57). -/
def instrLength (b0 b1 : Byte) : Option Nat :=
  match bits b0.toNat 7 6 with
  | 0 => some 1
  | 3 => none
  | n => some (2 + payloadSize n b1.toNat)

/-- One operand with tag `tag` from the front of the payload bytes, with the bytes after it (30_encoding.md R53, R54,
R55, R59). -/
def decodeOperand : Nat → List Byte → Except CodecError (Operand × List Byte)
  | 0, b :: rest =>
    if bits b.toNat 7 4 ≠ 0 then .error .decodingError else .ok (.register (bits b.toNat 3 0), rest)
  | 1, b0 :: b1 :: b2 :: b3 :: rest =>
    .ok (.immediate (sext32 (b0.toNat ||| b1.toNat <<< 8 ||| b2.toNat <<< 16 ||| b3.toNat <<< 24)), rest)
  | 2, b0 :: b1 :: rest => .ok (.memoryAddress (b0.toNat ||| b1.toNat <<< 8 : Nat), rest)
  | 3, b :: rest =>
    if bits b.toNat 7 4 ≠ 0 then .error .decodingError else .ok (.registerMemory (bits b.toNat 3 0), rest)
  | _, _ => .error .decodingError

/-- The first `n` operands of the type byte `t`, in order, with the bytes after them (30_encoding.md R59). -/
def decodeOperands : Nat → Nat → List Byte → Except CodecError (List Operand × List Byte)
  | 0, _, w => .ok ([], w)
  | n + 1, t, w =>
    match decodeOperand (bits t 1 0) w with
    | .error e => .error e
    | .ok (op, rest) =>
      match decodeOperands n (t >>> 2) rest with
      | .error e => .error e
      | .ok (ops, rest') => .ok (op :: ops, rest')

/-- `Decode(w)` under the opcode numbering `ids`, with the checks in the spec's order (30_encoding.md R59). -/
def decode (ids : List Nat) : List Byte → Except CodecError Instr
  | [] => .error .decodingError
  | b0 :: rest =>
    let n := bits b0.toNat 7 6
    if n = 3 then .error .decodingError
    else
      match opcodeOf ids (bits b0.toNat 5 0) with
      | none => .error (.invalidOpcode (bits b0.toNat 5 0))
      | some opc =>
        if n = 0 then
          if rest = [] then .ok (Instr.ofOpcode [] opc) else .error .decodingError
        else
          match rest with
          | [] => .error .decodingError
          | t :: payload =>
            if t.toNat >>> (2 * n) ≠ 0 then .error .decodingError
            else
              match decodeOperands n t.toNat payload with
              | .error e => .error e
              | .ok (ops, []) => .ok (Instr.ofOpcode ops opc)
              | .ok (_, _ :: _) => .error .decodingError

/-- `Payload(op)`, with the range checks of the encoder (30_encoding.md R53, R54, R55, R58). -/
def encodeOperand : Operand → Except CodecError (List Byte)
  | .register id | .registerMemory id =>
    if id < 0 ∨ id > 15 then .error (.payloadRange id) else .ok [BitVec.ofInt 8 id]
  | .immediate value =>
    if value < -2147483648 ∨ value > 2147483647 then .error (.payloadRange value)
    else
      let u := (value.fmod 4294967296).toNat
      .ok [BitVec.ofNat 8 (bits u 7 0), BitVec.ofNat 8 (bits u 15 8), BitVec.ofNat 8 (bits u 23 16),
        BitVec.ofNat 8 (bits u 31 24)]
  | .memoryAddress addr =>
    if addr < 0 ∨ addr > 65535 then .error (.payloadRange addr)
    else .ok [BitVec.ofNat 8 (bits addr.toNat 7 0), BitVec.ofNat 8 (bits addr.toNat 15 8)]

/-- The payloads of the operands, in order (30_encoding.md R56, R58). -/
def encodeOperands : List Operand → Except CodecError (List Byte)
  | [] => .ok []
  | op :: ops =>
    match encodeOperand op with
    | .error e => .error e
    | .ok bytes =>
      match encodeOperands ops with
      | .error e => .error e
      | .ok more => .ok (bytes ++ more)

/-- The type byte: the tag of operand `j` at bits `[2j+1:2j]` (30_encoding.md R52, R58). -/
def typeByte : List Operand → Nat
  | [] => 0
  | op :: ops => tagOf op ||| typeByte ops <<< 2

/-- `Encode(opc, ops)` under the opcode numbering `ids` (30_encoding.md R58). -/
def encode (ids : List Nat) (i : Instr) : Except CodecError (List Byte) :=
  let ops := i.operands
  if ops.length > 2 then .error (.tooManyOperands ops.length)
  else
    match encodeOperands ops with
    | .error e => .error e
    | .ok payload =>
      let b0 := BitVec.ofNat 8 (opcodeId ids i.opcode ||| ops.length <<< 6)
      if ops = [] then .ok [b0] else .ok (b0 :: BitVec.ofNat 8 (typeByte ops) :: payload)

/-- The bytes of an instruction whose bits are `w`, bit 0 the least significant bit of the first byte, `nbits` of them
given and the others 0, up to the longest instruction, 10 bytes (30_encoding.md R56). -/
def tableBytes (nbits w : Nat) : List Byte :=
  (List.range 10).map fun j => BitVec.ofNat 8 (bits (w % 2 ^ nbits) (8 * j + 7) (8 * j))

/-- The instruction the decoder reads from `tableBytes nbits w`, under the reference numbering: the first bytes of it,
as many as the length rule says (30_encoding.md R57, R59). None where the decoder refuses. -/
def decodeTableWord (nbits w : Nat) : Option Instr :=
  match tableBytes nbits w with
  | b0 :: b1 :: rest =>
    match instrLength b0 b1 with
    | none => none
    | some len => (decode referenceOpcodeIds ((b0 :: b1 :: rest).take len)).toOption
  | _ => none

end Sys2Proof
end

