-- ==== Sys2Proof/Machine/State.lean ====
section
/-! DEFINITION. The machine state as plain data: every piece of state of 10_state.md R12, the parameters the machine
carries, and three fields of the model's own (INVENTORY.md, State). -/

namespace Sys2Proof.Machine

/-- The kinds of fault with the information each carries (60_exceptions.md R122). A step that raises one records it in
the state and answers a NEXT state, as the spec describes (log 1), so no step ends in `Outcome.fault`. Safe: the names,
causes and information are the spec's. -/
inductive Fault where
  /-- Code 1. More than two operands, or a payload value out of its range; raised by the encoder, never by a step. Safe: the spec's own fault. -/
  | encodingError (value : Int)
  /-- Code 2. Raised by fetch (operand count 3) and by decode (unused bits, register-byte bits, length). Safe: the spec's own fault. -/
  | decodingError (pc0 : Int)
  /-- Code 3. Raised by fetch (negative pc, running past the end of ROM) and by every RAM access out of bounds. Safe: the spec's own fault. -/
  | accessViolation (addr : Int)
  /-- Code 4. Raised by PUSH and CALL on a full stack. Safe: the spec's own fault. -/
  | stackOverflow (depth : Nat)
  /-- Code 5. Raised by POP and RET on an empty stack; the information is 0. Safe: the spec's own fault. -/
  | stackUnderflow (depth : Nat)
  /-- Code 6. Raised by decode for an id of no admitted opcode. Safe: the spec's own fault. -/
  | invalidOpcode (id : Nat)
  /-- Code 7. Raised by every access to a register id that is not below REGISTER_COUNT. Safe: the spec's own fault. -/
  | invalidRegister (id : Int)
  /-- Code 8. Raised by every operand write to an Immediate. Safe: the spec's own fault. -/
  | invalidWriteTarget (value : Int)
  /-- Code 9. Raised by DIV and MOD. Safe: the spec's own fault. -/
  | divisionByZero
  /-- Code 10. Raised by dispatch. Safe: the spec's own fault. -/
  | operandCountMismatch (opc : Opcode) (count : Nat)
  /-- Code 11. Raised by dispatch for a non-Register operand 0 of POP, LDR, SHL, SHR. Safe: the spec's own fault. -/
  | operandFormRefused (opc : Opcode) (index : Nat)
  /-- Code 12. Raised by SHL and SHR. Safe: the spec's own fault. -/
  | negativeShiftAmount (amount : Int)
deriving DecidableEq, Repr

/-- Why the model gives an instruction no meaning. Every instruction has one, so nothing answers with it. -/
inductive Refusal where
  /-- Raised by an arm of `exec` for an instruction that has no meaning yet (there is none). Safe: the model stops. -/
  | notModelled (mnemonic : String)
deriving DecidableEq, Repr

/-- The fault record `{kind, pc0, info}`: the fault with its information, and the offset of the instruction that raised
it (10_state.md R25). -/
structure FaultRecord where
  fault : Fault
  pc0 : Int
deriving DecidableEq, Repr

/-- The condition flags `Z`, `N`, `C`, `O` (10_state.md R17). -/
structure Flags where
  z : Bool
  n : Bool
  c : Bool
  o : Bool
deriving DecidableEq, Repr

/-- The RAM as a list of (address, word) pairs in the one canonical form `Memory.wf`: addresses strictly rising, no word
equal to what an unlisted address reads as (20_memory.md R32, log 9). -/
abbrev Memory := List (Nat × Word)

/-- What an address that has not been written reads as (20_memory.md R32). -/
def Memory.unwritten : Word := 0

/-- An output event (60_exceptions.md R130). -/
inductive Event where
  | display (opc : DisplayOpcode) (values : List Word)
  | print (value : Word)
deriving DecidableEq, Repr

/-- The state of one machine (10_state.md R12). -/
structure State where
  /-- The parameters of 00_scope.md R5. A parameter, not the spec's state; no step changes it (log 3). -/
  cfg : Config
  /-- The program image (20_memory.md R30). A parameter, not the spec's state; no step changes it (log 3). -/
  rom : List Byte
  /-- The general registers `x[0..REGISTER_COUNT-1]` (10_state.md R14). -/
  regs : List Word
  /-- The program counter, a ROM byte offset (10_state.md R16). -/
  pc : Int
  /-- The condition flags (10_state.md R17). -/
  flags : Flags
  /-- The RAM (20_memory.md R32). -/
  ram : Memory
  /-- The stack, its last element on top (20_memory.md R35). -/
  stack : List Word
  /-- The terminal status of 10_state.md R23. -/
  halted : Bool
  /-- The host's status of 10_state.md R24. -/
  paused : Bool
  /-- The fault record (10_state.md R25). -/
  fault : Option FaultRecord
  /-- The instruction counter (10_state.md R26). -/
  icount : Nat
  /-- The last decoded instruction (10_state.md R27). -/
  last : Option Instr
  /-- MODEL'S OWN (log 4). The offset of the instruction being fetched or executed, `pc0` of 70_reset_and_hazards.md R137. -/
  pc0 : Int
  /-- MODEL'S OWN (log 4). How many free values have been taken. -/
  draws : Nat
  /-- MODEL'S OWN (log 4). The output events so far, oldest first (60_exceptions.md R130). -/
  events : List Event
deriving DecidableEq, Repr

/-- The state with its `rom` written. -/
def State.withRom (s : State) (v : List Byte) : State := { s with rom := v }

/-- The state with its `regs` written. -/
def State.withRegs (s : State) (v : List Word) : State := { s with regs := v }

/-- The state with its `pc` written. -/
def State.withPc (s : State) (v : Int) : State := { s with pc := v }

/-- The state with its `flags` written. -/
def State.withFlags (s : State) (v : Flags) : State := { s with flags := v }

/-- The state with its `ram` written. -/
def State.withRam (s : State) (v : Memory) : State := { s with ram := v }

/-- The state with its `stack` written. -/
def State.withStack (s : State) (v : List Word) : State := { s with stack := v }

/-- The state with its `halted` written. -/
def State.withHalted (s : State) (v : Bool) : State := { s with halted := v }

/-- The state with its `paused` written. -/
def State.withPaused (s : State) (v : Bool) : State := { s with paused := v }

/-- The state with its `fault` written. -/
def State.withFault (s : State) (v : Option FaultRecord) : State := { s with fault := v }

/-- The state with its `icount` written. -/
def State.withIcount (s : State) (v : Nat) : State := { s with icount := v }

/-- The state with its `last` written. -/
def State.withLast (s : State) (v : Option Instr) : State := { s with last := v }

/-- The state with its `pc0` written. -/
def State.withPc0 (s : State) (v : Int) : State := { s with pc0 := v }

/-- The state with its `draws` written. -/
def State.withDraws (s : State) (v : Nat) : State := { s with draws := v }

/-- The state with its `events` written. -/
def State.withEvents (s : State) (v : List Event) : State := { s with events := v }

/-- The machine right after `reset()`, with the default parameters and no program: the column "after `reset()`" of
10_state.md R28, so it is paused (log 6). -/
def State.reset : State where
  cfg := Config.default
  rom := []
  regs := List.replicate 16 0
  pc := 0
  flags := ⟨false, false, false, false⟩
  ram := []
  stack := []
  halted := false
  paused := true
  fault := none
  icount := 0
  last := none
  pc0 := 0
  draws := 0
  events := []

end Sys2Proof.Machine
end

