-- ==== Sys2Proof/Machine/Ops.lean ====
section
/-! DEFINITION. The named operations on registers, ROM, RAM and the stack, taking a fault, and `reset()`, the one way
out of a fault. -/

namespace Sys2Proof.Machine

/-! The RAM list. -/

/-- The word at an address of the list (20_memory.md R32). -/
def Memory.read : Memory → Nat → Int
  | [], _ => Memory.unwritten
  | (a, v) :: m, k => if a = k then v else Memory.read m k

/-- The list with a word written, in canonical form. -/
def Memory.write : Memory → Nat → Int → Memory
  | [], k, v => if v = Memory.unwritten then [] else [(k, v)]
  | (a, u) :: m, k, v =>
    if k < a then (if v = Memory.unwritten then (a, u) :: m else (k, v) :: (a, u) :: m)
    else if k = a then (if v = Memory.unwritten then m else (k, v) :: m)
    else (a, u) :: Memory.write m k v

/-- The canonical form, with every address at least `lo`. -/
def Memory.wfFrom : Nat → Memory → Bool
  | _, [] => true
  | lo, (a, v) :: m => decide (lo ≤ a) && decide (v ≠ Memory.unwritten) && Memory.wfFrom (a + 1) m

/-- The canonical form: addresses strictly rising, no word equal to what an unlisted address reads as. -/
def Memory.wf (m : Memory) : Bool := Memory.wfFrom 0 m

/-- The canonical list of the words `f 0, …, f (n - 1)`, put in front of `m`. -/
def Memory.ofFnOnto (f : Nat → Int) : Nat → Memory → Memory
  | 0, m => m
  | n + 1, m => Memory.ofFnOnto f n (if f n = Memory.unwritten then m else (n, f n) :: m)

/-- The canonical list of the words `f 0, …, f (n - 1)`. -/
def Memory.ofFn (f : Nat → Int) (n : Nat) : Memory := Memory.ofFnOnto f n []

/-! The storage spaces of 20_memory.md R29. -/

/-- `x[i]` (10_state.md R15; a negative id is no register either, log 10). -/
def readReg (s : State) (i : Int) : Except Fault Int :=
  if 0 ≤ i ∧ i < s.cfg.registerCount then .ok (s.regs.getD i.toNat 0) else .error (.invalidRegister i)

/-- `x[i] <- v` (10_state.md R15). -/
def writeReg (s : State) (i : Int) (v : Int) : Except Fault State :=
  if 0 ≤ i ∧ i < s.cfg.registerCount then .ok (s.withRegs (s.regs.set i.toNat v)) else .error (.invalidRegister i)

/-- `RomByte(i)` (20_memory.md R31). -/
def romByte (rom : List Byte) (i : Int) : Except Fault Byte :=
  if 0 ≤ i ∧ i < rom.length then .ok (rom.getD i.toNat 0) else .error (.accessViolation i)

/-- `MemRead(addr, 1)` (20_memory.md R33). -/
def memRead (s : State) (addr : Int) : Except Fault Int :=
  if addr < 0 ∨ addr ≥ s.cfg.ramSize then .error (.accessViolation addr)
  else .ok (Memory.read s.ram addr.toNat)

/-- `MemWrite(addr, 1, v)` (20_memory.md R34). -/
def memWrite (s : State) (addr : Int) (v : Int) : Except Fault State :=
  if addr < 0 ∨ addr ≥ s.cfg.ramSize then .error (.accessViolation addr)
  else .ok (s.withRam (Memory.write s.ram addr.toNat v))

/-- `Push(v)` (20_memory.md R36). -/
def push (s : State) (v : Int) : Except Fault State :=
  if s.stack.length = s.cfg.stackSize then .error (.stackOverflow s.stack.length)
  else .ok (s.withStack (s.stack ++ [v]))

/-- `Pop()`: the popped word and the state without it (20_memory.md R37). -/
def pop (s : State) : Except Fault (Int × State) :=
  match s.stack.getLast? with
  | none => .error (.stackUnderflow 0)
  | some v => .ok (v, s.withStack s.stack.dropLast)

/-- An output event is emitted (60_exceptions.md R130). -/
def emit (s : State) (e : Event) : State := s.withEvents (s.events ++ [e])

/-- `draw([0, 2^31 - 1])`: a free value and the state in which it has been taken (00_scope.md R8, 45_io_system.md R120,
log 5). -/
def drawRandom (s : State) : Int × State :=
  (((Config.rndDraw s.draws).toNat : Int), s.withDraws (s.draws + 1))

/-! Faults. -/

/-- The spec's numeric code of a fault (60_exceptions.md R122). -/
def faultCode : Fault → Nat
  | .encodingError _ => 1
  | .decodingError _ => 2
  | .accessViolation _ => 3
  | .stackOverflow _ => 4
  | .stackUnderflow _ => 5
  | .invalidOpcode _ => 6
  | .invalidRegister _ => 7
  | .invalidWriteTarget _ => 8
  | .divisionByZero => 9
  | .operandCountMismatch _ _ => 10
  | .operandFormRefused _ _ => 11
  | .negativeShiftAmount _ => 12

/-- A codec error as the fault of the instruction at `pc0` (60_exceptions.md R122; the value of `EncodingError` for too
many operands is their number, log 12). -/
def codecFault (pc0 : Int) : CodecError → Fault
  | .payloadRange value => .encodingError value
  | .tooManyOperands count => .encodingError count
  | .decodingError => .decodingError pc0
  | .invalidOpcode id => .invalidOpcode id

/-- A fault is taken: the record is set and nothing else the spec fixes changes; the pc, the registers, the flags, the
RAM and the stack, "not specified" after a fault, become free values (60_exceptions.md R123, logs 1 and 2). -/
def takeFault (f : Fault) (s : State) : State :=
  { s with
    fault := some ⟨f, s.pc0⟩
    pc := Config.faultPc s.draws
    regs := (List.range s.cfg.registerCount).map (Config.faultReg s.draws)
    flags := ⟨Config.faultFlag s.draws 0, Config.faultFlag s.draws 1, Config.faultFlag s.draws 2,
      Config.faultFlag s.draws 3⟩
    ram := Memory.ofFn (Config.faultRam s.draws) s.cfg.ramSize
    stack := (Config.faultStack s.draws).take s.cfg.stackSize
    draws := s.draws + 1 }

/-- How an instruction begun in `s` ends: with its next state, or with the fault it raised taken
(70_reset_and_hazards.md R137). -/
def finish (s : State) : Except Fault State → Host.Outcome State Fault Refusal
  | .ok t => .next t
  | .error f => .next (takeFault f s)

/-- `reset()`, from any state (70_reset_and_hazards.md R141). The ROM and the parameters stay; so do the count of free
values taken and the events already emitted, which are no state of the core (log 4). -/
def hostReset (s : State) : State :=
  { s with
    pc := 0
    regs := List.replicate s.cfg.registerCount 0
    ram := []
    stack := []
    flags := ⟨false, false, false, false⟩
    icount := 0
    halted := false
    paused := true
    fault := none
    last := none
    pc0 := 0 }

end Sys2Proof.Machine
end

