-- ==== Sys2Proof/Machine/Flags.lean ====
section
/-! DEFINITION. Value capping, the flag computations, and the integer operations of the arithmetic-logic unit. -/

namespace Sys2Proof.Machine

/-- The triple that capping gives: the capped value, the carry and the overflow (10_state.md R19). -/
structure Capped where
  value : Int
  carry : Bool
  overflow : Bool
deriving DecidableEq, Repr

/-- The range step of capping: `v - MOD_B` above `MAX`, else `v` (10_state.md R19). -/
def wrapHigh (c : Config) (v : Int) : Int := if v > c.max then v - c.modB else v

/-- `Cap(raw)` (10_state.md R19). -/
def cap (c : Config) (raw : Int) : Capped :=
  if raw > c.max ∨ raw < c.min then
    ⟨wrapHigh c (raw.fmod c.modB), decide (raw ≥ c.modB ∨ raw < 0), true⟩
  else ⟨raw, decide (raw ≥ c.modB ∨ raw < 0), false⟩

/-- `CapFlags(raw)`: the capped value, and the state with C and O written (10_state.md R20). -/
def capFlags (s : State) (raw : Int) : Int × State :=
  ((cap s.cfg raw).value,
    s.withFlags { s.flags with c := (cap s.cfg raw).carry, o := (cap s.cfg raw).overflow })

/-- `ArithFlags(v)`: Z and N (10_state.md R21). -/
def arithFlags (s : State) (v : Int) : State :=
  s.withFlags { s.flags with z := decide (v = 0), n := decide (v < 0) }

/-- `BoolFlags(v)`: Z from the value, N, C and O forced false (10_state.md R22). -/
def boolFlags (s : State) (v : Int) : State := s.withFlags ⟨decide (v = 0), false, false, false⟩

/-- `ShiftFlags(i, r)`: Z and N from the register id or from the result, as `SHIFT_FLAG_SOURCE` says (42_bitwise.md
R92). -/
def shiftFlags (s : State) (i : Int) (r : Int) : State :=
  match s.cfg.shiftFlagSource with
  | .registerId => s.withFlags { s.flags with z := decide (i = 0), n := decide (i < 0) }
  | .result => s.withFlags { s.flags with z := decide (r = 0), n := decide (r < 0) }

/-- `~v = -v - 1` (00_scope.md R7). -/
def intNot (v : Int) : Int := -v - 1

/-- `&` on the infinite two's-complement representation (00_scope.md R7); `m ^^^ (m &&& n)` is the bits of `m` that `n`
does not have. -/
def intAnd : Int → Int → Int
  | .ofNat m, .ofNat n => ((m &&& n : Nat) : Int)
  | .ofNat m, .negSucc n => ((m ^^^ (m &&& n) : Nat) : Int)
  | .negSucc m, .ofNat n => ((n ^^^ (n &&& m) : Nat) : Int)
  | .negSucc m, .negSucc n => .negSucc (m ||| n)

/-- `|` on the infinite two's-complement representation (00_scope.md R7). -/
def intOr : Int → Int → Int
  | .ofNat m, .ofNat n => ((m ||| n : Nat) : Int)
  | .ofNat m, .negSucc n => .negSucc (n ^^^ (n &&& m))
  | .negSucc m, .ofNat n => .negSucc (m ^^^ (m &&& n))
  | .negSucc m, .negSucc n => .negSucc (m &&& n)

/-- `^` on the infinite two's-complement representation (00_scope.md R7). -/
def intXor : Int → Int → Int
  | .ofNat m, .ofNat n => ((m ^^^ n : Nat) : Int)
  | .ofNat m, .negSucc n => .negSucc (m ^^^ n)
  | .negSucc m, .ofNat n => .negSucc (m ^^^ n)
  | .negSucc m, .negSucc n => ((m ^^^ n : Nat) : Int)

/-- `a * 2^k`, for `0 ≤ k` (42_bitwise.md R93). -/
def shiftLeft (a k : Int) : Int := a * ((2 ^ k.toNat : Nat) : Int)

/-- `floor(a / 2^k)`, for `0 ≤ k` (42_bitwise.md R94). -/
def shiftRight (a k : Int) : Int := a.fdiv ((2 ^ k.toNat : Nat) : Int)

end Sys2Proof.Machine
end

