-- ==== Sys2Proof/Machine/Operands.lean ====
section
/-! DEFINITION. The four operand forms, read and written, and the dispatch checks that run before an instruction's
rule. -/

namespace Sys2Proof.Machine

/-- The RAM address an operand names, none for a form that names no RAM (20_memory.md R39, R40, R41). -/
def operandAddress (s : State) : Operand → Except Fault (Option Int)
  | .register _ => .ok none
  | .immediate _ => .ok none
  | .memoryAddress addr => .ok (some addr)
  | .registerMemory id =>
    match readReg s id with
    | .error f => .error f
    | .ok addr => .ok (some addr)

/-- `Read(op)` (20_memory.md R39). -/
def readOperand (s : State) : Operand → Except Fault Int
  | .register id => readReg s id
  | .immediate value => .ok value
  | .memoryAddress addr => memRead s addr
  | .registerMemory id =>
    match readReg s id with
    | .error f => .error f
    | .ok addr => memRead s addr

/-- `Write(op, v)` (20_memory.md R40). -/
def writeOperand (s : State) (op : Operand) (v : Int) : Except Fault State :=
  match op with
  | .register id => writeReg s id v
  | .immediate value => .error (.invalidWriteTarget value)
  | .memoryAddress addr => memWrite s addr v
  | .registerMemory id =>
    match readReg s id with
    | .error f => .error f
    | .ok addr => memWrite s addr v

/-- Every operand read, in operand order (45_io_system.md R113). -/
def readOperands (s : State) : List Operand → Except Fault (List Int)
  | [] => .ok []
  | op :: ops =>
    match readOperand s op with
    | .error f => .error f
    | .ok v =>
      match readOperands s ops with
      | .error f => .error f
      | .ok vs => .ok (v :: vs)

/-- Dispatch of an opcode that takes no operand (30_encoding.md R64, R66). -/
def execute0 (opc : Opcode) (ops : List Operand) (s : State) (rule : Except Fault State) :
    Host.Outcome State Fault Refusal :=
  match ops with
  | [] => finish s rule
  | _ => finish s (.error (.operandCountMismatch opc ops.length))

/-- Dispatch of an opcode that takes one operand of any form (30_encoding.md R64, R66). -/
def execute1 (opc : Opcode) (ops : List Operand) (s : State) (rule : Operand → Except Fault State) :
    Host.Outcome State Fault Refusal :=
  match ops with
  | [a] => finish s (rule a)
  | _ => finish s (.error (.operandCountMismatch opc ops.length))

/-- Dispatch of an opcode that takes two operands of any form (30_encoding.md R64, R66). -/
def execute2 (opc : Opcode) (ops : List Operand) (s : State) (rule : Operand → Operand → Except Fault State) :
    Host.Outcome State Fault Refusal :=
  match ops with
  | [a, b] => finish s (rule a b)
  | _ => finish s (.error (.operandCountMismatch opc ops.length))

/-- Dispatch of an opcode that takes one operand, a Register: the count first, then the form (30_encoding.md R64,
R66). -/
def executeReg1 (opc : Opcode) (ops : List Operand) (s : State) (rule : Int → Except Fault State) :
    Host.Outcome State Fault Refusal :=
  execute1 opc ops s fun a =>
    match a with
    | .register id => rule id
    | _ => .error (.operandFormRefused opc 0)

/-- Dispatch of an opcode that takes two operands, the first a Register: the count first, then the form
(30_encoding.md R64, R66). -/
def executeReg2 (opc : Opcode) (ops : List Operand) (s : State) (rule : Int → Operand → Except Fault State) :
    Host.Outcome State Fault Refusal :=
  execute2 opc ops s fun a b =>
    match a with
    | .register id => rule id b
    | _ => .error (.operandFormRefused opc 0)

/-- Dispatch of an opcode that takes 0, 1 or 2 operands of any form (30_encoding.md R64, R66). -/
def executeUpTo2 (opc : Opcode) (ops : List Operand) (s : State) (rule : Except Fault State) :
    Host.Outcome State Fault Refusal :=
  if ops.length ≤ 2 then finish s rule else finish s (.error (.operandCountMismatch opc ops.length))

end Sys2Proof.Machine
end

