-- ==== Sys2Proof/Machine/Arithmetic.lean ====
section
/-! DEFINITION. Integer arithmetic (41_arithmetic.md): ADD, SUB, MUL, DIV, MOD, INC, DEC, NEG. -/

namespace Sys2Proof.Machine

/-- The end of every arithmetic instruction: the raw result is capped, the four flags are written, and the capped value
is written to the destination (41_arithmetic.md R75). -/
def writeArith (s : State) (dst : Operand) (raw : Int) : Except Fault State :=
  writeOperand (arithFlags (capFlags s raw).2 (capFlags s raw).1) dst (capFlags s raw).1

/-- A two-operand arithmetic instruction: both operands are read, then the raw result is computed, or the operation's
own fault raised, then the result is written (41_arithmetic.md R75, R77 to R81). -/
def arith2 (opc : Opcode) (raw : Int → Int → Except Fault Int) (ops : List Operand) (s : State) :
    Host.Outcome State Fault Refusal :=
  execute2 opc ops s fun dst src =>
    match readOperand s dst with
    | .error f => .error f
    | .ok a =>
      match readOperand s src with
      | .error f => .error f
      | .ok b =>
        match raw a b with
        | .error f => .error f
        | .ok r => writeArith s dst r

/-- A one-operand arithmetic instruction (41_arithmetic.md R75, R82 to R84). -/
def arith1 (opc : Opcode) (raw : Int → Int) (ops : List Operand) (s : State) : Host.Outcome State Fault Refusal :=
  execute1 opc ops s fun dst =>
    match readOperand s dst with
    | .error f => .error f
    | .ok a => writeArith s dst (raw a)

/-- ADD: addition (41_arithmetic.md R77). -/
def execAdd (ops : List Operand) (s : State) : Host.Outcome State Fault Refusal :=
  arith2 .add (fun a b => .ok (a + b)) ops s

/-- SUB: subtraction (41_arithmetic.md R78). -/
def execSub (ops : List Operand) (s : State) : Host.Outcome State Fault Refusal :=
  arith2 .sub (fun a b => .ok (a - b)) ops s

/-- MUL: multiplication (41_arithmetic.md R79). -/
def execMul (ops : List Operand) (s : State) : Host.Outcome State Fault Refusal :=
  arith2 .mul (fun a b => .ok (a * b)) ops s

/-- DIV: floor division (41_arithmetic.md R80, R76). -/
def execDiv (ops : List Operand) (s : State) : Host.Outcome State Fault Refusal :=
  arith2 .div (fun a b => if b = 0 then .error .divisionByZero else .ok (a.fdiv b)) ops s

/-- MOD: floor remainder, with the divisor's sign (41_arithmetic.md R81, R76). -/
def execMod (ops : List Operand) (s : State) : Host.Outcome State Fault Refusal :=
  arith2 .mod (fun a b => if b = 0 then .error .divisionByZero else .ok (a.fmod b)) ops s

/-- INC: increment (41_arithmetic.md R82). -/
def execInc (ops : List Operand) (s : State) : Host.Outcome State Fault Refusal :=
  arith1 .inc (fun a => a + 1) ops s

/-- DEC: decrement (41_arithmetic.md R83). -/
def execDec (ops : List Operand) (s : State) : Host.Outcome State Fault Refusal :=
  arith1 .dec (fun a => a - 1) ops s

/-- NEG: negation (41_arithmetic.md R84). -/
def execNeg (ops : List Operand) (s : State) : Host.Outcome State Fault Refusal :=
  arith1 .neg (fun a => -a) ops s

end Sys2Proof.Machine
end

