-- ==== Sys2Proof/Machine/Bitwise.lean ====
section
/-! DEFINITION. Bitwise operations, CLR, TEST and the shifts (42_bitwise.md). -/

namespace Sys2Proof.Machine

/-- A two-operand logical instruction: both operands are read, the boolean flags are written from the uncapped result,
and the result is written (42_bitwise.md R85 to R88). -/
def logic2 (opc : Opcode) (op : Int → Int → Int) (ops : List Operand) (s : State) : Host.Outcome State Fault Refusal :=
  execute2 opc ops s fun dst src =>
    match readOperand s dst with
    | .error f => .error f
    | .ok a =>
      match readOperand s src with
      | .error f => .error f
      | .ok b => writeOperand (boolFlags s (op a b)) dst (op a b)

/-- AND: bitwise and (42_bitwise.md R86). -/
def execAnd (ops : List Operand) (s : State) : Host.Outcome State Fault Refusal :=
  logic2 .and intAnd ops s

/-- OR: bitwise inclusive or (42_bitwise.md R87). -/
def execOr (ops : List Operand) (s : State) : Host.Outcome State Fault Refusal :=
  logic2 .or intOr ops s

/-- XOR: bitwise exclusive or (42_bitwise.md R88). -/
def execXor (ops : List Operand) (s : State) : Host.Outcome State Fault Refusal :=
  logic2 .xor intXor ops s

/-- NOT: bitwise complement (42_bitwise.md R89). -/
def execNot (ops : List Operand) (s : State) : Host.Outcome State Fault Refusal :=
  execute1 .not ops s fun dst =>
    match readOperand s dst with
    | .error f => .error f
    | .ok a => writeOperand (boolFlags s (intNot a)) dst (intNot a)

/-- CLR: 0 is written to operand 0, then to operand 1 in the state after the first write; no flag is written
(42_bitwise.md R90). -/
def execClr (ops : List Operand) (s : State) : Host.Outcome State Fault Refusal :=
  execute2 .clr ops s fun a b =>
    match writeOperand s a 0 with
    | .error f => .error f
    | .ok t => writeOperand t b 0

/-- TEST: the boolean flags of the bitwise and, nothing else written (42_bitwise.md R91). -/
def execTest (ops : List Operand) (s : State) : Host.Outcome State Fault Refusal :=
  execute2 .test ops s fun a b =>
    match readOperand s a with
    | .error f => .error f
    | .ok x =>
      match readOperand s b with
      | .error f => .error f
      | .ok y => .ok (boolFlags s (intAnd x y))

/-- A shift of a register in place, uncapped: the register and the amount are read, a negative amount faults, Z and N are
written per R92, C and O are kept (42_bitwise.md R92 to R94). -/
def shift (opc : Opcode) (op : Int → Int → Int) (ops : List Operand) (s : State) : Host.Outcome State Fault Refusal :=
  executeReg2 opc ops s fun i amount =>
    match readReg s i with
    | .error f => .error f
    | .ok a =>
      match readOperand s amount with
      | .error f => .error f
      | .ok k =>
        if k < 0 then .error (.negativeShiftAmount k)
        else writeReg (shiftFlags s i (op a k)) i (op a k)

/-- SHL: shift left, exact and uncapped (42_bitwise.md R93). -/
def execShl (ops : List Operand) (s : State) : Host.Outcome State Fault Refusal :=
  shift .shl shiftLeft ops s

/-- SHR: arithmetic shift right (42_bitwise.md R94). -/
def execShr (ops : List Operand) (s : State) : Host.Outcome State Fault Refusal :=
  shift .shr shiftRight ops s

end Sys2Proof.Machine
end

