-- ==== Sys2Proof/Machine/Branch.lean ====
section
/-! DEFINITION. CMP, the jumps, CALL and RET (43_compare_branch.md). -/

namespace Sys2Proof.Machine

/-- CMP: the four flags as SUB would write them, nothing else written (43_compare_branch.md R95). -/
def execCmp (ops : List Operand) (s : State) : Host.Outcome State Fault Refusal :=
  execute2 .cmp ops s fun a b =>
    match readOperand s a with
    | .error f => .error f
    | .ok x =>
      match readOperand s b with
      | .error f => .error f
      | .ok y => .ok (arithFlags (capFlags s (x - y)).2 (capFlags s (x - y)).1)

/-- A jump: the target is read whether or not the jump is taken; the pc is written when `taken` holds of the flags
(43_compare_branch.md R96). -/
def jump (opc : Opcode) (taken : Flags → Bool) (ops : List Operand) (s : State) : Host.Outcome State Fault Refusal :=
  execute1 opc ops s fun target =>
    match readOperand s target with
    | .error f => .error f
    | .ok t => .ok (if taken s.flags then s.withPc t else s)

/-- JMP: unconditional jump (43_compare_branch.md R97). -/
def execJmp (ops : List Operand) (s : State) : Host.Outcome State Fault Refusal :=
  jump .jmp (fun _ => true) ops s

/-- JZ: jump if zero (43_compare_branch.md R98). -/
def execJz (ops : List Operand) (s : State) : Host.Outcome State Fault Refusal :=
  jump .jz (fun f => f.z) ops s

/-- JNZ: jump if not zero (43_compare_branch.md R99). -/
def execJnz (ops : List Operand) (s : State) : Host.Outcome State Fault Refusal :=
  jump .jnz (fun f => !f.z) ops s

/-- JN: jump if negative (43_compare_branch.md R100). -/
def execJn (ops : List Operand) (s : State) : Host.Outcome State Fault Refusal :=
  jump .jn (fun f => f.n) ops s

/-- JNN: jump if not negative (43_compare_branch.md R101). -/
def execJnn (ops : List Operand) (s : State) : Host.Outcome State Fault Refusal :=
  jump .jnn (fun f => !f.n) ops s

/-- JO: jump if overflow (43_compare_branch.md R102). -/
def execJo (ops : List Operand) (s : State) : Host.Outcome State Fault Refusal :=
  jump .jo (fun f => f.o) ops s

/-- JNO: jump if no overflow (43_compare_branch.md R103). -/
def execJno (ops : List Operand) (s : State) : Host.Outcome State Fault Refusal :=
  jump .jno (fun f => !f.o) ops s

/-- JC: jump if carry (43_compare_branch.md R104). -/
def execJc (ops : List Operand) (s : State) : Host.Outcome State Fault Refusal :=
  jump .jc (fun f => f.c) ops s

/-- JNC: jump if no carry (43_compare_branch.md R105). -/
def execJnc (ops : List Operand) (s : State) : Host.Outcome State Fault Refusal :=
  jump .jnc (fun f => !f.c) ops s

/-- CALL: the target is read, the pc (already past the CALL) is pushed, the pc is written (43_compare_branch.md R106). -/
def execCall (ops : List Operand) (s : State) : Host.Outcome State Fault Refusal :=
  execute1 .call ops s fun target =>
    match readOperand s target with
    | .error f => .error f
    | .ok t =>
      match push s s.pc with
      | .error f => .error f
      | .ok s' => .ok (s'.withPc t)

/-- RET: the pc is popped (43_compare_branch.md R107). -/
def execRet (ops : List Operand) (s : State) : Host.Outcome State Fault Refusal :=
  execute0 .ret ops s
    (match pop s with
    | .error f => .error f
    | .ok (v, s') => .ok (s'.withPc v))

end Sys2Proof.Machine
end

