-- ==== Sys2Proof/Machine/InputOutput.lean ====
section
/-! DEFINITION. The display opcodes, PRT, RND and HLT (45_io_system.md). -/

namespace Sys2Proof.Machine

/-- `DisplayOp(opc, ops)`: with a Display, every operand is read and the event emitted; with none, nothing
(45_io_system.md R113). -/
def displayOp (opc : Opcode) (d : DisplayOpcode) (ops : List Operand) (s : State) : Host.Outcome State Fault Refusal :=
  executeUpTo2 opc ops s
    (if s.cfg.displayPresent then
      match readOperands s ops with
      | .error f => .error f
      | .ok values => .ok (emit s (.display d values))
    else .ok s)

/-- DSP: display (pixel) request (45_io_system.md R114). -/
def execDsp (ops : List Operand) (s : State) : Host.Outcome State Fault Refusal :=
  displayOp .dsp .dsp ops s

/-- CLS: clear-screen request (45_io_system.md R115). -/
def execCls (ops : List Operand) (s : State) : Host.Outcome State Fault Refusal :=
  displayOp .cls .cls ops s

/-- BFR: buffer request (45_io_system.md R116). -/
def execBfr (ops : List Operand) (s : State) : Host.Outcome State Fault Refusal :=
  displayOp .bfr .bfr ops s

/-- SB: buffer-selection request (45_io_system.md R117). -/
def execSb (ops : List Operand) (s : State) : Host.Outcome State Fault Refusal :=
  displayOp .sb .sb ops s

/-- COL: colour request (45_io_system.md R118). -/
def execCol (ops : List Operand) (s : State) : Host.Outcome State Fault Refusal :=
  displayOp .col .col ops s

/-- PRT: the operand is read always; the event is emitted when printing is enabled (45_io_system.md R119). -/
def execPrt (ops : List Operand) (s : State) : Host.Outcome State Fault Refusal :=
  execute1 .prt ops s fun src =>
    match readOperand s src with
    | .error f => .error f
    | .ok v => .ok (if s.cfg.printing then emit s (.print v) else s)

/-- RND: a free draw is written, uncapped; no flag is written (45_io_system.md R120). -/
def execRnd (ops : List Operand) (s : State) : Host.Outcome State Fault Refusal :=
  execute1 .rnd ops s fun dst => writeOperand (drawRandom s).2 dst (drawRandom s).1

/-- HLT: halted becomes true (45_io_system.md R121). -/
def execHlt (ops : List Operand) (s : State) : Host.Outcome State Fault Refusal :=
  execute0 .hlt ops s (.ok (s.withHalted true))

end Sys2Proof.Machine
end

