-- ==== Sys2Proof/Machine/Move.lean ====
section
/-! DEFINITION. NOP and MOV (40_move.md). -/

namespace Sys2Proof.Machine

/-- NOP: no state change (40_move.md R73). -/
def execNop (ops : List Operand) (s : State) : Host.Outcome State Fault Refusal :=
  execute0 .nop ops s (.ok s)

/-- MOV: the capped source is written; C and O from capping, Z and N kept (40_move.md R74). -/
def execMov (ops : List Operand) (s : State) : Host.Outcome State Fault Refusal :=
  execute2 .mov ops s fun dst src =>
    match readOperand s src with
    | .error f => .error f
    | .ok v => writeOperand (capFlags s v).2 dst (capFlags s v).1

end Sys2Proof.Machine
end

