-- ==== Sys2Proof/Machine/Transfer.lean ====
section
/-! DEFINITION. PUSH, POP, LDR and STR (44_stack_memory.md). -/

namespace Sys2Proof.Machine

/-- PUSH: the operand's value is pushed, uncapped (44_stack_memory.md R109). -/
def execPush (ops : List Operand) (s : State) : Host.Outcome State Fault Refusal :=
  execute1 .push ops s fun src =>
    match readOperand s src with
    | .error f => .error f
    | .ok v => push s v

/-- POP: the popped word is written to the register, uncapped (44_stack_memory.md R110). -/
def execPop (ops : List Operand) (s : State) : Host.Outcome State Fault Refusal :=
  executeReg1 .pop ops s fun i =>
    match pop s with
    | .error f => .error f
    | .ok (v, s') => writeReg s' i v

/-- LDR: the RAM word at the address that operand 1's value is, to the register (44_stack_memory.md R111). -/
def execLdr (ops : List Operand) (s : State) : Host.Outcome State Fault Refusal :=
  executeReg2 .ldr ops s fun i src =>
    match readOperand s src with
    | .error f => .error f
    | .ok a =>
      match memRead s a with
      | .error f => .error f
      | .ok v => writeReg s i v

/-- STR: operand 1's value to the RAM address that operand 0's value is (44_stack_memory.md R112). -/
def execStr (ops : List Operand) (s : State) : Host.Outcome State Fault Refusal :=
  execute2 .str ops s fun dst src =>
    match readOperand s dst with
    | .error f => .error f
    | .ok a =>
      match readOperand s src with
      | .error f => .error f
      | .ok v => memWrite s a v

end Sys2Proof.Machine
end

