-- ==== Sys2Proof/Machine/Dispatch.lean ====
section
/-! DEFINITION. Dispatch: "an exhaustive match over a closed enumeration of opcode variants" (30_encoding.md R66). -/

namespace Sys2Proof.Machine

def exec (i : Instr) (s : State) : Host.Outcome State Fault Refusal :=
  match i with
  | .nop ops => Sys2Proof.Machine.execNop ops s
  | .mov ops => Sys2Proof.Machine.execMov ops s
  | .add ops => Sys2Proof.Machine.execAdd ops s
  | .sub ops => Sys2Proof.Machine.execSub ops s
  | .mul ops => Sys2Proof.Machine.execMul ops s
  | .div ops => Sys2Proof.Machine.execDiv ops s
  | .mod ops => Sys2Proof.Machine.execMod ops s
  | .inc ops => Sys2Proof.Machine.execInc ops s
  | .dec ops => Sys2Proof.Machine.execDec ops s
  | .neg ops => Sys2Proof.Machine.execNeg ops s
  | .and ops => Sys2Proof.Machine.execAnd ops s
  | .or ops => Sys2Proof.Machine.execOr ops s
  | .xor ops => Sys2Proof.Machine.execXor ops s
  | .not ops => Sys2Proof.Machine.execNot ops s
  | .clr ops => Sys2Proof.Machine.execClr ops s
  | .test ops => Sys2Proof.Machine.execTest ops s
  | .shl ops => Sys2Proof.Machine.execShl ops s
  | .shr ops => Sys2Proof.Machine.execShr ops s
  | .cmp ops => Sys2Proof.Machine.execCmp ops s
  | .jmp ops => Sys2Proof.Machine.execJmp ops s
  | .jz ops => Sys2Proof.Machine.execJz ops s
  | .jnz ops => Sys2Proof.Machine.execJnz ops s
  | .jn ops => Sys2Proof.Machine.execJn ops s
  | .jnn ops => Sys2Proof.Machine.execJnn ops s
  | .jo ops => Sys2Proof.Machine.execJo ops s
  | .jno ops => Sys2Proof.Machine.execJno ops s
  | .jc ops => Sys2Proof.Machine.execJc ops s
  | .jnc ops => Sys2Proof.Machine.execJnc ops s
  | .call ops => Sys2Proof.Machine.execCall ops s
  | .ret ops => Sys2Proof.Machine.execRet ops s
  | .push ops => Sys2Proof.Machine.execPush ops s
  | .pop ops => Sys2Proof.Machine.execPop ops s
  | .ldr ops => Sys2Proof.Machine.execLdr ops s
  | .str ops => Sys2Proof.Machine.execStr ops s
  | .dsp ops => Sys2Proof.Machine.execDsp ops s
  | .cls ops => Sys2Proof.Machine.execCls ops s
  | .bfr ops => Sys2Proof.Machine.execBfr ops s
  | .sb ops => Sys2Proof.Machine.execSb ops s
  | .col ops => Sys2Proof.Machine.execCol ops s
  | .prt ops => Sys2Proof.Machine.execPrt ops s
  | .rnd ops => Sys2Proof.Machine.execRnd ops s
  | .hlt ops => Sys2Proof.Machine.execHlt ops s

end Sys2Proof.Machine
end

