-- ==== Sys2Proof/Machine/Fetch.lean ====
section
/-! DEFINITION. Fetch of one instruction from the ROM, and the placing of an instruction where the next fetch reads. -/

namespace Sys2Proof.Machine

/-- The length of the instruction at `pc`, from its first byte and, if it has operands, its second (30_encoding.md R57,
R61). -/
def fetchLength (rom : List Byte) (pc : Int) : Except Fault Nat :=
  match romByte rom pc with
  | .error f => .error f
  | .ok b0 =>
    if bits b0.toNat 7 6 = 3 then .error (.decodingError pc)
    else if bits b0.toNat 7 6 = 0 then .ok 1
    else
      match romByte rom (pc + 1) with
      | .error f => .error f
      | .ok b1 =>
        match instrLength b0 b1 with
        | none => .error (.decodingError pc)
        | some len => .ok len

/-- `Fetch()`: the bytes of the instruction at the pc, none at or past the end of the ROM. The caller writes `halted`
for none, and advances the pc by the number of bytes otherwise (30_encoding.md R61). -/
def fetch (s : State) : Except Fault (Option (List Byte)) :=
  if s.pc ≥ s.rom.length then .ok none
  else if s.pc < 0 then .error (.accessViolation s.pc)
  else
    match fetchLength s.rom s.pc with
    | .error f => .error f
    | .ok len =>
      if s.pc + len > s.rom.length then .error (.accessViolation s.rom.length)
      else .ok (some ((s.rom.drop s.pc.toNat).take len))

/-- The ROM with `bytes` at offset `at_`, zeros between its old end and them if it ended before. -/
def romStore (rom : List Byte) (at_ : Nat) (bytes : List Byte) : List Byte :=
  rom.take at_ ++ List.replicate (at_ - rom.length) 0 ++ bytes ++ rom.drop (at_ + bytes.length)

/-- The bytes of `tableBytes nbits w` placed in the ROM at the pc, and every status that would keep the next step from
fetching them cleared; a negative pc, where no byte can be placed, becomes 0 (log 6). -/
def placeInstruction (s : State) (nbits w : Nat) : State :=
  { s with
    rom := romStore s.rom s.pc.toNat (tableBytes nbits w)
    pc := if s.pc < 0 then 0 else s.pc
    halted := false
    paused := false
    fault := none }

end Sys2Proof.Machine
end

