-- ==== Sys2Proof/Machine/Cycle.lean ====
section
/-! DEFINITION. The step cycle: fetch, decode, execute, and the bookkeeping around them (70_reset_and_hazards.md
R137). -/

namespace Sys2Proof.Machine

/-- The core takes no step: it is halted, paused, or faulted (70_reset_and_hazards.md R137). -/
def isIdle (s : State) : Bool := s.halted || s.paused || s.fault.isSome

/-- `icount` is incremented when the instruction completed, and not when it faulted (10_state.md R26,
70_reset_and_hazards.md R137). -/
def countCompleted (t : State) : State := if t.fault.isSome then t else t.withIcount (t.icount + 1)

/-- A decoded instruction is recorded as the last one, executed, and counted (70_reset_and_hazards.md R137). -/
def runDecoded (i : Instr) (s : State) : Host.Outcome State Fault Refusal :=
  match exec i (s.withLast (some i)) with
  | .next t => .next (countCompleted t)
  | .fault f => .fault f
  | .refused r => .refused r

/-- The fetched bytes, the pc already past them, are decoded and run (70_reset_and_hazards.md R137). -/
def runFetched (bytes : List Byte) (s : State) : Host.Outcome State Fault Refusal :=
  match decode s.cfg.opcodeIds bytes with
  | .error e => .next (takeFault (codecFault s.pc0 e) s)
  | .ok i => runDecoded i s

/-- A step of a core that is not idle, `pc0` already the offset of the instruction (70_reset_and_hazards.md R137). -/
def cycle (s : State) : Host.Outcome State Fault Refusal :=
  match fetch s with
  | .error f => .next (takeFault f s)
  | .ok none => .next (s.withHalted true)
  | .ok (some bytes) => runFetched bytes (s.withPc (s.pc + bytes.length))

/-- `step()` as a state change (70_reset_and_hazards.md R137). -/
def stepCore (s : State) : Host.Outcome State Fault Refusal :=
  if isIdle s then .next s else cycle (s.withPc0 s.pc)

end Sys2Proof.Machine
end

