-- ==== Sys2Proof/Machine/Step.lean ====
section
/-! DEFINITION. The step of the machine, and the placing of one instruction for it. -/

namespace Sys2Proof.Machine

/-- One `step()` of the core (70_reset_and_hazards.md R137). -/
def step (s : State) : Host.Outcome State Fault Refusal := stepCore s

/-- The state with one instruction stored where the next step fetches, and nothing in the way of that fetch (log 6). -/
def State.withFetchWord (s : State) (nbits w : Nat) : State := placeInstruction s nbits w

end Sys2Proof.Machine
end

