-- ==== Sys2Proof/Machine/Assembler.lean ====
section
/-! DEFINITION. The two-pass assembler, the toolchain of the ISA: "it is not part of the hardware" (00_scope.md R3), and
no step uses it (30_encoding.md R67 to R72, log 13). -/

namespace Sys2Proof.Machine

/-- Why a line does not assemble (30_encoding.md R71, 92_eei_decisions.md D33). -/
inductive AsmReason where
  | unknownMnemonic
  | unresolvableRegister
  | unparsableInteger
  | tooManyOperands
  | badLabelName
  | duplicateLabel
  | bracketedLabel
  | encoding (e : CodecError)
deriving DecidableEq, Repr

/-- A failed assembly: the number of the offending source line, the first line 1, and the reason (30_encoding.md R71). -/
structure AsmError where
  line : Nat
  reason : AsmReason
deriving DecidableEq, Repr

/-- An argument token, classified without resolving symbols (30_encoding.md R69). -/
inductive AsmArg where
  | register (id : Nat)
  | registerMemory (id : Nat)
  | memory (inner : List Char)
  | bare (token : List Char)
deriving DecidableEq, Repr

/-- A source line: its number, the label it declares, and the mnemonic with its arguments (30_encoding.md R67). -/
structure AsmLine where
  number : Nat
  label : Option (List Char)
  body : Option (List Char × List AsmArg)
deriving DecidableEq, Repr

/-- The pieces of a text between the characters that `sep` holds of. -/
def splitChars (sep : Char → Bool) : List Char → List (List Char)
  | [] => [[]]
  | c :: cs =>
    match splitChars sep cs with
    | [] => [[c]]
    | piece :: pieces => if sep c then [] :: piece :: pieces else (c :: piece) :: pieces

/-- The tokens of a line: the comment removed, commas and whitespace separating (30_encoding.md R67). -/
def lineTokens (line : List Char) : List (List Char) :=
  (splitChars (fun c => c == ',' || c.isWhitespace) (line.takeWhile (fun c => c != ';'))).filter (fun t => t != [])

/-- The value of a hexadecimal digit. -/
def hexDigit (c : Char) : Option Nat :=
  if '0' ≤ c ∧ c ≤ '9' then some (c.toNat - 48)
  else if 'a' ≤ c ∧ c ≤ 'f' then some (c.toNat - 87)
  else if 'A' ≤ c ∧ c ≤ 'F' then some (c.toNat - 55)
  else none

/-- The number that `acc` followed by digits of a base is. -/
def parseDigits (base : Nat) : Nat → List Char → Option Nat
  | acc, [] => some acc
  | acc, c :: cs =>
    match hexDigit c with
    | none => none
    | some d => if d < base then parseDigits base (base * acc + d) cs else none

/-- One or more digits of a base. -/
def parseNonempty (base : Nat) (cs : List Char) : Option Nat :=
  if cs = [] then none else parseDigits base 0 cs

/-- Decimal, or `0x` or `0X` and hexadecimal (30_encoding.md R67). -/
def parseUnsigned : List Char → Option Nat
  | '0' :: 'x' :: cs => parseNonempty 16 cs
  | '0' :: 'X' :: cs => parseNonempty 16 cs
  | cs => parseNonempty 10 cs

/-- `number`, with an optional leading `-` (30_encoding.md R67). -/
def parseNumber : List Char → Option Int
  | '-' :: cs => (parseUnsigned cs).map fun n => -(n : Int)
  | cs => (parseUnsigned cs).map fun n => (n : Int)

/-- The id of a token that matches `reg` exactly (30_encoding.md R67, R68). -/
def parseRegister : List Char → Option Nat
  | 'r' :: cs => parseNonempty 10 cs
  | 'R' :: cs => parseNonempty 10 cs
  | _ => none

/-- The inside of a token of the form `[...]`. -/
def bracketInner : List Char → Option (List Char)
  | '[' :: cs => if cs.getLast? = some ']' then some cs.dropLast else none
  | _ => none

/-- A token's form (30_encoding.md R68, R69). -/
def classifyArg (token : List Char) : AsmArg :=
  match bracketInner token with
  | some inner =>
    match parseRegister inner with
    | some id => .registerMemory id
    | none => .memory inner
  | none =>
    match parseRegister token with
    | some id => .register id
    | none => .bare token

/-- The payload bytes of an argument (30_encoding.md R69). -/
def argSize : AsmArg → Nat
  | .register _ => 1
  | .registerMemory _ => 1
  | .memory _ => 2
  | .bare _ => 4

/-- The size of a line's instruction: 1 with no arguments, 2 and the argument sizes otherwise (30_encoding.md R69). -/
def bodySize : Option (List Char × List AsmArg) → Nat
  | none => 0
  | some (_, []) => 1
  | some (_, args) => 2 + (args.map argSize).sum

/-- The mnemonic and its arguments. -/
def parseBody : List (List Char) → Option (List Char × List AsmArg)
  | [] => none
  | mnemonic :: args => some (mnemonic, args.map classifyArg)

/-- A line's label, if its first token ends in `:`, and what follows on the line (30_encoding.md R67). -/
def parseLine (number : Nat) (line : List Char) : AsmLine :=
  match lineTokens line with
  | [] => ⟨number, none, none⟩
  | first :: rest =>
    if first.getLast? = some ':' then ⟨number, some first.dropLast, parseBody rest⟩
    else ⟨number, none, parseBody (first :: rest)⟩

/-- The lines of a source text, numbered from `number`. -/
def parseLines : Nat → List (List Char) → List AsmLine
  | _, [] => []
  | number, line :: lines => parseLine number line :: parseLines (number + 1) lines

/-- A character that an identifier may begin with. -/
def isIdentStart (c : Char) : Bool := ('A' ≤ c && c ≤ 'Z') || ('a' ≤ c && c ≤ 'z') || c == '_'

/-- An identifier that is not register-shaped (30_encoding.md R68). -/
def isLabelName : List Char → Bool
  | [] => false
  | c :: cs =>
    isIdentStart c && cs.all (fun d => isIdentStart d || ('0' ≤ d && d ≤ '9')) && (parseRegister (c :: cs)).isNone

/-- Pass 1: the labels with their byte offsets, from a running offset (30_encoding.md R69). -/
def passOne : Nat → List (List Char × Nat) → List AsmLine → Except AsmError (List (List Char × Nat))
  | _, labels, [] => .ok labels
  | offset, labels, l :: ls =>
    match l.label with
    | none => passOne (offset + bodySize l.body) labels ls
    | some name =>
      if isLabelName name = false then .error ⟨l.number, .badLabelName⟩
      else if (labels.lookup name).isSome then .error ⟨l.number, .duplicateLabel⟩
      else passOne (offset + bodySize l.body) (labels ++ [(name, offset)]) ls

/-- An argument as an operand (30_encoding.md R70, R71). -/
def resolveArg (cfg : Config) (labels : List (List Char × Nat)) : AsmArg → Except AsmReason Operand
  | .register id => if id < cfg.registerCount then .ok (.register id) else .error .unresolvableRegister
  | .registerMemory id => if id < cfg.registerCount then .ok (.registerMemory id) else .error .unresolvableRegister
  | .memory inner =>
    match parseNumber inner with
    | some n => .ok (.memoryAddress n)
    | none => if (labels.lookup inner).isSome then .error .bracketedLabel else .error .unparsableInteger
  | .bare token =>
    match labels.lookup token with
    | some offset => .ok (.immediate offset)
    | none =>
      match parseNumber token with
      | some n => .ok (.immediate n)
      | none => .error .unparsableInteger

/-- The arguments as operands, in order. -/
def resolveArgs (cfg : Config) (labels : List (List Char × Nat)) : List AsmArg → Except AsmReason (List Operand)
  | [] => .ok []
  | arg :: args =>
    match resolveArg cfg labels arg with
    | .error e => .error e
    | .ok op =>
      match resolveArgs cfg labels args with
      | .error e => .error e
      | .ok ops => .ok (op :: ops)

/-- The opcode of a mnemonic, matched "case-insensitive" (30_encoding.md R67). -/
def parseMnemonic (token : List Char) : Option Opcode :=
  Opcode.all.find? fun opc => opc.mnemonic.toList == token.map Char.toUpper

/-- The bytes of one instruction (30_encoding.md R70, R71). -/
def assembleBody (cfg : Config) (labels : List (List Char × Nat)) :
    Option (List Char × List AsmArg) → Except AsmReason (List Byte)
  | none => .ok []
  | some (mnemonic, args) =>
    match parseMnemonic mnemonic with
    | none => .error .unknownMnemonic
    | some opc =>
      if args.length > 2 then .error .tooManyOperands
      else
        match resolveArgs cfg labels args with
        | .error e => .error e
        | .ok ops =>
          match encode cfg.opcodeIds (Instr.ofOpcode ops opc) with
          | .error e => .error (.encoding e)
          | .ok bytes => .ok bytes

/-- Pass 2: the bytes of the lines, joined (30_encoding.md R70, R72). -/
def passTwo (cfg : Config) (labels : List (List Char × Nat)) : List AsmLine → Except AsmError (List Byte)
  | [] => .ok []
  | l :: ls =>
    match assembleBody cfg labels l.body with
    | .error e => .error ⟨l.number, e⟩
    | .ok bytes =>
      match passTwo cfg labels ls with
      | .error e => .error e
      | .ok more => .ok (bytes ++ more)

/-- The ROM image of a source text, or the line it fails on; no partial ROM is made (30_encoding.md R69 to R72). -/
def assemble (cfg : Config) (source : List Char) : Except AsmError (List Byte) :=
  match passOne 0 [] (parseLines 1 (splitChars (fun c => c == '\n') source)) with
  | .error e => .error e
  | .ok labels => passTwo cfg labels (parseLines 1 (splitChars (fun c => c == '\n') source))

end Sys2Proof.Machine
end

