-- ==== Sys2Proof/Machine/Control.lean ====
section
/-! DEFINITION. The host's side of the interface: construction, pause, resume, what `step()` returns, the snapshot, the
Display request of an event, and the end of a run. `reset()` stands in Ops.lean. -/

namespace Sys2Proof.Machine

/-- Construction from the parameters and the ROM: the column "at construction" of 10_state.md R28
(70_reset_and_hazards.md R142, R143). -/
def construct (cfg : Config) (rom : List Byte) : State where
  cfg := cfg
  rom := rom
  regs := List.replicate cfg.registerCount 0
  pc := 0
  flags := ⟨false, false, false, false⟩
  ram := []
  stack := []
  halted := false
  paused := false
  fault := none
  icount := 0
  last := none
  pc0 := 0
  draws := 0
  events := []

/-- `pause()` (70_reset_and_hazards.md R140). -/
def pause (s : State) : State := s.withPaused true

/-- `resume()` (70_reset_and_hazards.md R140). -/
def resume (s : State) : State := s.withPaused false

/-- What `step()` returns to the host (70_reset_and_hazards.md R137). -/
inductive StepResult where
  | idle
  | halted
  | executed
  | fault (f : Fault)
deriving DecidableEq, Repr

/-- What the `step()` that leads from `s` to `t` returns: Idle for a core that takes no step, Fault when a record was
set, Executed when the instruction was counted, Halted for a fetch past the end of the ROM (70_reset_and_hazards.md
R137). -/
def stepResult (s t : State) : StepResult :=
  if isIdle s then .idle
  else
    match t.fault with
    | some r => .fault r.fault
    | none => if t.icount = s.icount then .halted else .executed

/-- The events that the `step()` from `s` to `t` emitted (60_exceptions.md R130, R133). -/
def stepEvents (s t : State) : List Event := t.events.drop s.events.length

/-- The inspection snapshot (60_exceptions.md R132). -/
structure Snapshot where
  pc : Int
  flags : Flags
  regs : List Word
  last : Option Instr
  icount : Nat
  halted : Bool
  paused : Bool
  fault : Option FaultRecord
  ram : Memory
  stack : List Word
deriving DecidableEq, Repr

/-- The snapshot of a state; reading it changes nothing (60_exceptions.md R132). -/
def snapshot (s : State) : Snapshot where
  pc := s.pc
  flags := s.flags
  regs := s.regs
  last := s.last
  icount := s.icount
  halted := s.halted
  paused := s.paused
  fault := s.fault
  ram := s.ram
  stack := s.stack

/-- The request that reaches the Display for an event: the method `DISPLAY_MAP` gives, with the values forwarded
(45_io_system.md R113, log 8); none for a print event. -/
def displayRequest : Event → Option (DisplayMethod × List Word)
  | .display opc values => some (Config.displayMap opc, values)
  | .print _ => none

/-- How a run stands (60_exceptions.md R126, 70_reset_and_hazards.md R139). -/
inductive RunStatus where
  | success
  | error
  | running
deriving DecidableEq, Repr

/-- A run has ended in error when a fault is recorded, successfully when the core has halted without one, and has not
ended otherwise, paused or not (60_exceptions.md R126, 70_reset_and_hazards.md R139). -/
def runStatus (s : State) : RunStatus :=
  if s.fault.isSome then .error else if s.halted then .success else .running

end Sys2Proof.Machine
end

