-- ==== Sys2Proof/Safety.lean ====
section
/-! DEFINITION. The terms statements are made in: the invariant of the machine, when an operand can be read and
written and what it holds, and what an instruction may change. None of these is used by the machine. -/

namespace Sys2Proof.Machine

/-- The invariant of the machine: legal parameters (00_scope.md R5), one word per register (10_state.md R14), RAM in
canonical form with every listed address in bounds (20_memory.md R32), the stack within its capacity (R35), and no
state both halted and faulted (60_exceptions.md R126). -/
abbrev MachineInv (s : State) : Prop :=
  s.cfg.legal ∧ s.regs.length = s.cfg.registerCount ∧ Memory.wf s.ram = true ∧
    (∀ p ∈ s.ram, p.1 < s.cfg.ramSize) ∧ s.stack.length ≤ s.cfg.stackSize ∧ (s.halted = false ∨ s.fault = none)

/-- A step from `s` to `t` raised the fault `f`: it is recorded with `pc0`, and the instruction is not counted and
emits nothing (60_exceptions.md R123, R130). The other state after it is free. -/
abbrev Raised (s t : State) (f : Fault) : Prop :=
  t.fault = some ⟨f, s.pc0⟩ ∧ t.icount = s.icount ∧ t.last = s.last ∧ t.halted = s.halted ∧ t.paused = s.paused ∧
    t.events = s.events ∧ t.cfg = s.cfg ∧ t.rom = s.rom

/-- The id names a register (10_state.md R15). -/
abbrev validReg (s : State) (i : Int) : Prop := 0 ≤ i ∧ i < s.cfg.registerCount

/-- The address is in RAM (20_memory.md R33). -/
abbrev validAddr (s : State) (a : Int) : Prop := 0 ≤ a ∧ a < s.cfg.ramSize

/-- The word in register `i`. -/
def regValue (s : State) (i : Int) : Int := s.regs.getD i.toNat 0

/-- The operand can be read without a fault (20_memory.md R39). -/
def readable (s : State) : Operand → Bool
  | .register i => decide (validReg s i)
  | .immediate _ => true
  | .memoryAddress a => decide (validAddr s a)
  | .registerMemory i => decide (validReg s i ∧ validAddr s (regValue s i))

/-- The operand can be written without a fault (20_memory.md R40). -/
def writable (s : State) : Operand → Bool
  | .immediate _ => false
  | op => readable s op

/-- The value a readable operand has (20_memory.md R39). -/
def operandValue (s : State) : Operand → Int
  | .register i => regValue s i
  | .immediate k => k
  | .memoryAddress a => Memory.read s.ram a.toNat
  | .registerMemory i => Memory.read s.ram (regValue s i).toNat

/-- The fault that reading an operand that is not readable raises, and that writing one that is not writable raises
(20_memory.md R39, R40): a bad register id first, then a bad address; an Immediate only when written. -/
def operandFault (s : State) : Operand → Fault
  | .register i => .invalidRegister i
  | .immediate k => .invalidWriteTarget k
  | .memoryAddress a => .accessViolation a
  | .registerMemory i => if validReg s i then .accessViolation (regValue s i) else .invalidRegister i

/-- From `s` to `t` exactly the location that `dst` names in `s` has been written, with `v`: of the registers only a
Register destination's, of RAM only the word at the address `operandAddress s dst`. -/
def Wrote (s t : State) (dst : Operand) (v : Int) : Prop :=
  (∀ j : Nat, j < s.cfg.registerCount → t.regs[j]? = if dst = .register j then some v else s.regs[j]?) ∧
  t.regs.length = s.regs.length ∧
  (∀ a : Int, operandAddress s dst = .ok (some a) →
    Memory.read t.ram a.toNat = v ∧ ∀ b : Nat, b ≠ a.toNat → Memory.read t.ram b = Memory.read s.ram b) ∧
  (operandAddress s dst = .ok none → ∀ b : Nat, Memory.read t.ram b = Memory.read s.ram b)

/-- Everything but the registers, the flags and RAM is unchanged. -/
def SameBesides (s t : State) : Prop :=
  t = { s with regs := t.regs, flags := t.flags, ram := t.ram }

/-- `v` is the integer in `[MIN, MAX]` congruent to `raw` modulo `MOD_B` (10_state.md R19). -/
def CappedTo (c : Config) (raw v : Int) : Prop := c.min ≤ v ∧ v ≤ c.max ∧ c.modB ∣ raw - v

/-- The carry of capping (10_state.md R19). -/
def carryOf (c : Config) (raw : Int) : Bool := decide (raw < 0 ∨ c.modB ≤ raw)

/-- The overflow of capping (10_state.md R19). -/
def overflowOf (c : Config) (raw : Int) : Bool := decide (raw < c.min ∨ c.max < raw)

/-- What an arithmetic instruction with the raw result `raw` and destination `dst` leaves: the capped result written,
the four flags, nothing else (41_arithmetic.md R75). -/
def ArithEffect (s t : State) (dst : Operand) (raw : Int) : Prop :=
  ∃ v, CappedTo s.cfg raw v ∧ Wrote s t dst v ∧ SameBesides s t ∧
    t.flags = ⟨decide (v = 0), decide (v < 0), carryOf s.cfg raw, overflowOf s.cfg raw⟩

/-- What a logical instruction with the result `v` and destination `dst` leaves (42_bitwise.md R85). -/
def LogicEffect (s t : State) (dst : Operand) (v : Int) : Prop :=
  Wrote s t dst v ∧ SameBesides s t ∧ t.flags = ⟨decide (v = 0), false, false, false⟩

/-- The registers as CLR's first write leaves them, for the address of its second (20_memory.md R40). -/
def afterFirstClear (s : State) : Operand → State
  | .register i => s.withRegs (s.regs.set i.toNat 0)
  | _ => s

/-- The flags after a shift of register `i` that gave `r` (42_bitwise.md R92). -/
def shiftedFlags (s : State) (i : Int) (r : Int) : Flags :=
  match s.cfg.shiftFlagSource with
  | .registerId => ⟨decide (i = 0), false, s.flags.c, s.flags.o⟩
  | .result => ⟨decide (r = 0), decide (r < 0), s.flags.c, s.flags.o⟩

/-- The operand counts of the table of 30_encoding.md R64. -/
def allowedCounts : Opcode → List Nat
  | .nop | .ret | .hlt => [0]
  | .inc | .dec | .neg | .not | .rnd => [1]
  | .jmp | .jz | .jnz | .jn | .jnn | .jo | .jno | .jc | .jnc | .call | .push | .prt => [1]
  | .pop => [1]
  | .mov | .add | .sub | .mul | .div | .mod | .and | .or | .xor => [2]
  | .clr | .test | .cmp => [2]
  | .shl | .shr | .ldr | .str => [2]
  | .dsp | .cls | .bfr | .sb | .col => [0, 1, 2]

/-- The opcodes whose operand 0 must be a Register (30_encoding.md R64). -/
def registerOnly : Opcode → Bool
  | .pop | .ldr | .shl | .shr => true
  | _ => false

/-- The operand is a Register. -/
def isRegister : Operand → Bool
  | .register _ => true
  | _ => false

/-- The opcodes that write a flag (10_state.md R18). -/
def writesFlags : Opcode → Bool
  | .mov | .add | .sub | .mul | .div | .mod | .inc | .dec | .neg | .cmp => true
  | .and | .or | .xor | .not | .test | .shl | .shr => true
  | _ => false

/-- The opcodes that write the pc (43_compare_branch.md). -/
def writesPc : Opcode → Bool
  | .jmp | .jz | .jnz | .jn | .jnn | .jo | .jno | .jc | .jnc | .call | .ret => true
  | _ => false

/-- The opcodes that may write RAM: those with a destination of any form, and STR (30_encoding.md R64). -/
def writesRam : Opcode → Bool
  | .mov | .add | .sub | .mul | .div | .mod | .inc | .dec | .neg => true
  | .and | .or | .xor | .not | .clr | .str | .rnd => true
  | _ => false

/-- The operands an instruction writes (30_encoding.md R64, the destinations of its table). -/
def destinations (i : Instr) : List Operand :=
  match i.opcode with
  | .mov | .add | .sub | .mul | .div | .mod | .inc | .dec | .neg => i.operands.take 1
  | .and | .or | .xor | .not | .shl | .shr | .pop | .ldr | .rnd => i.operands.take 1
  | .clr => i.operands
  | _ => []

/-- The RAM address that an operand names, as a list of at most one. -/
def addressNamed (s : State) (op : Operand) : List Int :=
  match operandAddress s op with
  | .ok (some a) => [a]
  | _ => []

/-- The RAM addresses an instruction stores to: those its destinations name, CLR's second one after its first write, and
the value of STR's operand 0 (20_memory.md R40, 42_bitwise.md R90, 44_stack_memory.md R112). -/
def storedAddresses (i : Instr) (s : State) : List Int :=
  match i with
  | .str (dst :: _) => [operandValue s dst]
  | .clr [a, b] => addressNamed s a ++ addressNamed (afterFirstClear s a) b
  | _ => (destinations i).flatMap (addressNamed s)

/-- The opcodes that reach the stack (20_memory.md R29). -/
def usesStack : Opcode → Bool
  | .push | .pop | .call | .ret => true
  | _ => false

/-- The state after a step, none if the step did not answer a next state. -/
def nextState : Host.Outcome State Fault Refusal → Option State
  | .next t => some t
  | _ => none

end Sys2Proof.Machine
end

