-- ==== Sys2Proof/Certificates/Slice0/Obligations.lean ====
section
/-! DEFINITION. The statements about the model. `MachineInv`, the operand terms and the effect terms are those of Safety.lean. -/

open Sys2Proof Sys2Proof.Machine

/-! The codec. -/

/-- Words written out from 30_encoding.md R50 to R56, one or more of every family, decode to the instructions they stand
for (95_test_vectors.md TE1 to TE11, and the examples of the instruction rules). -/
def Obligations.WrittenOutWordsDecode : Prop :=
  decode referenceOpcodeIds [0x00] = .ok (.nop []) ∧
  decode referenceOpcodeIds [0x81, 0x04, 0x00, 0x0A, 0x00, 0x00, 0x00] = .ok (.mov [.register 0, .immediate 10]) ∧
  decode referenceOpcodeIds [0x82, 0x0B, 0x01, 0x34, 0x12] = .ok (.add [.registerMemory 1, .memoryAddress 0x1234]) ∧
  decode referenceOpcodeIds [0x8E, 0x00, 0x0F, 0x0E] = .ok (.clr [.register 15, .register 14]) ∧
  decode referenceOpcodeIds [0x53, 0x01, 0xFF, 0xFF, 0xFF, 0xFF] = .ok (.jmp [.immediate (-1)]) ∧
  decode referenceOpcodeIds [0x5E, 0x02, 0x64, 0x00] = .ok (.push [.memoryAddress 100]) ∧
  decode referenceOpcodeIds [0xA1, 0x05, 0xFF, 0xFF, 0x00, 0x00, 0x00, 0x00, 0x00, 0x80] =
    .ok (.str [.immediate 65535, .immediate (-2147483648)]) ∧
  decode referenceOpcodeIds [0xA2, 0x00, 0x00, 0x01] = .ok (.dsp [.register 0, .register 1]) ∧
  decode referenceOpcodeIds [0x29] = .ok (.hlt [])

/-- 30_encoding.md R60 (a): under every legal numbering, decoding the encoding of a well-formed instruction gives it
back, with every operand at every value the encoding admits. -/
def Obligations.DecodeOfEncodeIsIdentity : Prop :=
  ∀ (ids : List Nat) (i : Instr), OpcodeIds.legal ids → i.wf = true →
    ∃ w, encode ids i = .ok w ∧ decode ids w = .ok i

/-- 30_encoding.md R60 (b), under every numbering: whatever the decoder accepts is the encoding of the well-formed instruction it gives, and as
long as the length rule says. -/
def Obligations.EncodeOfDecodeIsIdentity : Prop :=
  ∀ (ids : List Nat) (b0 : Byte) (rest : List Byte) (i : Instr), decode ids (b0 :: rest) = .ok i →
    i.wf = true ∧ encode ids i = .ok (b0 :: rest) ∧ instrLength b0 (rest.headD 0) = some (rest.length + 1)

/-- 30_encoding.md R58: the encoder raises `EncodingError` for exactly the ill-formed instructions: for more than two
operands with their number, else with a payload value of one of the operands. -/
def Obligations.EncoderRefusesExactlyIllFormed : Prop :=
  ∀ (ids : List Nat) (i : Instr),
    (i.wf = true → ∃ w, encode ids i = .ok w) ∧
    (2 < i.operands.length → encode ids i = .error (.tooManyOperands i.operands.length)) ∧
    (i.operands.length ≤ 2 → i.wf = false → ∃ v, encode ids i = .error (.payloadRange v) ∧
      ∃ op ∈ i.operands, op.wf = false ∧
        (op = .register v ∨ op = .immediate v ∨ op = .memoryAddress v ∨ op = .registerMemory v))

/-- 30_encoding.md R65, R59: operand count 3 is a `DecodingError` whatever the opcode field; otherwise an opcode field
that no admitted opcode has, ids 42 to 63 under the reference assignment, is `InvalidOpcode` of that id. -/
def Obligations.IllegalFirstByteRefused : Prop :=
  ∀ (b0 : Byte) (rest : List Byte),
    (bits b0.toNat 7 6 = 3 → ∀ ids, decode ids (b0 :: rest) = .error .decodingError) ∧
    (bits b0.toNat 7 6 ≠ 3 → 42 ≤ bits b0.toNat 5 0 →
      decode referenceOpcodeIds (b0 :: rest) = .error (.invalidOpcode (bits b0.toNat 5 0)))

/-! The step cycle. -/

/-- 70_reset_and_hazards.md R137: when the bytes at the pc decode to an instruction, the step records it, advances the
pc past it, runs exec, and counts the instruction if it raised no fault. -/
def Obligations.StepRunsTheDecodedInstruction : Prop :=
  ∀ (s t : State) (i : Instr) (n : Nat), isIdle s = false → 0 ≤ s.pc → s.pc + n ≤ s.rom.length →
    decode s.cfg.opcodeIds ((s.rom.drop s.pc.toNat).take n) = .ok i →
    exec i { s with pc0 := s.pc, pc := s.pc + n, last := some i } = .next t →
    step s = .next (if t.fault = none then { t with icount := t.icount + 1 } else t)

/-- Every instruction answers a next state in every state: the model refuses none and stops on none, since a fault of
60_exceptions.md R123 is a next state (log 1). -/
def Obligations.EveryInstructionAnswersANextState : Prop :=
  ∀ (i : Instr) (s : State), ∃ t, exec i s = .next t

/-- 70_reset_and_hazards.md R137: a halted, paused or faulted core does nothing in a step. -/
def Obligations.IdleStepChangesNothing : Prop :=
  ∀ s : State, s.halted = true ∨ s.paused = true ∨ s.fault ≠ none → step s = .next s

/-- 30_encoding.md R61: a fetch at or past the end of the ROM halts, which is no fault, and counts nothing. -/
def Obligations.FetchPastTheEndHalts : Prop :=
  ∀ s : State, isIdle s = false → s.rom.length ≤ s.pc →
    step s = .next { s with halted := true, pc0 := s.pc } ∧
      stepResult s { s with halted := true, pc0 := s.pc } = .halted

/-- 30_encoding.md R61, R65: the faults of a fetch: a negative pc; operand count 3; the type byte past the end of the
ROM; a later byte past it. -/
def Obligations.FetchFaultsAreRecorded : Prop :=
  ∀ s : State, isIdle s = false →
    (s.pc < 0 → ∃ t, step s = .next t ∧ Raised { s with pc0 := s.pc } t (.accessViolation s.pc)) ∧
    (∀ b0, 0 ≤ s.pc → s.rom[s.pc.toNat]? = some b0 → bits b0.toNat 7 6 = 3 →
      ∃ t, step s = .next t ∧ Raised { s with pc0 := s.pc } t (.decodingError s.pc)) ∧
    (∀ b0, 0 ≤ s.pc → s.rom[s.pc.toNat]? = some b0 → bits b0.toNat 7 6 ∈ [1, 2] → s.pc + 1 = s.rom.length →
      ∃ t, step s = .next t ∧ Raised { s with pc0 := s.pc } t (.accessViolation (s.pc + 1))) ∧
    (∀ b0 b1 n, 0 ≤ s.pc → s.rom[s.pc.toNat]? = some b0 → s.rom[s.pc.toNat + 1]? = some b1 →
      instrLength b0 b1 = some n → (s.rom.length : Int) < s.pc + n →
      ∃ t, step s = .next t ∧ Raised { s with pc0 := s.pc } t (.accessViolation s.rom.length))

/-- 30_encoding.md R59, 60_exceptions.md R122: fetched bytes that the decoder refuses fault with its error, and the last
decoded instruction stays as it was. -/
def Obligations.DecodeFaultsAreRecorded : Prop :=
  ∀ (s : State) (bytes : List Byte) (e : CodecError), isIdle s = false → fetch s = .ok (some bytes) →
    decode s.cfg.opcodeIds bytes = .error e →
    ∃ t, step s = .next t ∧
      ((e = .decodingError ∧ Raised { s with pc0 := s.pc } t (.decodingError s.pc)) ∨
        ∃ id, e = .invalidOpcode id ∧ Raised { s with pc0 := s.pc } t (.invalidOpcode id))

/-- 60_exceptions.md R123, R125: a step that raises records the offset of its instruction, counts nothing, emits nothing,
neither halts nor pauses, and the core takes no further step; only `reset()` clears the record. -/
def Obligations.FaultIsRecordedAndFinal : Prop :=
  ∀ (s t : State) (r : FaultRecord), s.fault = none → step s = .next t → t.fault = some r →
    r.pc0 = s.pc ∧ t.icount = s.icount ∧ t.events = s.events ∧ t.halted = false ∧ t.paused = false ∧
      step t = .next t ∧ (hostReset t).fault = none

/-- 10_state.md R26: the counter goes up by one for each instruction that completes, and stays for an idle step, a
fetch that halts and a fault. -/
def Obligations.CounterCountsCompletedInstructions : Prop :=
  ∀ s t : State, step s = .next t →
    (isIdle s = true ∨ (s.rom.length : Int) ≤ s.pc → t.icount = s.icount) ∧
    (isIdle s = false → s.pc < s.rom.length →
      (t.fault = none → t.icount = s.icount + 1) ∧ (t.fault ≠ none → t.icount = s.icount))

/-- 70_reset_and_hazards.md R137, 60_exceptions.md R126: what a step returns to the host. An idle core returns Idle; a fetch
at or past the end of the ROM returns Halted and the run has ended successfully; an instruction that completes returns
Executed; a step that raises returns its fault and the run has ended in error. -/
def Obligations.StepReturnsWhatItDid : Prop :=
  ∀ s t : State, step s = .next t →
    (isIdle s = true → stepResult s t = .idle) ∧
    (isIdle s = false → (s.rom.length : Int) ≤ s.pc → stepResult s t = .halted ∧ runStatus t = .success) ∧
    (isIdle s = false → s.pc < s.rom.length → t.fault = none → stepResult s t = .executed) ∧
    (∀ r, isIdle s = false → t.fault = some r → stepResult s t = .fault r.fault ∧ runStatus t = .error)

/-- 10_state.md R23: halted becomes true only by a fetch at or past the end of the ROM or by HLT, and no step clears
it. -/
def Obligations.HaltedOnlyByHltOrEndOfRom : Prop :=
  ∀ s t : State, step s = .next t →
    (s.halted = true → t.halted = true) ∧
    (s.halted = false → t.halted = true → (s.rom.length : Int) ≤ s.pc ∨ t.last = some (.hlt []))

/-- 20_memory.md R30, R48 and 00_scope.md R5: no step changes the ROM or the parameters; 10_state.md R24: no step writes
`paused`. -/
def Obligations.StepKeepsRomParametersAndPaused : Prop :=
  ∀ s t : State, step s = .next t → t.rom = s.rom ∧ t.cfg = s.cfg ∧ t.paused = s.paused

/-- 60_exceptions.md R130: a step emits at most one event, after those before it; it is a display event only with a
Display and a print event only with printing enabled; a step that faults emits none. -/
def Obligations.AtMostOneEventPerStep : Prop :=
  ∀ s t : State, step s = .next t →
    t.events = s.events ∨
    (t.fault = none ∧ ∃ e, t.events = s.events ++ [e] ∧
      ((∃ d vs, e = .display d vs ∧ s.cfg.displayPresent = true) ∨ ∃ v, e = .print v ∧ s.cfg.printing = true))

/-- The invariant `MachineInv` is kept by every step, from every state that meets it. -/
def Obligations.EveryStepKeepsTheInvariant : Prop :=
  ∀ s t : State, MachineInv s → step s = .next t → MachineInv t

/-- The state after reset, and every constructed machine with legal parameters, meets the invariant. -/
def Obligations.ResetAndConstructionMeetTheInvariant : Prop :=
  MachineInv State.reset ∧ ∀ (cfg : Config) (rom : List Byte), cfg.legal → MachineInv (construct cfg rom)

/-! The host's control surface. -/

/-- 70_reset_and_hazards.md R141. -/
def Obligations.ResetClearsTheMachine : Prop :=
  ∀ s : State,
    (hostReset s).pc = 0 ∧ (∀ i, validReg s i → (hostReset s).regs[i.toNat]? = some 0) ∧
    (∀ a, Memory.read (hostReset s).ram a = 0) ∧ (hostReset s).stack = [] ∧
    (hostReset s).flags = ⟨false, false, false, false⟩ ∧ (hostReset s).icount = 0 ∧ (hostReset s).halted = false ∧
    (hostReset s).paused = true ∧ (hostReset s).fault = none ∧ (hostReset s).last = none ∧
    (hostReset s).rom = s.rom ∧ (hostReset s).cfg = s.cfg ∧ step (hostReset s) = .next (hostReset s) ∧
    isIdle (resume (hostReset s)) = false

/-- 70_reset_and_hazards.md R140. -/
def Obligations.PauseAndResumeTouchOnlyPaused : Prop :=
  ∀ s : State,
    pause s = { s with paused := true } ∧ resume s = { s with paused := false } ∧
    pause (pause s) = pause s ∧ resume (resume s) = resume s ∧ step (pause s) = .next (pause s) ∧
    (s.halted = true ∨ s.fault ≠ none → step (resume s) = .next (resume s))

/-- 70_reset_and_hazards.md R142: the constructed machine is what `reset()` leaves but for `paused`, and its first step
runs the instruction at offset 0. -/
def Obligations.ConstructionIsResumedReset : Prop :=
  ∀ (s : State) (cfg : Config) (rom : List Byte), s.cfg = cfg → s.rom = rom →
    construct cfg rom = { hostReset s with paused := false, draws := 0, events := [] } ∧
    isIdle (construct cfg rom) = false ∧ (construct cfg rom).pc = 0 ∧ resume State.reset = construct Config.default []

/-! Capping, flags and operand access. -/

/-- 10_state.md R19: the capped value is the one integer in `[MIN, MAX]` congruent to the raw value modulo `MOD_B`; carry
and overflow are two distinct conditions on the raw value. -/
def Obligations.CappingWrapsAndSetsCarryOverflow : Prop :=
  ∀ (c : Config) (raw v : Int), 1 ≤ c.bits →
    CappedTo c raw (cap c raw).value ∧ (CappedTo c raw v → v = (cap c raw).value) ∧
    ((cap c raw).carry = true ↔ raw ≥ c.modB ∨ raw < 0) ∧ ((cap c raw).overflow = true ↔ raw > c.max ∨ raw < c.min)

/-- 10_state.md R15: a register id of the machine reads and stores one word, and no other register is touched; an id that
is none, a negative one included (log 10), raises `InvalidRegister` on a read and on a write. -/
def Obligations.RegisterAccessChecksTheId : Prop :=
  ∀ (s : State) (i v : Int),
    (validReg s i → readReg s i = .ok (regValue s i) ∧
      (s.regs.length = s.cfg.registerCount → ∃ t, writeReg s i v = .ok t ∧ readReg t i = .ok v ∧
        (∀ j, j ≠ i → readReg t j = readReg s j) ∧ t = { s with regs := t.regs })) ∧
    (¬ validReg s i → readReg s i = .error (.invalidRegister i) ∧ writeReg s i v = .error (.invalidRegister i))

/-- 20_memory.md R33, R34: an address of RAM reads and stores one word exactly as given, and no other word is touched; any
other address raises `AccessViolation` on a read and on a write. -/
def Obligations.RamAccessChecksTheAddress : Prop :=
  ∀ (s : State) (a v : Int),
    (validAddr s a → memRead s a = .ok (Memory.read s.ram a.toNat) ∧
      (Memory.wf s.ram = true → ∃ t, memWrite s a v = .ok t ∧ memRead t a = .ok v ∧
        (∀ b, b ≠ a → memRead t b = memRead s b) ∧ t = { s with ram := t.ram })) ∧
    (¬ validAddr s a → memRead s a = .error (.accessViolation a) ∧ memWrite s a v = .error (.accessViolation a))

/-- 20_memory.md R36, R37: a push on a stack with room adds one entry on top, on a full one raises `StackOverflow` with the
depth; a pop takes the top, on an empty stack raises `StackUnderflow`; neither touches anything else. -/
def Obligations.PushAndPopPrimitives : Prop :=
  ∀ (s : State) (v : Int),
    (s.stack.length = s.cfg.stackSize → push s v = .error (.stackOverflow s.stack.length)) ∧
    (s.stack.length ≠ s.cfg.stackSize → push s v = .ok { s with stack := s.stack ++ [v] }) ∧
    (s.stack = [] → pop s = .error (.stackUnderflow 0)) ∧
    (∀ below w, s.stack = below ++ [w] → pop s = .ok (w, { s with stack := below }))

/-- 20_memory.md R39: reading an operand dereferences it per its form, or raises the fault of the first check that
fails; that a negative register id fails it is the model's reading (log 10). -/
def Obligations.ReadOperandDereferences : Prop :=
  ∀ (s : State) (op : Operand),
    (readable s op = true → readOperand s op = .ok (operandValue s op)) ∧
    (readable s op = false → readOperand s op = .error (operandFault s op))

/-- 20_memory.md R40: writing an operand writes exactly the location it names, or raises the fault of the first check
that fails; an Immediate is no write target, and a negative register id is a bad one (log 10). -/
def Obligations.WriteOperandWritesOneLocation : Prop :=
  ∀ (s : State) (op : Operand) (v : Int), MachineInv s →
    (writable s op = true →
      ∃ t, writeOperand s op v = .ok t ∧ Wrote s t op v ∧ t = { s with regs := t.regs, ram := t.ram }) ∧
    (writable s op = false → writeOperand s op v = .error (operandFault s op))

/-! Dispatch. -/

/-- 30_encoding.md R66, R64: a count that the opcode does not take raises `OperandCountMismatch`; with a count it takes, a
non-Register operand 0 of POP, LDR, SHL or SHR raises `OperandFormRefused`; and dispatch raises neither otherwise. -/
def Obligations.DispatchChecksCountThenForm : Prop :=
  ∀ (i : Instr) (s : State),
    (i.operands.length ∉ allowedCounts i.opcode → ∃ t, exec i s = .next t ∧
      Raised s t (.operandCountMismatch i.opcode i.operands.length)) ∧
    (∀ op ops, i.operands = op :: ops → i.operands.length ∈ allowedCounts i.opcode → registerOnly i.opcode = true →
      isRegister op = false → ∃ t, exec i s = .next t ∧ Raised s t (.operandFormRefused i.opcode 0)) ∧
    (i.operands.length ∈ allowedCounts i.opcode →
      (∀ op ops, i.operands = op :: ops → registerOnly i.opcode = true → isRegister op = true) →
      s.fault = none → ∀ t, exec i s = .next t → ∀ pc0 o n,
        t.fault ≠ some ⟨.operandCountMismatch o n, pc0⟩ ∧ t.fault ≠ some ⟨.operandFormRefused o n, pc0⟩)

/-- 20_memory.md R40, 60_exceptions.md R124: a destination that cannot be written raises the fault of its write, after the
reads and the operation's own check. MOV, RND and CLR do not read a destination, so theirs may be an Immediate, a bad
register or a bad RAM address, and CLR's second one is checked in the state after the first write (42_bitwise.md R90).
Those that read it first get to the write check with an Immediate only. POP and LDR get there with a bad register id
(44_stack_memory.md R110, R111). That a negative register id is a bad one is the model's reading (log 10). -/
def Obligations.UnwritableDestinationFaults : Prop :=
  ∀ (s : State) (dst src : Operand) (k r : Int),
    (writable s dst = false → ∀ i ∈ [Instr.rnd [dst], .clr [dst, src]],
      ∃ t, exec i s = .next t ∧ Raised s t (operandFault s dst)) ∧
    (writable s dst = true → writable (afterFirstClear s dst) src = false →
      ∃ t, exec (.clr [dst, src]) s = .next t ∧ Raised s t (operandFault (afterFirstClear s dst) src)) ∧
    (writable s dst = false → readable s src = true →
      ∃ t, exec (.mov [dst, src]) s = .next t ∧ Raised s t (operandFault s dst)) ∧
    (∀ i ∈ [Instr.inc [.immediate k], .dec [.immediate k], .neg [.immediate k], .not [.immediate k]],
      ∃ t, exec i s = .next t ∧ Raised s t (.invalidWriteTarget k)) ∧
    (readable s src = true →
      ∀ i ∈ [Instr.add [.immediate k, src], .sub [.immediate k, src], .mul [.immediate k, src],
        .and [.immediate k, src], .or [.immediate k, src], .xor [.immediate k, src]],
        ∃ t, exec i s = .next t ∧ Raised s t (.invalidWriteTarget k)) ∧
    (readable s src = true → operandValue s src ≠ 0 →
      ∀ i ∈ [Instr.div [.immediate k, src], .mod [.immediate k, src]],
        ∃ t, exec i s = .next t ∧ Raised s t (.invalidWriteTarget k)) ∧
    (¬ validReg s r → s.stack ≠ [] →
      ∃ t, exec (.pop [.register r]) s = .next t ∧ Raised s t (.invalidRegister r)) ∧
    (¬ validReg s r → readable s src = true → validAddr s (operandValue s src) →
      ∃ t, exec (.ldr [.register r, src]) s = .next t ∧ Raised s t (.invalidRegister r))

/-! What each instruction does: completion, result and frame together. -/

/-- 40_move.md R73 and 45_io_system.md R121: NOP changes nothing; HLT sets `halted` and nothing else. -/
def Obligations.NopAndHltComplete : Prop :=
  ∀ s : State, exec (.nop []) s = .next s ∧ exec (.hlt []) s = .next { s with halted := true }

/-- 40_move.md R74: MOV writes the capped source, C and O from capping, and keeps Z and N and everything else. -/
def Obligations.MovWritesCappedSource : Prop :=
  ∀ (s : State) (dst src : Operand), MachineInv s → writable s dst = true → readable s src = true →
    ∃ (t : State) (v : Int), exec (.mov [dst, src]) s = .next t ∧ CappedTo s.cfg (operandValue s src) v ∧ Wrote s t dst v ∧
      SameBesides s t ∧
      t.flags = ⟨s.flags.z, s.flags.n, carryOf s.cfg (operandValue s src), overflowOf s.cfg (operandValue s src)⟩

/-- 41_arithmetic.md R77 to R79: ADD, SUB and MUL write the capped exact result and the four flags, and nothing else. -/
def Obligations.AddSubMulWriteCappedResult : Prop :=
  ∀ (s : State) (dst src : Operand), MachineInv s → writable s dst = true → readable s src = true →
    (∃ t, exec (.add [dst, src]) s = .next t ∧ ArithEffect s t dst (operandValue s dst + operandValue s src)) ∧
    (∃ t, exec (.sub [dst, src]) s = .next t ∧ ArithEffect s t dst (operandValue s dst - operandValue s src)) ∧
    (∃ t, exec (.mul [dst, src]) s = .next t ∧ ArithEffect s t dst (operandValue s dst * operandValue s src))

/-- 41_arithmetic.md R76, R80, R81: for a divisor that is not 0, DIV writes the capped floor quotient and MOD the capped
remainder that pairs with it, 0 or of the divisor's sign. -/
def Obligations.DivModWriteFloorQuotientRemainder : Prop :=
  ∀ (s : State) (dst src : Operand), MachineInv s → writable s dst = true → readable s src = true →
    operandValue s src ≠ 0 →
    ∃ q r : Int, operandValue s dst = operandValue s src * q + r ∧
      (0 ≤ r ∧ r < operandValue s src ∨ operandValue s src < r ∧ r ≤ 0) ∧
      (∃ t, exec (.div [dst, src]) s = .next t ∧ ArithEffect s t dst q) ∧
      (∃ t, exec (.mod [dst, src]) s = .next t ∧ ArithEffect s t dst r)

/-- 41_arithmetic.md R80, R81 and 60_exceptions.md R124: a divisor of 0 raises `DivisionByZero` after both reads and
before the write check, so also with an Immediate destination. -/
def Obligations.DivisionByZeroFaults : Prop :=
  ∀ (s : State) (dst src : Operand), readable s dst = true → readable s src = true → operandValue s src = 0 →
    (∃ t, exec (.div [dst, src]) s = .next t ∧ Raised s t .divisionByZero) ∧
    (∃ t, exec (.mod [dst, src]) s = .next t ∧ Raised s t .divisionByZero)

/-- 41_arithmetic.md R82 to R84: INC, DEC and NEG. -/
def Obligations.IncDecNegWriteCappedResult : Prop :=
  ∀ (s : State) (dst : Operand), MachineInv s → writable s dst = true →
    (∃ t, exec (.inc [dst]) s = .next t ∧ ArithEffect s t dst (operandValue s dst + 1)) ∧
    (∃ t, exec (.dec [dst]) s = .next t ∧ ArithEffect s t dst (operandValue s dst - 1)) ∧
    (∃ t, exec (.neg [dst]) s = .next t ∧ ArithEffect s t dst (-operandValue s dst))

/-- 42_bitwise.md R86 to R89: AND, OR, XOR and NOT act on every bit of the infinite two's-complement representation
(00_scope.md R7), uncapped; Z from the result, N, C and O forced false; nothing else changes. -/
def Obligations.LogicalOperationsActBitwise : Prop :=
  ∀ (s : State) (dst src : Operand), MachineInv s → writable s dst = true → readable s src = true →
    (∃ (t : State) (v : Int), exec (.and [dst, src]) s = .next t ∧ LogicEffect s t dst v ∧
      ∀ k, v.testBit k = ((operandValue s dst).testBit k && (operandValue s src).testBit k)) ∧
    (∃ (t : State) (v : Int), exec (.or [dst, src]) s = .next t ∧ LogicEffect s t dst v ∧
      ∀ k, v.testBit k = ((operandValue s dst).testBit k || (operandValue s src).testBit k)) ∧
    (∃ (t : State) (v : Int), exec (.xor [dst, src]) s = .next t ∧ LogicEffect s t dst v ∧
      ∀ k, v.testBit k = Bool.xor ((operandValue s dst).testBit k) ((operandValue s src).testBit k)) ∧
    (∃ (t : State) (v : Int), exec (.not [dst]) s = .next t ∧ LogicEffect s t dst v ∧
      ∀ k, v.testBit k = !((operandValue s dst).testBit k))

/-- 42_bitwise.md R91 and 43_compare_branch.md R95: TEST and CMP write flags and nothing else. -/
def Obligations.TestAndCmpWriteOnlyFlags : Prop :=
  ∀ (s : State) (a b : Operand), MachineInv s → readable s a = true → readable s b = true →
    (∃ v : Int, exec (.test [a, b]) s = .next { s with flags := ⟨decide (v = 0), false, false, false⟩ } ∧
      ∀ k, v.testBit k = ((operandValue s a).testBit k && (operandValue s b).testBit k)) ∧
    (∃ v : Int, CappedTo s.cfg (operandValue s a - operandValue s b) v ∧
      exec (.cmp [a, b]) s = .next { s with flags := ⟨decide (v = 0), decide (v < 0),
        carryOf s.cfg (operandValue s a - operandValue s b),
        overflowOf s.cfg (operandValue s a - operandValue s b)⟩ })

/-- 42_bitwise.md R90: CLR writes 0 to operand 0 and then to operand 1, whose address is the one after the first write;
no flag and nothing else changes. -/
def Obligations.ClrClearsBothOperands : Prop :=
  ∀ (s : State) (a b : Operand), MachineInv s → writable s a = true → writable (afterFirstClear s a) b = true →
    ∃ t, exec (.clr [a, b]) s = .next t ∧ t = { s with regs := t.regs, ram := t.ram } ∧
      t.regs.length = s.regs.length ∧
      (∀ j : Nat, j < s.cfg.registerCount →
        t.regs[j]? = if a = .register j ∨ b = .register j then some 0 else s.regs[j]?) ∧
      (∀ k : Nat, Memory.read t.ram k =
        if operandAddress s a = .ok (some (k : Int)) ∨ operandAddress (afterFirstClear s a) b = .ok (some (k : Int))
        then 0 else Memory.read s.ram k)

/-- 42_bitwise.md R93, R92: SHL writes the register with the exact product by 2^k, and Z and N as `SHIFT_FLAG_SOURCE`
says; nothing else changes. -/
def Obligations.ShlMultipliesByPowerOfTwo : Prop :=
  ∀ (s : State) (i : Int) (amount : Operand), validReg s i → readable s amount = true →
    0 ≤ operandValue s amount →
    exec (.shl [.register i, amount]) s = .next { s with
      regs := s.regs.set i.toNat (regValue s i * (2 : Int) ^ (operandValue s amount).toNat),
      flags := shiftedFlags s i (regValue s i * (2 : Int) ^ (operandValue s amount).toNat) }

/-- 42_bitwise.md R94, R92: SHR writes the register with the quotient by 2^k rounded toward negative infinity, and Z and
N as `SHIFT_FLAG_SOURCE` says; nothing else changes. -/
def Obligations.ShrDividesByPowerOfTwoFloor : Prop :=
  ∀ (s : State) (i : Int) (amount : Operand), validReg s i → readable s amount = true →
    0 ≤ operandValue s amount →
    ∃ q : Int, q * (2 : Int) ^ (operandValue s amount).toNat ≤ regValue s i ∧
      regValue s i < (q + 1) * (2 : Int) ^ (operandValue s amount).toNat ∧
      exec (.shr [.register i, amount]) s =
        .next { s with regs := s.regs.set i.toNat q, flags := shiftedFlags s i q }

/-- 42_bitwise.md R93, R94: a negative shift amount raises `NegativeShiftAmount` with the amount. -/
def Obligations.NegativeShiftAmountFaults : Prop :=
  ∀ (s : State) (i : Int) (amount : Operand), validReg s i → readable s amount = true →
    operandValue s amount < 0 →
    (∃ t, exec (.shl [.register i, amount]) s = .next t ∧
      Raised s t (.negativeShiftAmount (operandValue s amount))) ∧
    (∃ t, exec (.shr [.register i, amount]) s = .next t ∧
      Raised s t (.negativeShiftAmount (operandValue s amount)))

/-- 43_compare_branch.md R97 to R105: JMP writes the pc with the target's value; each conditional jump does so when its
flag says, and otherwise leaves the pc as the fetch advanced it; nothing else changes. -/
def Obligations.JumpsWritePcOnTheirCondition : Prop :=
  ∀ (s : State) (x : Operand), readable s x = true →
    exec (.jmp [x]) s = .next { s with pc := operandValue s x } ∧
    exec (.jz [x]) s = .next { s with pc := if s.flags.z = true then operandValue s x else s.pc } ∧
    exec (.jnz [x]) s = .next { s with pc := if s.flags.z = false then operandValue s x else s.pc } ∧
    exec (.jn [x]) s = .next { s with pc := if s.flags.n = true then operandValue s x else s.pc } ∧
    exec (.jnn [x]) s = .next { s with pc := if s.flags.n = false then operandValue s x else s.pc } ∧
    exec (.jo [x]) s = .next { s with pc := if s.flags.o = true then operandValue s x else s.pc } ∧
    exec (.jno [x]) s = .next { s with pc := if s.flags.o = false then operandValue s x else s.pc } ∧
    exec (.jc [x]) s = .next { s with pc := if s.flags.c = true then operandValue s x else s.pc } ∧
    exec (.jnc [x]) s = .next { s with pc := if s.flags.c = false then operandValue s x else s.pc }

/-- 60_exceptions.md R124 (4), 20_memory.md R39, 43_compare_branch.md R96, R106: an operand that an instruction reads and
that cannot be read raises the fault of its read, operand 0 first, before the operation's own check and every write. A
jump reads its target whether or not it is taken, CALL before it pushes, PUSH before it looks for room. MOV and LDR read
operand 1 only. That a negative register id is a bad one is the model's reading (log 10). -/
def Obligations.UnreadableOperandFaultsAtItsRead : Prop :=
  ∀ (s : State) (x y : Operand) (r : Int),
    (readable s x = false →
      (∀ i ∈ [Instr.jmp [x], .jz [x], .jnz [x], .jn [x], .jnn [x], .jo [x], .jno [x], .jc [x], .jnc [x], .call [x]],
        ∃ t, exec i s = .next t ∧ Raised s t (operandFault s x)) ∧
      (∀ i ∈ [Instr.inc [x], .dec [x], .neg [x], .not [x], .push [x], .mov [y, x], .ldr [.register r, x]],
        ∃ t, exec i s = .next t ∧ Raised s t (operandFault s x)) ∧
      (∀ i ∈ [Instr.add [x, y], .sub [x, y], .mul [x, y], .div [x, y], .mod [x, y], .and [x, y], .or [x, y],
        .xor [x, y], .test [x, y], .cmp [x, y], .str [x, y]],
        ∃ t, exec i s = .next t ∧ Raised s t (operandFault s x))) ∧
    (readable s x = true → readable s y = false →
      ∀ i ∈ [Instr.add [x, y], .sub [x, y], .mul [x, y], .div [x, y], .mod [x, y], .and [x, y], .or [x, y],
        .xor [x, y], .test [x, y], .cmp [x, y], .str [x, y]],
        ∃ t, exec i s = .next t ∧ Raised s t (operandFault s y)) ∧
    (∀ i ∈ [Instr.shl [.register r, y], .shr [.register r, y]],
      (¬ validReg s r → ∃ t, exec i s = .next t ∧ Raised s t (.invalidRegister r)) ∧
      (validReg s r → readable s y = false → ∃ t, exec i s = .next t ∧ Raised s t (operandFault s y)))

/-- 43_compare_branch.md R106: CALL pushes the pc, already past the CALL, and writes the target. -/
def Obligations.CallPushesReturnOffset : Prop :=
  ∀ (s : State) (x : Operand), readable s x = true → s.stack.length < s.cfg.stackSize →
    exec (.call [x]) s = .next { s with stack := s.stack ++ [s.pc], pc := operandValue s x }

/-- 43_compare_branch.md R107: RET pops the pc, whatever word is on top. -/
def Obligations.RetPopsThePc : Prop :=
  ∀ (s : State) (below : List Int) (v : Int), s.stack = below ++ [v] →
    exec (.ret []) s = .next { s with stack := below, pc := v }

/-- 43_compare_branch.md R106, R107: a RET in any state whose stack is as a CALL left it returns to the instruction
after the CALL and leaves the stack as it was before the CALL. -/
def Obligations.RetReturnsBehindTheCall : Prop :=
  ∀ (s t u : State) (x : Operand), s.fault = none → exec (.call [x]) s = .next t → t.fault = none →
    u.stack = t.stack → ∃ w, exec (.ret []) u = .next w ∧ w.pc = s.pc ∧ w.stack = s.stack

/-- 44_stack_memory.md R109, R110: PUSH pushes the operand's value uncapped; POP moves the top of the stack to the
register uncapped; nothing else changes. -/
def Obligations.PushAndPopMoveOneWord : Prop :=
  ∀ s : State,
    (∀ src, readable s src = true → s.stack.length < s.cfg.stackSize →
      exec (.push [src]) s = .next { s with stack := s.stack ++ [operandValue s src] }) ∧
    (∀ (i : Int) (below : List Int) (v : Int), validReg s i → s.stack = below ++ [v] →
      exec (.pop [.register i]) s = .next { s with stack := below, regs := s.regs.set i.toNat v })

/-- 20_memory.md R36, R37: PUSH and CALL on a full stack raise `StackOverflow` with the depth; POP and RET on an empty one
raise `StackUnderflow`. -/
def Obligations.StackLimitsFault : Prop :=
  ∀ s : State,
    (s.stack.length = s.cfg.stackSize → ∀ x, readable s x = true → ∀ i ∈ [Instr.push [x], .call [x]],
      ∃ t, exec i s = .next t ∧ Raised s t (.stackOverflow s.stack.length)) ∧
    (s.stack = [] → ∀ r, ∀ i ∈ [Instr.pop [.register r], .ret []],
      ∃ t, exec i s = .next t ∧ Raised s t (.stackUnderflow 0))

/-- 44_stack_memory.md R111: LDR writes the register with the RAM word at the address that operand 1's value is; nothing
else changes. -/
def Obligations.LdrLoadsTheAddressedWord : Prop :=
  ∀ (s : State) (i : Int) (src : Operand), validReg s i → readable s src = true →
    validAddr s (operandValue s src) →
    exec (.ldr [.register i, src]) s = .next { s with
      regs := s.regs.set i.toNat (Memory.read s.ram (operandValue s src).toNat) }

/-- 44_stack_memory.md R112: STR stores operand 1's value at the RAM address that operand 0's value is; every other word
of RAM and everything else is unchanged. -/
def Obligations.StrStoresAtTheAddressedWord : Prop :=
  ∀ (s : State) (dst src : Operand), MachineInv s → readable s dst = true → readable s src = true →
    validAddr s (operandValue s dst) →
    ∃ t, exec (.str [dst, src]) s = .next t ∧ t = { s with ram := t.ram } ∧
      Memory.read t.ram (operandValue s dst).toNat = operandValue s src ∧
      ∀ b : Nat, b ≠ (operandValue s dst).toNat → Memory.read t.ram b = Memory.read s.ram b

/-- 44_stack_memory.md R111, R112: LDR and STR raise `AccessViolation` with the address when it is not in RAM. -/
def Obligations.LoadStoreOutOfRamFaults : Prop :=
  ∀ (s : State) (i : Int) (x y : Operand), readable s x = true → readable s y = true →
    ¬ validAddr s (operandValue s x) →
    (∃ t, exec (.ldr [.register i, x]) s = .next t ∧ Raised s t (.accessViolation (operandValue s x))) ∧
    (∃ t, exec (.str [x, y]) s = .next t ∧ Raised s t (.accessViolation (operandValue s x)))

/-- 45_io_system.md R113 to R118: with no Display the five display opcodes change nothing and read nothing; with one they
emit one event with the values of their operands in order, and change nothing else; with one and an operand that cannot
be read, a negative register id included (log 10), they raise the fault of the first such operand's read. -/
def Obligations.DisplayOpcodesForwardTheirValues : Prop :=
  ∀ (s : State) (ops : List Operand), ops.length ≤ 2 →
    ∀ p ∈ [(Instr.dsp ops, DisplayOpcode.dsp), (.cls ops, .cls), (.bfr ops, .bfr), (.sb ops, .sb), (.col ops, .col)],
      (s.cfg.displayPresent = false → exec p.1 s = .next s) ∧
      (s.cfg.displayPresent = true → (∀ op ∈ ops, readable s op = true) →
        exec p.1 s = .next { s with events := s.events ++ [.display p.2 (ops.map (operandValue s))] }) ∧
      (s.cfg.displayPresent = true → ∀ before op after, ops = before ++ op :: after →
        (∀ x ∈ before, readable s x = true) → readable s op = false →
        ∃ t, exec p.1 s = .next t ∧ Raised s t (operandFault s op))

/-- 45_io_system.md R119: PRT emits its operand's value when printing is enabled, changes nothing otherwise, and reads its
operand in both cases; a negative register id is one that cannot be read (log 10). -/
def Obligations.PrtEmitsWhenPrinting : Prop :=
  ∀ (s : State) (x : Operand),
    (readable s x = true → s.cfg.printing = true →
      exec (.prt [x]) s = .next { s with events := s.events ++ [.print (operandValue s x)] }) ∧
    (readable s x = true → s.cfg.printing = false → exec (.prt [x]) s = .next s) ∧
    (readable s x = false → ∃ t, exec (.prt [x]) s = .next t ∧ Raised s t (operandFault s x))

/-- 45_io_system.md R120: RND writes the value drawn, one of [0, 2^31 - 1], uncapped, and no flag. The draw is the free
value `Config.rndDraw` at `draws`, the model's own count of free values, which goes up by one (logs 4 and 5); nothing else
changes. -/
def Obligations.RndWritesADrawnValue : Prop :=
  ∀ (s : State) (dst : Operand), MachineInv s → writable s dst = true →
    ∃ (t : State) (v : Int), exec (.rnd [dst]) s = .next t ∧ v = (drawRandom s).1 ∧
      v = ((Config.rndDraw s.draws).toNat : Int) ∧ 0 ≤ v ∧ v ≤ 2147483647 ∧ Wrote s t dst v ∧
      t = { s with regs := t.regs, ram := t.ram, draws := s.draws + 1 }

/-! What no instruction does. -/

/-- 10_state.md R18: an instruction whose row names no flag leaves the flags unchanged when it raises no fault; MOV
leaves Z and N, and the shifts leave C and O. -/
def Obligations.FlagsChangeOnlyWhereTheRowSays : Prop :=
  ∀ (i : Instr) (s t : State), exec i s = .next t → t.fault = none →
    (writesFlags i.opcode = false → t.flags = s.flags) ∧
    (i.opcode = .mov → t.flags.z = s.flags.z ∧ t.flags.n = s.flags.n) ∧
    (i.opcode = .shl ∨ i.opcode = .shr → t.flags.c = s.flags.c ∧ t.flags.o = s.flags.o)

/-- 10_state.md R16, 20_memory.md R29: only the jumps, CALL and RET write the pc, and only PUSH, POP, CALL and RET reach
the stack. -/
def Obligations.PcAndStackChangeOnlyByTheirInstructions : Prop :=
  ∀ (i : Instr) (s t : State), exec i s = .next t → t.fault = none →
    (writesPc i.opcode = false → t.pc = s.pc) ∧ (usesStack i.opcode = false → t.stack = s.stack)

/-- 10_state.md R14, 20_memory.md R40, R41: an instruction that raises no fault changes only registers that a destination
of it names in a Register operand (no base register is modified as a side effect), and RAM only at the addresses it
stores to: those its destinations name, CLR's second one after its first write, and the value of STR's operand 0. -/
def Obligations.RegistersAndRamChangeOnlyWhereNamed : Prop :=
  ∀ (i : Instr) (s t : State), exec i s = .next t → t.fault = none →
    (∀ j : Nat, Operand.register j ∉ destinations i → t.regs[j]? = s.regs[j]?) ∧
    (∀ b : Nat, (b : Int) ∉ storedAddresses i s → Memory.read t.ram b = Memory.read s.ram b) ∧
    (writesRam i.opcode = false → t.ram = s.ram)

/-! The assembler. -/

/-- 30_encoding.md R67, R70: the source's own label example. -/
def Obligations.AssemblerResolvesTheSourceExample : Prop :=
  assemble Config.default "loop: INC r0 \n JMP loop".toList =
    .ok [0x47, 0x00, 0x00, 0x53, 0x01, 0x00, 0x00, 0x00, 0x00]

/-- 30_encoding.md R69: the sizes that pass 1 counts are the sizes of the bytes that pass 2 emits, so the image of every
source that assembles is as long as pass 1 says. -/
def Obligations.PassOneSizesMatchTheImage : Prop :=
  ∀ (cfg : Config) (source : List Char) (rom : List Byte), assemble cfg source = .ok rom →
    rom.length = ((parseLines 1 (splitChars (fun c => c == '\n') source)).map fun l => bodySize l.body).sum
end

