-- ==== Sys2Proof/Laws/Memory.lean ====
section
/-! SUPPORT. The laws of the RAM list: read after write, and that every operation keeps the canonical form and the
bound on its addresses. -/

namespace Sys2Proof.Machine

theorem Memory.wfFrom_mono {lo lo' : Nat} {m : Memory} (h : lo' ≤ lo) (hm : Memory.wfFrom lo m = true) :
    Memory.wfFrom lo' m = true := by
  cases m with
  | nil => rfl
  | cons p m =>
    obtain ⟨a, v⟩ := p
    simp only [Memory.wfFrom, Bool.and_eq_true, decide_eq_true_eq] at hm ⊢
    exact ⟨⟨by omega, hm.1.2⟩, hm.2⟩

/-- A list in canonical form from `lo` lists nothing below `lo`. -/
theorem Memory.read_below {lo k : Nat} {m : Memory} (hm : Memory.wfFrom lo m = true) (h : k < lo) :
    Memory.read m k = Memory.unwritten := by
  induction m generalizing lo with
  | nil => rfl
  | cons p m ih =>
    obtain ⟨a, v⟩ := p
    simp only [Memory.wfFrom, Bool.and_eq_true, decide_eq_true_eq] at hm
    have hne : a ≠ k := by omega
    simp only [Memory.read, hne, if_false]
    exact ih hm.2 (by omega)

/-- Reading another address than the one written gives what it gave before. -/
theorem Memory.read_write_other {m : Memory} {k b : Nat} {v : Int} (h : b ≠ k) :
    Memory.read (Memory.write m k v) b = Memory.read m b := by
  have hk : k ≠ b := fun e => h e.symm
  induction m with
  | nil => unfold Memory.write; split <;> simp [Memory.read, hk]
  | cons p m ih =>
    obtain ⟨a, u⟩ := p
    unfold Memory.write
    split
    · split <;> simp [Memory.read, hk]
    · split
      · rename_i hka
        subst hka
        split <;> simp [Memory.read, hk]
      · simp only [Memory.read, ih]

/-- Reading the address written gives the word written. -/
theorem Memory.read_write_same {lo : Nat} {m : Memory} (k : Nat) (v : Int) (hm : Memory.wfFrom lo m = true) :
    Memory.read (Memory.write m k v) k = v := by
  induction m generalizing lo with
  | nil => unfold Memory.write; split <;> simp_all [Memory.read]
  | cons p m ih =>
    obtain ⟨a, u⟩ := p
    simp only [Memory.wfFrom, Bool.and_eq_true, decide_eq_true_eq] at hm
    unfold Memory.write
    split
    · rename_i hlt
      have hne : a ≠ k := by omega
      split
      · rename_i hv
        simp only [Memory.read, hne, if_false, hv]
        exact Memory.read_below hm.2 (by omega)
      · simp [Memory.read]
    · split
      · rename_i hka
        subst hka
        split
        · rename_i hv
          rw [hv]
          exact Memory.read_below hm.2 (by omega)
        · simp [Memory.read]
      · rename_i hka
        have hne : a ≠ k := fun e => hka e.symm
        simp only [Memory.read, hne, if_false]
        exact ih hm.2

theorem Memory.write_wfFrom {lo k : Nat} {m : Memory} {v : Int} (hlo : lo ≤ k) (hm : Memory.wfFrom lo m = true) :
    Memory.wfFrom lo (Memory.write m k v) = true := by
  induction m generalizing lo with
  | nil => unfold Memory.write; split <;> simp_all [Memory.wfFrom]
  | cons p m ih =>
    obtain ⟨a, u⟩ := p
    have hm' := hm
    simp only [Memory.wfFrom, Bool.and_eq_true, decide_eq_true_eq] at hm
    unfold Memory.write
    split
    · rename_i hlt
      split
      · exact hm'
      · simp only [Memory.wfFrom, Bool.and_eq_true, decide_eq_true_eq]
        exact ⟨⟨hlo, by assumption⟩, ⟨by omega, hm.1.2⟩, hm.2⟩
    · split
      · rename_i hka
        subst hka
        split
        · exact Memory.wfFrom_mono (by omega) hm.2
        · simp only [Memory.wfFrom, Bool.and_eq_true, decide_eq_true_eq]
          exact ⟨⟨hlo, by assumption⟩, hm.2⟩
      · simp only [Memory.wfFrom, Bool.and_eq_true, decide_eq_true_eq]
        exact ⟨hm.1, ih (by omega) hm.2⟩

/-- A write keeps the canonical form. -/
theorem Memory.write_wf {m : Memory} {k : Nat} {v : Int} (hm : Memory.wf m = true) :
    Memory.wf (Memory.write m k v) = true := Memory.write_wfFrom (Nat.zero_le k) hm

/-- A write below a bound lists nothing above it. -/
theorem Memory.write_below {m : Memory} {k n : Nat} {v : Int} (hk : k < n) (hm : ∀ p ∈ m, p.1 < n) :
    ∀ p ∈ Memory.write m k v, p.1 < n := by
  induction m with
  | nil => unfold Memory.write; split <;> simp_all
  | cons p m ih =>
    obtain ⟨a, u⟩ := p
    have ha : a < n := hm (a, u) (by simp)
    have hm' : ∀ p ∈ m, p.1 < n := fun p hp => hm p (by simp [hp])
    unfold Memory.write
    split
    · split
      · exact hm
      · intro p hp
        rcases List.mem_cons.1 hp with rfl | hp
        · exact hk
        · exact hm p hp
    · split
      · split
        · exact hm'
        · intro p hp
          rcases List.mem_cons.1 hp with rfl | hp
          · exact hk
          · exact hm' p hp
      · intro p hp
        rcases List.mem_cons.1 hp with rfl | hp
        · exact ha
        · exact ih hm' p hp

theorem Memory.ofFnOnto_wf (f : Nat → Int) (n : Nat) (m : Memory) (hm : Memory.wfFrom n m = true) :
    Memory.wf (Memory.ofFnOnto f n m) = true := by
  induction n generalizing m with
  | zero => exact hm
  | succ n ih =>
    unfold Memory.ofFnOnto
    apply ih
    split
    · exact Memory.wfFrom_mono (by omega) hm
    · simp only [Memory.wfFrom, Bool.and_eq_true, decide_eq_true_eq]
      exact ⟨⟨Nat.le_refl n, by assumption⟩, hm⟩

/-- The list made from a function is in canonical form. -/
theorem Memory.ofFn_wf (f : Nat → Int) (n : Nat) : Memory.wf (Memory.ofFn f n) = true :=
  Memory.ofFnOnto_wf f n [] rfl

theorem Memory.ofFnOnto_below (f : Nat → Int) (n N : Nat) (m : Memory) (hn : n ≤ N) (hm : ∀ p ∈ m, p.1 < N) :
    ∀ p ∈ Memory.ofFnOnto f n m, p.1 < N := by
  induction n generalizing m with
  | zero => exact hm
  | succ n ih =>
    unfold Memory.ofFnOnto
    apply ih _ (by omega)
    split
    · exact hm
    · intro p hp
      rcases List.mem_cons.1 hp with rfl | hp
      · exact hn
      · exact hm p hp

/-- The list made from a function lists only addresses below its length. -/
theorem Memory.ofFn_below (f : Nat → Int) (n : Nat) : ∀ p ∈ Memory.ofFn f n, p.1 < n :=
  Memory.ofFnOnto_below f n n [] (Nat.le_refl n) (by simp)

end Sys2Proof.Machine
end

