-- ==== Sys2Proof/Laws/State.lean ====
section
/-! SUPPORT. What each update of the state does to each field: one lemma per field per update, each true by rfl. -/

namespace Sys2Proof.Machine

@[simp] theorem withRom_cfg (s : State) (v : List Byte) : (s.withRom v).cfg = s.cfg := rfl
@[simp] theorem withRom_rom (s : State) (v : List Byte) : (s.withRom v).rom = v := rfl
@[simp] theorem withRom_regs (s : State) (v : List Byte) : (s.withRom v).regs = s.regs := rfl
@[simp] theorem withRom_pc (s : State) (v : List Byte) : (s.withRom v).pc = s.pc := rfl
@[simp] theorem withRom_flags (s : State) (v : List Byte) : (s.withRom v).flags = s.flags := rfl
@[simp] theorem withRom_ram (s : State) (v : List Byte) : (s.withRom v).ram = s.ram := rfl
@[simp] theorem withRom_stack (s : State) (v : List Byte) : (s.withRom v).stack = s.stack := rfl
@[simp] theorem withRom_halted (s : State) (v : List Byte) : (s.withRom v).halted = s.halted := rfl
@[simp] theorem withRom_paused (s : State) (v : List Byte) : (s.withRom v).paused = s.paused := rfl
@[simp] theorem withRom_fault (s : State) (v : List Byte) : (s.withRom v).fault = s.fault := rfl
@[simp] theorem withRom_icount (s : State) (v : List Byte) : (s.withRom v).icount = s.icount := rfl
@[simp] theorem withRom_last (s : State) (v : List Byte) : (s.withRom v).last = s.last := rfl
@[simp] theorem withRom_pc0 (s : State) (v : List Byte) : (s.withRom v).pc0 = s.pc0 := rfl
@[simp] theorem withRom_draws (s : State) (v : List Byte) : (s.withRom v).draws = s.draws := rfl
@[simp] theorem withRom_events (s : State) (v : List Byte) : (s.withRom v).events = s.events := rfl

@[simp] theorem withRegs_cfg (s : State) (v : List Word) : (s.withRegs v).cfg = s.cfg := rfl
@[simp] theorem withRegs_rom (s : State) (v : List Word) : (s.withRegs v).rom = s.rom := rfl
@[simp] theorem withRegs_regs (s : State) (v : List Word) : (s.withRegs v).regs = v := rfl
@[simp] theorem withRegs_pc (s : State) (v : List Word) : (s.withRegs v).pc = s.pc := rfl
@[simp] theorem withRegs_flags (s : State) (v : List Word) : (s.withRegs v).flags = s.flags := rfl
@[simp] theorem withRegs_ram (s : State) (v : List Word) : (s.withRegs v).ram = s.ram := rfl
@[simp] theorem withRegs_stack (s : State) (v : List Word) : (s.withRegs v).stack = s.stack := rfl
@[simp] theorem withRegs_halted (s : State) (v : List Word) : (s.withRegs v).halted = s.halted := rfl
@[simp] theorem withRegs_paused (s : State) (v : List Word) : (s.withRegs v).paused = s.paused := rfl
@[simp] theorem withRegs_fault (s : State) (v : List Word) : (s.withRegs v).fault = s.fault := rfl
@[simp] theorem withRegs_icount (s : State) (v : List Word) : (s.withRegs v).icount = s.icount := rfl
@[simp] theorem withRegs_last (s : State) (v : List Word) : (s.withRegs v).last = s.last := rfl
@[simp] theorem withRegs_pc0 (s : State) (v : List Word) : (s.withRegs v).pc0 = s.pc0 := rfl
@[simp] theorem withRegs_draws (s : State) (v : List Word) : (s.withRegs v).draws = s.draws := rfl
@[simp] theorem withRegs_events (s : State) (v : List Word) : (s.withRegs v).events = s.events := rfl

@[simp] theorem withPc_cfg (s : State) (v : Int) : (s.withPc v).cfg = s.cfg := rfl
@[simp] theorem withPc_rom (s : State) (v : Int) : (s.withPc v).rom = s.rom := rfl
@[simp] theorem withPc_regs (s : State) (v : Int) : (s.withPc v).regs = s.regs := rfl
@[simp] theorem withPc_pc (s : State) (v : Int) : (s.withPc v).pc = v := rfl
@[simp] theorem withPc_flags (s : State) (v : Int) : (s.withPc v).flags = s.flags := rfl
@[simp] theorem withPc_ram (s : State) (v : Int) : (s.withPc v).ram = s.ram := rfl
@[simp] theorem withPc_stack (s : State) (v : Int) : (s.withPc v).stack = s.stack := rfl
@[simp] theorem withPc_halted (s : State) (v : Int) : (s.withPc v).halted = s.halted := rfl
@[simp] theorem withPc_paused (s : State) (v : Int) : (s.withPc v).paused = s.paused := rfl
@[simp] theorem withPc_fault (s : State) (v : Int) : (s.withPc v).fault = s.fault := rfl
@[simp] theorem withPc_icount (s : State) (v : Int) : (s.withPc v).icount = s.icount := rfl
@[simp] theorem withPc_last (s : State) (v : Int) : (s.withPc v).last = s.last := rfl
@[simp] theorem withPc_pc0 (s : State) (v : Int) : (s.withPc v).pc0 = s.pc0 := rfl
@[simp] theorem withPc_draws (s : State) (v : Int) : (s.withPc v).draws = s.draws := rfl
@[simp] theorem withPc_events (s : State) (v : Int) : (s.withPc v).events = s.events := rfl

@[simp] theorem withFlags_cfg (s : State) (v : Flags) : (s.withFlags v).cfg = s.cfg := rfl
@[simp] theorem withFlags_rom (s : State) (v : Flags) : (s.withFlags v).rom = s.rom := rfl
@[simp] theorem withFlags_regs (s : State) (v : Flags) : (s.withFlags v).regs = s.regs := rfl
@[simp] theorem withFlags_pc (s : State) (v : Flags) : (s.withFlags v).pc = s.pc := rfl
@[simp] theorem withFlags_flags (s : State) (v : Flags) : (s.withFlags v).flags = v := rfl
@[simp] theorem withFlags_ram (s : State) (v : Flags) : (s.withFlags v).ram = s.ram := rfl
@[simp] theorem withFlags_stack (s : State) (v : Flags) : (s.withFlags v).stack = s.stack := rfl
@[simp] theorem withFlags_halted (s : State) (v : Flags) : (s.withFlags v).halted = s.halted := rfl
@[simp] theorem withFlags_paused (s : State) (v : Flags) : (s.withFlags v).paused = s.paused := rfl
@[simp] theorem withFlags_fault (s : State) (v : Flags) : (s.withFlags v).fault = s.fault := rfl
@[simp] theorem withFlags_icount (s : State) (v : Flags) : (s.withFlags v).icount = s.icount := rfl
@[simp] theorem withFlags_last (s : State) (v : Flags) : (s.withFlags v).last = s.last := rfl
@[simp] theorem withFlags_pc0 (s : State) (v : Flags) : (s.withFlags v).pc0 = s.pc0 := rfl
@[simp] theorem withFlags_draws (s : State) (v : Flags) : (s.withFlags v).draws = s.draws := rfl
@[simp] theorem withFlags_events (s : State) (v : Flags) : (s.withFlags v).events = s.events := rfl

@[simp] theorem withRam_cfg (s : State) (v : Memory) : (s.withRam v).cfg = s.cfg := rfl
@[simp] theorem withRam_rom (s : State) (v : Memory) : (s.withRam v).rom = s.rom := rfl
@[simp] theorem withRam_regs (s : State) (v : Memory) : (s.withRam v).regs = s.regs := rfl
@[simp] theorem withRam_pc (s : State) (v : Memory) : (s.withRam v).pc = s.pc := rfl
@[simp] theorem withRam_flags (s : State) (v : Memory) : (s.withRam v).flags = s.flags := rfl
@[simp] theorem withRam_ram (s : State) (v : Memory) : (s.withRam v).ram = v := rfl
@[simp] theorem withRam_stack (s : State) (v : Memory) : (s.withRam v).stack = s.stack := rfl
@[simp] theorem withRam_halted (s : State) (v : Memory) : (s.withRam v).halted = s.halted := rfl
@[simp] theorem withRam_paused (s : State) (v : Memory) : (s.withRam v).paused = s.paused := rfl
@[simp] theorem withRam_fault (s : State) (v : Memory) : (s.withRam v).fault = s.fault := rfl
@[simp] theorem withRam_icount (s : State) (v : Memory) : (s.withRam v).icount = s.icount := rfl
@[simp] theorem withRam_last (s : State) (v : Memory) : (s.withRam v).last = s.last := rfl
@[simp] theorem withRam_pc0 (s : State) (v : Memory) : (s.withRam v).pc0 = s.pc0 := rfl
@[simp] theorem withRam_draws (s : State) (v : Memory) : (s.withRam v).draws = s.draws := rfl
@[simp] theorem withRam_events (s : State) (v : Memory) : (s.withRam v).events = s.events := rfl

@[simp] theorem withStack_cfg (s : State) (v : List Word) : (s.withStack v).cfg = s.cfg := rfl
@[simp] theorem withStack_rom (s : State) (v : List Word) : (s.withStack v).rom = s.rom := rfl
@[simp] theorem withStack_regs (s : State) (v : List Word) : (s.withStack v).regs = s.regs := rfl
@[simp] theorem withStack_pc (s : State) (v : List Word) : (s.withStack v).pc = s.pc := rfl
@[simp] theorem withStack_flags (s : State) (v : List Word) : (s.withStack v).flags = s.flags := rfl
@[simp] theorem withStack_ram (s : State) (v : List Word) : (s.withStack v).ram = s.ram := rfl
@[simp] theorem withStack_stack (s : State) (v : List Word) : (s.withStack v).stack = v := rfl
@[simp] theorem withStack_halted (s : State) (v : List Word) : (s.withStack v).halted = s.halted := rfl
@[simp] theorem withStack_paused (s : State) (v : List Word) : (s.withStack v).paused = s.paused := rfl
@[simp] theorem withStack_fault (s : State) (v : List Word) : (s.withStack v).fault = s.fault := rfl
@[simp] theorem withStack_icount (s : State) (v : List Word) : (s.withStack v).icount = s.icount := rfl
@[simp] theorem withStack_last (s : State) (v : List Word) : (s.withStack v).last = s.last := rfl
@[simp] theorem withStack_pc0 (s : State) (v : List Word) : (s.withStack v).pc0 = s.pc0 := rfl
@[simp] theorem withStack_draws (s : State) (v : List Word) : (s.withStack v).draws = s.draws := rfl
@[simp] theorem withStack_events (s : State) (v : List Word) : (s.withStack v).events = s.events := rfl

@[simp] theorem withHalted_cfg (s : State) (v : Bool) : (s.withHalted v).cfg = s.cfg := rfl
@[simp] theorem withHalted_rom (s : State) (v : Bool) : (s.withHalted v).rom = s.rom := rfl
@[simp] theorem withHalted_regs (s : State) (v : Bool) : (s.withHalted v).regs = s.regs := rfl
@[simp] theorem withHalted_pc (s : State) (v : Bool) : (s.withHalted v).pc = s.pc := rfl
@[simp] theorem withHalted_flags (s : State) (v : Bool) : (s.withHalted v).flags = s.flags := rfl
@[simp] theorem withHalted_ram (s : State) (v : Bool) : (s.withHalted v).ram = s.ram := rfl
@[simp] theorem withHalted_stack (s : State) (v : Bool) : (s.withHalted v).stack = s.stack := rfl
@[simp] theorem withHalted_halted (s : State) (v : Bool) : (s.withHalted v).halted = v := rfl
@[simp] theorem withHalted_paused (s : State) (v : Bool) : (s.withHalted v).paused = s.paused := rfl
@[simp] theorem withHalted_fault (s : State) (v : Bool) : (s.withHalted v).fault = s.fault := rfl
@[simp] theorem withHalted_icount (s : State) (v : Bool) : (s.withHalted v).icount = s.icount := rfl
@[simp] theorem withHalted_last (s : State) (v : Bool) : (s.withHalted v).last = s.last := rfl
@[simp] theorem withHalted_pc0 (s : State) (v : Bool) : (s.withHalted v).pc0 = s.pc0 := rfl
@[simp] theorem withHalted_draws (s : State) (v : Bool) : (s.withHalted v).draws = s.draws := rfl
@[simp] theorem withHalted_events (s : State) (v : Bool) : (s.withHalted v).events = s.events := rfl

@[simp] theorem withPaused_cfg (s : State) (v : Bool) : (s.withPaused v).cfg = s.cfg := rfl
@[simp] theorem withPaused_rom (s : State) (v : Bool) : (s.withPaused v).rom = s.rom := rfl
@[simp] theorem withPaused_regs (s : State) (v : Bool) : (s.withPaused v).regs = s.regs := rfl
@[simp] theorem withPaused_pc (s : State) (v : Bool) : (s.withPaused v).pc = s.pc := rfl
@[simp] theorem withPaused_flags (s : State) (v : Bool) : (s.withPaused v).flags = s.flags := rfl
@[simp] theorem withPaused_ram (s : State) (v : Bool) : (s.withPaused v).ram = s.ram := rfl
@[simp] theorem withPaused_stack (s : State) (v : Bool) : (s.withPaused v).stack = s.stack := rfl
@[simp] theorem withPaused_halted (s : State) (v : Bool) : (s.withPaused v).halted = s.halted := rfl
@[simp] theorem withPaused_paused (s : State) (v : Bool) : (s.withPaused v).paused = v := rfl
@[simp] theorem withPaused_fault (s : State) (v : Bool) : (s.withPaused v).fault = s.fault := rfl
@[simp] theorem withPaused_icount (s : State) (v : Bool) : (s.withPaused v).icount = s.icount := rfl
@[simp] theorem withPaused_last (s : State) (v : Bool) : (s.withPaused v).last = s.last := rfl
@[simp] theorem withPaused_pc0 (s : State) (v : Bool) : (s.withPaused v).pc0 = s.pc0 := rfl
@[simp] theorem withPaused_draws (s : State) (v : Bool) : (s.withPaused v).draws = s.draws := rfl
@[simp] theorem withPaused_events (s : State) (v : Bool) : (s.withPaused v).events = s.events := rfl

@[simp] theorem withFault_cfg (s : State) (v : Option FaultRecord) : (s.withFault v).cfg = s.cfg := rfl
@[simp] theorem withFault_rom (s : State) (v : Option FaultRecord) : (s.withFault v).rom = s.rom := rfl
@[simp] theorem withFault_regs (s : State) (v : Option FaultRecord) : (s.withFault v).regs = s.regs := rfl
@[simp] theorem withFault_pc (s : State) (v : Option FaultRecord) : (s.withFault v).pc = s.pc := rfl
@[simp] theorem withFault_flags (s : State) (v : Option FaultRecord) : (s.withFault v).flags = s.flags := rfl
@[simp] theorem withFault_ram (s : State) (v : Option FaultRecord) : (s.withFault v).ram = s.ram := rfl
@[simp] theorem withFault_stack (s : State) (v : Option FaultRecord) : (s.withFault v).stack = s.stack := rfl
@[simp] theorem withFault_halted (s : State) (v : Option FaultRecord) : (s.withFault v).halted = s.halted := rfl
@[simp] theorem withFault_paused (s : State) (v : Option FaultRecord) : (s.withFault v).paused = s.paused := rfl
@[simp] theorem withFault_fault (s : State) (v : Option FaultRecord) : (s.withFault v).fault = v := rfl
@[simp] theorem withFault_icount (s : State) (v : Option FaultRecord) : (s.withFault v).icount = s.icount := rfl
@[simp] theorem withFault_last (s : State) (v : Option FaultRecord) : (s.withFault v).last = s.last := rfl
@[simp] theorem withFault_pc0 (s : State) (v : Option FaultRecord) : (s.withFault v).pc0 = s.pc0 := rfl
@[simp] theorem withFault_draws (s : State) (v : Option FaultRecord) : (s.withFault v).draws = s.draws := rfl
@[simp] theorem withFault_events (s : State) (v : Option FaultRecord) : (s.withFault v).events = s.events := rfl

@[simp] theorem withIcount_cfg (s : State) (v : Nat) : (s.withIcount v).cfg = s.cfg := rfl
@[simp] theorem withIcount_rom (s : State) (v : Nat) : (s.withIcount v).rom = s.rom := rfl
@[simp] theorem withIcount_regs (s : State) (v : Nat) : (s.withIcount v).regs = s.regs := rfl
@[simp] theorem withIcount_pc (s : State) (v : Nat) : (s.withIcount v).pc = s.pc := rfl
@[simp] theorem withIcount_flags (s : State) (v : Nat) : (s.withIcount v).flags = s.flags := rfl
@[simp] theorem withIcount_ram (s : State) (v : Nat) : (s.withIcount v).ram = s.ram := rfl
@[simp] theorem withIcount_stack (s : State) (v : Nat) : (s.withIcount v).stack = s.stack := rfl
@[simp] theorem withIcount_halted (s : State) (v : Nat) : (s.withIcount v).halted = s.halted := rfl
@[simp] theorem withIcount_paused (s : State) (v : Nat) : (s.withIcount v).paused = s.paused := rfl
@[simp] theorem withIcount_fault (s : State) (v : Nat) : (s.withIcount v).fault = s.fault := rfl
@[simp] theorem withIcount_icount (s : State) (v : Nat) : (s.withIcount v).icount = v := rfl
@[simp] theorem withIcount_last (s : State) (v : Nat) : (s.withIcount v).last = s.last := rfl
@[simp] theorem withIcount_pc0 (s : State) (v : Nat) : (s.withIcount v).pc0 = s.pc0 := rfl
@[simp] theorem withIcount_draws (s : State) (v : Nat) : (s.withIcount v).draws = s.draws := rfl
@[simp] theorem withIcount_events (s : State) (v : Nat) : (s.withIcount v).events = s.events := rfl

@[simp] theorem withLast_cfg (s : State) (v : Option Instr) : (s.withLast v).cfg = s.cfg := rfl
@[simp] theorem withLast_rom (s : State) (v : Option Instr) : (s.withLast v).rom = s.rom := rfl
@[simp] theorem withLast_regs (s : State) (v : Option Instr) : (s.withLast v).regs = s.regs := rfl
@[simp] theorem withLast_pc (s : State) (v : Option Instr) : (s.withLast v).pc = s.pc := rfl
@[simp] theorem withLast_flags (s : State) (v : Option Instr) : (s.withLast v).flags = s.flags := rfl
@[simp] theorem withLast_ram (s : State) (v : Option Instr) : (s.withLast v).ram = s.ram := rfl
@[simp] theorem withLast_stack (s : State) (v : Option Instr) : (s.withLast v).stack = s.stack := rfl
@[simp] theorem withLast_halted (s : State) (v : Option Instr) : (s.withLast v).halted = s.halted := rfl
@[simp] theorem withLast_paused (s : State) (v : Option Instr) : (s.withLast v).paused = s.paused := rfl
@[simp] theorem withLast_fault (s : State) (v : Option Instr) : (s.withLast v).fault = s.fault := rfl
@[simp] theorem withLast_icount (s : State) (v : Option Instr) : (s.withLast v).icount = s.icount := rfl
@[simp] theorem withLast_last (s : State) (v : Option Instr) : (s.withLast v).last = v := rfl
@[simp] theorem withLast_pc0 (s : State) (v : Option Instr) : (s.withLast v).pc0 = s.pc0 := rfl
@[simp] theorem withLast_draws (s : State) (v : Option Instr) : (s.withLast v).draws = s.draws := rfl
@[simp] theorem withLast_events (s : State) (v : Option Instr) : (s.withLast v).events = s.events := rfl

@[simp] theorem withPc0_cfg (s : State) (v : Int) : (s.withPc0 v).cfg = s.cfg := rfl
@[simp] theorem withPc0_rom (s : State) (v : Int) : (s.withPc0 v).rom = s.rom := rfl
@[simp] theorem withPc0_regs (s : State) (v : Int) : (s.withPc0 v).regs = s.regs := rfl
@[simp] theorem withPc0_pc (s : State) (v : Int) : (s.withPc0 v).pc = s.pc := rfl
@[simp] theorem withPc0_flags (s : State) (v : Int) : (s.withPc0 v).flags = s.flags := rfl
@[simp] theorem withPc0_ram (s : State) (v : Int) : (s.withPc0 v).ram = s.ram := rfl
@[simp] theorem withPc0_stack (s : State) (v : Int) : (s.withPc0 v).stack = s.stack := rfl
@[simp] theorem withPc0_halted (s : State) (v : Int) : (s.withPc0 v).halted = s.halted := rfl
@[simp] theorem withPc0_paused (s : State) (v : Int) : (s.withPc0 v).paused = s.paused := rfl
@[simp] theorem withPc0_fault (s : State) (v : Int) : (s.withPc0 v).fault = s.fault := rfl
@[simp] theorem withPc0_icount (s : State) (v : Int) : (s.withPc0 v).icount = s.icount := rfl
@[simp] theorem withPc0_last (s : State) (v : Int) : (s.withPc0 v).last = s.last := rfl
@[simp] theorem withPc0_pc0 (s : State) (v : Int) : (s.withPc0 v).pc0 = v := rfl
@[simp] theorem withPc0_draws (s : State) (v : Int) : (s.withPc0 v).draws = s.draws := rfl
@[simp] theorem withPc0_events (s : State) (v : Int) : (s.withPc0 v).events = s.events := rfl

@[simp] theorem withDraws_cfg (s : State) (v : Nat) : (s.withDraws v).cfg = s.cfg := rfl
@[simp] theorem withDraws_rom (s : State) (v : Nat) : (s.withDraws v).rom = s.rom := rfl
@[simp] theorem withDraws_regs (s : State) (v : Nat) : (s.withDraws v).regs = s.regs := rfl
@[simp] theorem withDraws_pc (s : State) (v : Nat) : (s.withDraws v).pc = s.pc := rfl
@[simp] theorem withDraws_flags (s : State) (v : Nat) : (s.withDraws v).flags = s.flags := rfl
@[simp] theorem withDraws_ram (s : State) (v : Nat) : (s.withDraws v).ram = s.ram := rfl
@[simp] theorem withDraws_stack (s : State) (v : Nat) : (s.withDraws v).stack = s.stack := rfl
@[simp] theorem withDraws_halted (s : State) (v : Nat) : (s.withDraws v).halted = s.halted := rfl
@[simp] theorem withDraws_paused (s : State) (v : Nat) : (s.withDraws v).paused = s.paused := rfl
@[simp] theorem withDraws_fault (s : State) (v : Nat) : (s.withDraws v).fault = s.fault := rfl
@[simp] theorem withDraws_icount (s : State) (v : Nat) : (s.withDraws v).icount = s.icount := rfl
@[simp] theorem withDraws_last (s : State) (v : Nat) : (s.withDraws v).last = s.last := rfl
@[simp] theorem withDraws_pc0 (s : State) (v : Nat) : (s.withDraws v).pc0 = s.pc0 := rfl
@[simp] theorem withDraws_draws (s : State) (v : Nat) : (s.withDraws v).draws = v := rfl
@[simp] theorem withDraws_events (s : State) (v : Nat) : (s.withDraws v).events = s.events := rfl

@[simp] theorem withEvents_cfg (s : State) (v : List Event) : (s.withEvents v).cfg = s.cfg := rfl
@[simp] theorem withEvents_rom (s : State) (v : List Event) : (s.withEvents v).rom = s.rom := rfl
@[simp] theorem withEvents_regs (s : State) (v : List Event) : (s.withEvents v).regs = s.regs := rfl
@[simp] theorem withEvents_pc (s : State) (v : List Event) : (s.withEvents v).pc = s.pc := rfl
@[simp] theorem withEvents_flags (s : State) (v : List Event) : (s.withEvents v).flags = s.flags := rfl
@[simp] theorem withEvents_ram (s : State) (v : List Event) : (s.withEvents v).ram = s.ram := rfl
@[simp] theorem withEvents_stack (s : State) (v : List Event) : (s.withEvents v).stack = s.stack := rfl
@[simp] theorem withEvents_halted (s : State) (v : List Event) : (s.withEvents v).halted = s.halted := rfl
@[simp] theorem withEvents_paused (s : State) (v : List Event) : (s.withEvents v).paused = s.paused := rfl
@[simp] theorem withEvents_fault (s : State) (v : List Event) : (s.withEvents v).fault = s.fault := rfl
@[simp] theorem withEvents_icount (s : State) (v : List Event) : (s.withEvents v).icount = s.icount := rfl
@[simp] theorem withEvents_last (s : State) (v : List Event) : (s.withEvents v).last = s.last := rfl
@[simp] theorem withEvents_pc0 (s : State) (v : List Event) : (s.withEvents v).pc0 = s.pc0 := rfl
@[simp] theorem withEvents_draws (s : State) (v : List Event) : (s.withEvents v).draws = s.draws := rfl
@[simp] theorem withEvents_events (s : State) (v : List Event) : (s.withEvents v).events = v := rfl

end Sys2Proof.Machine
end

