-- ==== Sys2Proof/Laws/Ops.lean ====
section
/-! SUPPORT. What each shared operation can do, said once: the fields a fault keeps, and for every operation on
registers, RAM, the stack and operands, its outcomes. -/

namespace Sys2Proof.Machine

/-! Taking a fault and reset. -/

@[simp] theorem takeFault_cfg (f : Fault) (s : State) : (takeFault f s).cfg = s.cfg := rfl
@[simp] theorem takeFault_rom (f : Fault) (s : State) : (takeFault f s).rom = s.rom := rfl
@[simp] theorem takeFault_halted (f : Fault) (s : State) : (takeFault f s).halted = s.halted := rfl
@[simp] theorem takeFault_paused (f : Fault) (s : State) : (takeFault f s).paused = s.paused := rfl
@[simp] theorem takeFault_fault (f : Fault) (s : State) : (takeFault f s).fault = some ⟨f, s.pc0⟩ := rfl
@[simp] theorem takeFault_icount (f : Fault) (s : State) : (takeFault f s).icount = s.icount := rfl
@[simp] theorem takeFault_last (f : Fault) (s : State) : (takeFault f s).last = s.last := rfl
@[simp] theorem takeFault_pc0 (f : Fault) (s : State) : (takeFault f s).pc0 = s.pc0 := rfl
@[simp] theorem takeFault_draws (f : Fault) (s : State) : (takeFault f s).draws = s.draws + 1 := rfl
@[simp] theorem takeFault_events (f : Fault) (s : State) : (takeFault f s).events = s.events := rfl
@[simp] theorem takeFault_regs_length (f : Fault) (s : State) :
    (takeFault f s).regs.length = s.cfg.registerCount := by simp [takeFault]
theorem takeFault_ram_wf (f : Fault) (s : State) : Memory.wf (takeFault f s).ram = true := Memory.ofFn_wf _ _
theorem takeFault_ram_below (f : Fault) (s : State) : ∀ p ∈ (takeFault f s).ram, p.1 < s.cfg.ramSize :=
  Memory.ofFn_below _ _
theorem takeFault_stack_length (f : Fault) (s : State) : (takeFault f s).stack.length ≤ s.cfg.stackSize := by
  simp [takeFault]

/-- A taken fault is `Raised`. -/
theorem takeFault_raised (f : Fault) (s : State) : Raised s (takeFault f s) f :=
  ⟨rfl, rfl, rfl, rfl, rfl, rfl, rfl, rfl⟩

/-- An instruction ends with what its rule gives, or with the fault its rule raises, taken. -/
theorem finish_next {s t : State} {r : Except Fault State} (h : finish s r = .next t) :
    r = .ok t ∨ ∃ f, r = .error f ∧ t = takeFault f s := by
  cases r with
  | ok u => exact .inl (by simpa [finish] using h)
  | error f => exact .inr ⟨f, rfl, by simpa [finish] using h.symm⟩

@[simp] theorem finish_ok (s t : State) : finish s (.ok t) = .next t := rfl
@[simp] theorem finish_error (s : State) (f : Fault) : finish s (.error f) = .next (takeFault f s) := rfl

/-! Registers, RAM, ROM, the stack. -/

theorem readReg_valid {s : State} {i : Int} (h : validReg s i) : readReg s i = .ok (regValue s i) := by
  simp [readReg, regValue, h]

theorem readReg_invalid {s : State} {i : Int} (h : ¬ validReg s i) : readReg s i = .error (.invalidRegister i) := by
  simp only [readReg, h, if_false]

theorem readReg_ok {s : State} {i : Int} {v : Int} (h : readReg s i = .ok v) : validReg s i ∧ v = regValue s i := by
  by_cases hv : validReg s i
  · rw [readReg_valid hv] at h
    exact ⟨hv, by simpa using h.symm⟩
  · rw [readReg_invalid hv] at h
    cases h

theorem writeReg_valid {s : State} {i : Int} (v : Int) (h : validReg s i) :
    writeReg s i v = .ok (s.withRegs (s.regs.set i.toNat v)) := by
  simp [writeReg, h]

theorem writeReg_invalid {s : State} {i : Int} (v : Int) (h : ¬ validReg s i) :
    writeReg s i v = .error (.invalidRegister i) := by
  simp only [writeReg, h, if_false]

theorem writeReg_ok {s t : State} {i : Int} {v : Int} (h : writeReg s i v = .ok t) :
    validReg s i ∧ t = s.withRegs (s.regs.set i.toNat v) := by
  by_cases hv : validReg s i
  · rw [writeReg_valid v hv] at h
    exact ⟨hv, by simpa using h.symm⟩
  · rw [writeReg_invalid v hv] at h
    cases h

theorem memRead_valid {s : State} {a : Int} (h : validAddr s a) : memRead s a = .ok (Memory.read s.ram a.toNat) := by
  have h' : ¬ (a < 0 ∨ a ≥ s.cfg.ramSize) := by omega
  simp only [memRead, h', if_false]

theorem memRead_invalid {s : State} {a : Int} (h : ¬ validAddr s a) : memRead s a = .error (.accessViolation a) := by
  have h' : a < 0 ∨ a ≥ s.cfg.ramSize := by omega
  simp only [memRead, h', if_true]

theorem memRead_ok {s : State} {a : Int} {v : Int} (h : memRead s a = .ok v) :
    validAddr s a ∧ v = Memory.read s.ram a.toNat := by
  by_cases hv : validAddr s a
  · rw [memRead_valid hv] at h
    exact ⟨hv, by simpa using h.symm⟩
  · rw [memRead_invalid hv] at h
    cases h

theorem memWrite_valid {s : State} {a : Int} (v : Int) (h : validAddr s a) :
    memWrite s a v = .ok (s.withRam (Memory.write s.ram a.toNat v)) := by
  have h' : ¬ (a < 0 ∨ a ≥ s.cfg.ramSize) := by omega
  simp only [memWrite, h', if_false]

theorem memWrite_invalid {s : State} {a : Int} (v : Int) (h : ¬ validAddr s a) :
    memWrite s a v = .error (.accessViolation a) := by
  have h' : a < 0 ∨ a ≥ s.cfg.ramSize := by omega
  simp only [memWrite, h', if_true]

theorem memWrite_ok {s t : State} {a : Int} {v : Int} (h : memWrite s a v = .ok t) :
    validAddr s a ∧ t = s.withRam (Memory.write s.ram a.toNat v) := by
  by_cases hv : validAddr s a
  · rw [memWrite_valid v hv] at h
    exact ⟨hv, by simpa using h.symm⟩
  · rw [memWrite_invalid v hv] at h
    cases h

theorem romByte_ok {rom : List Byte} {i : Int} {b : Byte} (h : romByte rom i = .ok b) :
    0 ≤ i ∧ i < rom.length ∧ rom[i.toNat]? = some b := by
  unfold romByte at h
  split at h
  · rename_i hv
    refine ⟨hv.1, hv.2, ?_⟩
    have hlt : i.toNat < rom.length := by omega
    rw [List.getD_eq_getElem _ _ hlt] at h
    rw [List.getElem?_eq_getElem hlt]
    simpa using h
  · cases h

theorem romByte_at {rom : List Byte} {i : Int} {b : Byte} (h0 : 0 ≤ i) (h : rom[i.toNat]? = some b) :
    romByte rom i = .ok b := by
  obtain ⟨hlt, rfl⟩ := List.getElem?_eq_some_iff.1 h
  have hi : 0 ≤ i ∧ i < rom.length := by omega
  simp [romByte, hi]

theorem push_ok {s t : State} {v : Int} (h : push s v = .ok t) :
    s.stack.length ≠ s.cfg.stackSize ∧ t = s.withStack (s.stack ++ [v]) := by
  unfold push at h
  split at h
  · cases h
  · exact ⟨by assumption, by simpa using h.symm⟩

theorem push_room {s : State} (v : Int) (h : s.stack.length ≠ s.cfg.stackSize) :
    push s v = .ok (s.withStack (s.stack ++ [v])) := by
  simp only [push, h, if_false]

theorem push_full {s : State} (v : Int) (h : s.stack.length = s.cfg.stackSize) :
    push s v = .error (.stackOverflow s.stack.length) := by
  simp only [push, h, if_true]

theorem pop_top {s : State} {below : List Int} {v : Int} (h : s.stack = below ++ [v]) :
    pop s = .ok (v, s.withStack below) := by
  simp [pop, h]

theorem pop_empty {s : State} (h : s.stack = []) : pop s = .error (.stackUnderflow 0) := by
  simp [pop, h]

theorem pop_ok {s t : State} {v : Int} (h : pop s = .ok (v, t)) :
    ∃ below, s.stack = below ++ [v] ∧ t = s.withStack below := by
  rcases List.eq_nil_or_concat s.stack with he | ⟨below, u, he⟩
  · rw [pop_empty he] at h
    cases h
  · rw [List.concat_eq_append] at he
    rw [pop_top he] at h
    obtain ⟨rfl, rfl⟩ : u = v ∧ s.withStack below = t := by simpa using h
    exact ⟨below, he, rfl⟩

/-! Operands. -/

/-- A completed operand read gives the operand's value. -/
theorem readOperand_ok {s : State} {op : Operand} {v : Int} (h : readOperand s op = .ok v) :
    readable s op = true ∧ v = operandValue s op := by
  cases op with
  | register i =>
    obtain ⟨hv, rfl⟩ := readReg_ok h
    exact ⟨by simpa [readable] using hv, rfl⟩
  | immediate k => exact ⟨rfl, by simpa [readOperand, operandValue] using h.symm⟩
  | memoryAddress a =>
    obtain ⟨hv, rfl⟩ := memRead_ok h
    exact ⟨by simpa [readable] using hv, rfl⟩
  | registerMemory i =>
    by_cases hr : validReg s i
    · simp only [readOperand, readReg_valid hr] at h
      obtain ⟨hv, rfl⟩ := memRead_ok h
      exact ⟨by simpa [readable] using ⟨hr, hv⟩, rfl⟩
    · simp only [readOperand, readReg_invalid hr] at h
      cases h

/-- A completed operand write wrote one register, or one RAM word at the operand's address. -/
theorem writeOperand_ok {s t : State} {op : Operand} {v : Int} (h : writeOperand s op v = .ok t) :
    (∃ i, op = .register i ∧ validReg s i ∧ t = s.withRegs (s.regs.set i.toNat v)) ∨
    (∃ a, operandAddress s op = .ok (some a) ∧ validAddr s a ∧ t = s.withRam (Memory.write s.ram a.toNat v)) := by
  cases op with
  | register i =>
    obtain ⟨hv, rfl⟩ := writeReg_ok h
    exact .inl ⟨i, rfl, hv, rfl⟩
  | immediate k => cases h
  | memoryAddress a =>
    obtain ⟨hv, rfl⟩ := memWrite_ok h
    exact .inr ⟨a, rfl, hv, rfl⟩
  | registerMemory i =>
    by_cases hr : validReg s i
    · simp only [writeOperand, readReg_valid hr] at h
      obtain ⟨hv, rfl⟩ := memWrite_ok h
      exact .inr ⟨regValue s i, by simp only [operandAddress, readReg_valid hr], hv, rfl⟩
    · simp only [writeOperand, readReg_invalid hr] at h
      cases h

/-! Dispatch. -/

theorem execute0_next {opc : Opcode} {ops : List Operand} {s t : State} {rule : Except Fault State}
    (h : execute0 opc ops s rule = .next t) : (ops = [] ∧ rule = .ok t) ∨ ∃ f, t = takeFault f s := by
  unfold execute0 at h
  split at h
  · rcases finish_next h with hr | ⟨f, _, rfl⟩
    · exact .inl ⟨rfl, hr⟩
    · exact .inr ⟨f, rfl⟩
  · exact .inr ⟨_, by simpa using h.symm⟩

theorem execute1_next {opc : Opcode} {ops : List Operand} {s t : State} {rule : Operand → Except Fault State}
    (h : execute1 opc ops s rule = .next t) : (∃ a, ops = [a] ∧ rule a = .ok t) ∨ ∃ f, t = takeFault f s := by
  unfold execute1 at h
  split at h
  · rename_i a
    rcases finish_next h with hr | ⟨f, _, rfl⟩
    · exact .inl ⟨a, rfl, hr⟩
    · exact .inr ⟨f, rfl⟩
  · exact .inr ⟨_, by simpa using h.symm⟩

theorem execute2_next {opc : Opcode} {ops : List Operand} {s t : State}
    {rule : Operand → Operand → Except Fault State} (h : execute2 opc ops s rule = .next t) :
    (∃ a b, ops = [a, b] ∧ rule a b = .ok t) ∨ ∃ f, t = takeFault f s := by
  unfold execute2 at h
  split at h
  · rename_i a b
    rcases finish_next h with hr | ⟨f, _, rfl⟩
    · exact .inl ⟨a, b, rfl, hr⟩
    · exact .inr ⟨f, rfl⟩
  · exact .inr ⟨_, by simpa using h.symm⟩

theorem executeReg1_next {opc : Opcode} {ops : List Operand} {s t : State} {rule : Int → Except Fault State}
    (h : executeReg1 opc ops s rule = .next t) :
    (∃ i, ops = [.register i] ∧ rule i = .ok t) ∨ ∃ f, t = takeFault f s := by
  rcases execute1_next h with ⟨a, rfl, hr⟩ | hf
  · cases a with
    | register i => exact .inl ⟨i, rfl, hr⟩
    | _ => cases hr
  · exact .inr hf

theorem executeReg2_next {opc : Opcode} {ops : List Operand} {s t : State}
    {rule : Int → Operand → Except Fault State} (h : executeReg2 opc ops s rule = .next t) :
    (∃ i b, ops = [.register i, b] ∧ rule i b = .ok t) ∨ ∃ f, t = takeFault f s := by
  rcases execute2_next h with ⟨a, b, rfl, hr⟩ | hf
  · cases a with
    | register i => exact .inl ⟨i, b, rfl, hr⟩
    | _ => cases hr
  · exact .inr hf

theorem executeUpTo2_next {opc : Opcode} {ops : List Operand} {s t : State} {rule : Except Fault State}
    (h : executeUpTo2 opc ops s rule = .next t) :
    (ops.length ≤ 2 ∧ rule = .ok t) ∨ ∃ f, t = takeFault f s := by
  unfold executeUpTo2 at h
  split at h
  · rename_i hl
    rcases finish_next h with hr | ⟨f, _, rfl⟩
    · exact .inl ⟨hl, hr⟩
    · exact .inr ⟨f, rfl⟩
  · exact .inr ⟨_, by simpa using h.symm⟩

end Sys2Proof.Machine
end

