-- ==== Sys2Proof/Laws/Exec.lean ====
section
/-! SUPPORT. What each shared meaning can do when it answers a next state: it took a fault, or it completed and kept
what no instruction changes. -/

namespace Sys2Proof.Machine

/-- What every instruction that completes keeps: the parameters and the bookkeeping of the step, the size of the register
file, the form and bounds of RAM, and the bound on the stack. -/
structure Kept (s t : State) : Prop where
  cfg : t.cfg = s.cfg
  rom : t.rom = s.rom
  paused : t.paused = s.paused
  fault : t.fault = s.fault
  icount : t.icount = s.icount
  last : t.last = s.last
  pc0 : t.pc0 = s.pc0
  regs_length : t.regs.length = s.regs.length
  ram_wf : Memory.wf s.ram = true → Memory.wf t.ram = true
  ram_below : (∀ p ∈ s.ram, p.1 < s.cfg.ramSize) → ∀ p ∈ t.ram, p.1 < s.cfg.ramSize
  stack_bound : s.stack.length ≤ s.cfg.stackSize → t.stack.length ≤ s.cfg.stackSize

theorem Kept.refl (s : State) : Kept s s := ⟨rfl, rfl, rfl, rfl, rfl, rfl, rfl, rfl, id, id, id⟩

theorem Kept.trans {s t u : State} (h : Kept s t) (g : Kept t u) : Kept s u where
  cfg := g.cfg.trans h.cfg
  rom := g.rom.trans h.rom
  paused := g.paused.trans h.paused
  fault := g.fault.trans h.fault
  icount := g.icount.trans h.icount
  last := g.last.trans h.last
  pc0 := g.pc0.trans h.pc0
  regs_length := g.regs_length.trans h.regs_length
  ram_wf := fun w => g.ram_wf (h.ram_wf w)
  ram_below := fun w => h.cfg ▸ g.ram_below (by rw [h.cfg]; exact h.ram_below w)
  stack_bound := fun w => h.cfg ▸ g.stack_bound (by rw [h.cfg]; exact h.stack_bound w)

theorem kept_withFlags (s : State) (f : Flags) : Kept s (s.withFlags f) :=
  ⟨rfl, rfl, rfl, rfl, rfl, rfl, rfl, rfl, id, id, id⟩

theorem kept_withPc (s : State) (v : Int) : Kept s (s.withPc v) := ⟨rfl, rfl, rfl, rfl, rfl, rfl, rfl, rfl, id, id, id⟩

theorem kept_withDraws (s : State) (n : Nat) : Kept s (s.withDraws n) :=
  ⟨rfl, rfl, rfl, rfl, rfl, rfl, rfl, rfl, id, id, id⟩

theorem kept_emit (s : State) (e : Event) : Kept s (emit s e) := ⟨rfl, rfl, rfl, rfl, rfl, rfl, rfl, rfl, id, id, id⟩

theorem kept_withHalted (s : State) (b : Bool) : Kept s (s.withHalted b) :=
  ⟨rfl, rfl, rfl, rfl, rfl, rfl, rfl, rfl, id, id, id⟩

theorem kept_shiftFlags (s : State) (i : Int) (r : Int) : Kept s (shiftFlags s i r) := by
  unfold shiftFlags
  split <;> exact kept_withFlags s _

theorem writeReg_kept {s t : State} {i : Int} {v : Int} (h : writeReg s i v = .ok t) : Kept s t := by
  obtain ⟨_, rfl⟩ := writeReg_ok h
  exact ⟨rfl, rfl, rfl, rfl, rfl, rfl, rfl, by simp, id, id, id⟩

theorem memWrite_kept {s t : State} {a : Int} {v : Int} (h : memWrite s a v = .ok t) : Kept s t := by
  obtain ⟨hv, rfl⟩ := memWrite_ok h
  exact ⟨rfl, rfl, rfl, rfl, rfl, rfl, rfl, rfl, Memory.write_wf, Memory.write_below (by omega), id⟩

theorem writeOperand_kept {s t : State} {op : Operand} {v : Int} (h : writeOperand s op v = .ok t) : Kept s t := by
  rcases writeOperand_ok h with ⟨i, _, hv, rfl⟩ | ⟨a, _, hv, rfl⟩
  · exact writeReg_kept (writeReg_valid v hv)
  · exact memWrite_kept (memWrite_valid v hv)

/-- A completed operand write changes the registers or RAM only. -/
theorem writeOperand_frame {s t : State} {op : Operand} {v : Int} (h : writeOperand s op v = .ok t) :
    t = { s with regs := t.regs, ram := t.ram } := by
  rcases writeOperand_ok h with ⟨i, _, _, rfl⟩ | ⟨a, _, _, rfl⟩ <;> rfl

theorem push_kept {s t : State} {v : Int} (h : push s v = .ok t) : Kept s t := by
  obtain ⟨hne, rfl⟩ := push_ok h
  refine ⟨rfl, rfl, rfl, rfl, rfl, rfl, rfl, rfl, id, id, fun hb => ?_⟩
  simp only [withStack_stack, List.length_append, List.length_singleton]
  omega

theorem pop_kept {s t : State} {v : Int} (h : pop s = .ok (v, t)) : Kept s t := by
  obtain ⟨below, he, rfl⟩ := pop_ok h
  refine ⟨rfl, rfl, rfl, rfl, rfl, rfl, rfl, rfl, id, id, fun hb => ?_⟩
  rw [he, List.length_append] at hb
  simp only [withStack_stack]
  omega

/-! The shared meanings: if one answers `t` and took no fault, then what its rule says. -/

theorem arith2_next {opc : Opcode} {raw : Int → Int → Except Fault Int} {ops : List Operand} {s t : State}
    (h : arith2 opc raw ops s = .next t) :
    (∃ dst src r, ops = [dst, src] ∧ readable s dst = true ∧ readable s src = true ∧
      raw (operandValue s dst) (operandValue s src) = .ok r ∧ writeArith s dst r = .ok t) ∨ ∃ f, t = takeFault f s := by
  rcases execute2_next h with ⟨dst, src, rfl, hr⟩ | hf
  · cases hd : readOperand s dst with
    | error f => simp [hd] at hr
    | ok a =>
      cases hs : readOperand s src with
      | error f => simp [hd, hs] at hr
      | ok b =>
        obtain ⟨hdr, rfl⟩ := readOperand_ok hd
        obtain ⟨hsr, rfl⟩ := readOperand_ok hs
        cases hw : raw (operandValue s dst) (operandValue s src) with
        | error f => simp [hd, hs, hw] at hr
        | ok r => exact .inl ⟨dst, src, r, rfl, hdr, hsr, hw, by simpa [hd, hs, hw] using hr⟩
  · exact .inr hf

theorem arith1_next {opc : Opcode} {raw : Int → Int} {ops : List Operand} {s t : State}
    (h : arith1 opc raw ops s = .next t) :
    (∃ dst, ops = [dst] ∧ readable s dst = true ∧ writeArith s dst (raw (operandValue s dst)) = .ok t) ∨
      ∃ f, t = takeFault f s := by
  rcases execute1_next h with ⟨dst, rfl, hr⟩ | hf
  · cases hd : readOperand s dst with
    | error f => simp [hd] at hr
    | ok a =>
      obtain ⟨hdr, rfl⟩ := readOperand_ok hd
      exact .inl ⟨dst, rfl, hdr, by simpa [hd] using hr⟩
  · exact .inr hf

theorem logic2_next {opc : Opcode} {op : Int → Int → Int} {ops : List Operand} {s t : State}
    (h : logic2 opc op ops s = .next t) :
    (∃ dst src, ops = [dst, src] ∧ readable s dst = true ∧ readable s src = true ∧
      writeOperand (boolFlags s (op (operandValue s dst) (operandValue s src))) dst
        (op (operandValue s dst) (operandValue s src)) = .ok t) ∨ ∃ f, t = takeFault f s := by
  rcases execute2_next h with ⟨dst, src, rfl, hr⟩ | hf
  · cases hd : readOperand s dst with
    | error f => simp [hd] at hr
    | ok a =>
      cases hs : readOperand s src with
      | error f => simp [hd, hs] at hr
      | ok b =>
        obtain ⟨hdr, rfl⟩ := readOperand_ok hd
        obtain ⟨hsr, rfl⟩ := readOperand_ok hs
        exact .inl ⟨dst, src, rfl, hdr, hsr, by simpa [hd, hs] using hr⟩
  · exact .inr hf

theorem shift_next {opc : Opcode} {op : Int → Int → Int} {ops : List Operand} {s t : State}
    (h : shift opc op ops s = .next t) :
    (∃ i amount, ops = [.register i, amount] ∧ validReg s i ∧ readable s amount = true ∧
      0 ≤ operandValue s amount ∧
      writeReg (shiftFlags s i (op (regValue s i) (operandValue s amount))) i
        (op (regValue s i) (operandValue s amount)) = .ok t) ∨ ∃ f, t = takeFault f s := by
  rcases executeReg2_next h with ⟨i, amount, rfl, hr⟩ | hf
  · cases hd : readReg s i with
    | error f => simp [hd] at hr
    | ok a =>
      cases hs : readOperand s amount with
      | error f => simp [hd, hs] at hr
      | ok k =>
        obtain ⟨hdr, rfl⟩ := readReg_ok hd
        obtain ⟨hsr, rfl⟩ := readOperand_ok hs
        by_cases hk : operandValue s amount < 0
        · simp [hd, hs, hk] at hr
        · exact .inl ⟨i, amount, rfl, hdr, hsr, by omega, by simpa [hd, hs, hk] using hr⟩
  · exact .inr hf

theorem jump_next {opc : Opcode} {taken : Flags → Bool} {ops : List Operand} {s t : State}
    (h : jump opc taken ops s = .next t) :
    (∃ x, ops = [x] ∧ readable s x = true ∧ t = if taken s.flags then s.withPc (operandValue s x) else s) ∨
      ∃ f, t = takeFault f s := by
  rcases execute1_next h with ⟨x, rfl, hr⟩ | hf
  · cases hd : readOperand s x with
    | error f => simp [hd] at hr
    | ok a =>
      obtain ⟨hdr, rfl⟩ := readOperand_ok hd
      exact .inl ⟨x, rfl, hdr, by simpa [hd] using hr.symm⟩
  · exact .inr hf

theorem readOperands_ok {s : State} {ops : List Operand} {vs : List Int} (h : readOperands s ops = .ok vs) :
    (∀ op ∈ ops, readable s op = true) ∧ vs = ops.map (operandValue s) := by
  induction ops generalizing vs with
  | nil => exact ⟨by simp, by simpa [readOperands] using h.symm⟩
  | cons op ops ih =>
    cases hd : readOperand s op with
    | error f => simp [readOperands, hd] at h
    | ok v =>
      cases hs : readOperands s ops with
      | error f => simp [readOperands, hd, hs] at h
      | ok ws =>
        obtain ⟨hr, rfl⟩ := readOperand_ok hd
        obtain ⟨ha, rfl⟩ := ih hs
        refine ⟨fun x hx => ?_, by simpa [readOperands, hd, hs] using h.symm⟩
        rcases List.mem_cons.1 hx with rfl | hx
        · exact hr
        · exact ha x hx

theorem displayOp_next {opc : Opcode} {d : DisplayOpcode} {ops : List Operand} {s t : State}
    (h : displayOp opc d ops s = .next t) :
    (ops.length ≤ 2 ∧ s.cfg.displayPresent = false ∧ t = s) ∨
    (ops.length ≤ 2 ∧ s.cfg.displayPresent = true ∧ (∀ op ∈ ops, readable s op = true) ∧
      t = emit s (.display d (ops.map (operandValue s)))) ∨ ∃ f, t = takeFault f s := by
  rcases executeUpTo2_next h with ⟨hl, hr⟩ | hf
  · by_cases hp : s.cfg.displayPresent = true
    · cases hd : readOperands s ops with
      | error f => simp [hp, hd] at hr
      | ok vs =>
        obtain ⟨ha, rfl⟩ := readOperands_ok hd
        exact .inr (.inl ⟨hl, hp, ha, by simpa [hp, hd] using hr.symm⟩)
    · have hp' : s.cfg.displayPresent = false := by simpa using hp
      exact .inl ⟨hl, hp', by simpa [hp'] using hr.symm⟩
  · exact .inr (.inr hf)

theorem writeArith_kept {s t : State} {dst : Operand} {raw : Int} (h : writeArith s dst raw = .ok t) : Kept s t :=
  (kept_withFlags _ _).trans ((kept_withFlags _ _).trans (writeOperand_kept h))

theorem arith2_kept {opc : Opcode} {raw : Int → Int → Except Fault Int} {ops : List Operand} {s t : State}
    (h : arith2 opc raw ops s = .next t) : Kept s t ∨ ∃ f, t = takeFault f s := by
  rcases arith2_next h with ⟨_, _, _, _, _, _, _, hw⟩ | hf
  · exact .inl (writeArith_kept hw)
  · exact .inr hf

theorem arith1_kept {opc : Opcode} {raw : Int → Int} {ops : List Operand} {s t : State}
    (h : arith1 opc raw ops s = .next t) : Kept s t ∨ ∃ f, t = takeFault f s := by
  rcases arith1_next h with ⟨_, _, _, hw⟩ | hf
  · exact .inl (writeArith_kept hw)
  · exact .inr hf

theorem logic2_kept {opc : Opcode} {op : Int → Int → Int} {ops : List Operand} {s t : State}
    (h : logic2 opc op ops s = .next t) : Kept s t ∨ ∃ f, t = takeFault f s := by
  rcases logic2_next h with ⟨_, _, _, _, _, hw⟩ | hf
  · exact .inl ((kept_withFlags _ _).trans (writeOperand_kept hw))
  · exact .inr hf

theorem shift_kept {opc : Opcode} {op : Int → Int → Int} {ops : List Operand} {s t : State}
    (h : shift opc op ops s = .next t) : Kept s t ∨ ∃ f, t = takeFault f s := by
  rcases shift_next h with ⟨_, _, _, _, _, _, hw⟩ | hf
  · exact .inl ((kept_shiftFlags _ _ _).trans (writeReg_kept hw))
  · exact .inr hf

theorem jump_kept {opc : Opcode} {taken : Flags → Bool} {ops : List Operand} {s t : State}
    (h : jump opc taken ops s = .next t) : Kept s t ∨ ∃ f, t = takeFault f s := by
  rcases jump_next h with ⟨x, _, _, rfl⟩ | hf
  · left
    split
    · exact kept_withPc _ _
    · exact Kept.refl s
  · exact .inr hf

theorem displayOp_kept {opc : Opcode} {d : DisplayOpcode} {ops : List Operand} {s t : State}
    (h : displayOp opc d ops s = .next t) : Kept s t ∨ ∃ f, t = takeFault f s := by
  rcases displayOp_next h with ⟨_, _, rfl⟩ | ⟨_, _, _, rfl⟩ | hf
  · exact .inl (Kept.refl _)
  · exact .inl (kept_emit _ _)
  · exact .inr hf

end Sys2Proof.Machine
end

