-- ==== Sys2Proof/Laws/PerInstr.lean ====
section
/-! SUPPORT. Statements about every instruction as syntax, one lemma per constructor. -/

/-- Every opcode is listed. -/
theorem Sys2Proof.Opcode.mem_all (opc : Sys2Proof.Opcode) : opc ∈ Sys2Proof.Opcode.all := by
  cases opc <;> decide

/-- An instruction is rebuilt from its opcode and its operands, and its opcode is listed (30_encoding.md R59 builds an
instruction so). -/
def Sys2Proof.Laws.Rebuilt.Statement (i : Sys2Proof.Instr) : Prop :=
  Sys2Proof.Instr.ofOpcode i.operands i.opcode = i ∧ i.opcode ∈ Sys2Proof.Opcode.all

theorem Sys2Proof.Laws.Rebuilt.nop (ops : List Sys2Proof.Operand) :
    Sys2Proof.Laws.Rebuilt.Statement (.nop ops) := ⟨rfl, Sys2Proof.Opcode.mem_all _⟩
theorem Sys2Proof.Laws.Rebuilt.mov (ops : List Sys2Proof.Operand) :
    Sys2Proof.Laws.Rebuilt.Statement (.mov ops) := ⟨rfl, Sys2Proof.Opcode.mem_all _⟩
theorem Sys2Proof.Laws.Rebuilt.add (ops : List Sys2Proof.Operand) :
    Sys2Proof.Laws.Rebuilt.Statement (.add ops) := ⟨rfl, Sys2Proof.Opcode.mem_all _⟩
theorem Sys2Proof.Laws.Rebuilt.sub (ops : List Sys2Proof.Operand) :
    Sys2Proof.Laws.Rebuilt.Statement (.sub ops) := ⟨rfl, Sys2Proof.Opcode.mem_all _⟩
theorem Sys2Proof.Laws.Rebuilt.mul (ops : List Sys2Proof.Operand) :
    Sys2Proof.Laws.Rebuilt.Statement (.mul ops) := ⟨rfl, Sys2Proof.Opcode.mem_all _⟩
theorem Sys2Proof.Laws.Rebuilt.div (ops : List Sys2Proof.Operand) :
    Sys2Proof.Laws.Rebuilt.Statement (.div ops) := ⟨rfl, Sys2Proof.Opcode.mem_all _⟩
theorem Sys2Proof.Laws.Rebuilt.mod (ops : List Sys2Proof.Operand) :
    Sys2Proof.Laws.Rebuilt.Statement (.mod ops) := ⟨rfl, Sys2Proof.Opcode.mem_all _⟩
theorem Sys2Proof.Laws.Rebuilt.inc (ops : List Sys2Proof.Operand) :
    Sys2Proof.Laws.Rebuilt.Statement (.inc ops) := ⟨rfl, Sys2Proof.Opcode.mem_all _⟩
theorem Sys2Proof.Laws.Rebuilt.dec (ops : List Sys2Proof.Operand) :
    Sys2Proof.Laws.Rebuilt.Statement (.dec ops) := ⟨rfl, Sys2Proof.Opcode.mem_all _⟩
theorem Sys2Proof.Laws.Rebuilt.neg (ops : List Sys2Proof.Operand) :
    Sys2Proof.Laws.Rebuilt.Statement (.neg ops) := ⟨rfl, Sys2Proof.Opcode.mem_all _⟩
theorem Sys2Proof.Laws.Rebuilt.and (ops : List Sys2Proof.Operand) :
    Sys2Proof.Laws.Rebuilt.Statement (.and ops) := ⟨rfl, Sys2Proof.Opcode.mem_all _⟩
theorem Sys2Proof.Laws.Rebuilt.or (ops : List Sys2Proof.Operand) :
    Sys2Proof.Laws.Rebuilt.Statement (.or ops) := ⟨rfl, Sys2Proof.Opcode.mem_all _⟩
theorem Sys2Proof.Laws.Rebuilt.xor (ops : List Sys2Proof.Operand) :
    Sys2Proof.Laws.Rebuilt.Statement (.xor ops) := ⟨rfl, Sys2Proof.Opcode.mem_all _⟩
theorem Sys2Proof.Laws.Rebuilt.not (ops : List Sys2Proof.Operand) :
    Sys2Proof.Laws.Rebuilt.Statement (.not ops) := ⟨rfl, Sys2Proof.Opcode.mem_all _⟩
theorem Sys2Proof.Laws.Rebuilt.clr (ops : List Sys2Proof.Operand) :
    Sys2Proof.Laws.Rebuilt.Statement (.clr ops) := ⟨rfl, Sys2Proof.Opcode.mem_all _⟩
theorem Sys2Proof.Laws.Rebuilt.test (ops : List Sys2Proof.Operand) :
    Sys2Proof.Laws.Rebuilt.Statement (.test ops) := ⟨rfl, Sys2Proof.Opcode.mem_all _⟩
theorem Sys2Proof.Laws.Rebuilt.shl (ops : List Sys2Proof.Operand) :
    Sys2Proof.Laws.Rebuilt.Statement (.shl ops) := ⟨rfl, Sys2Proof.Opcode.mem_all _⟩
theorem Sys2Proof.Laws.Rebuilt.shr (ops : List Sys2Proof.Operand) :
    Sys2Proof.Laws.Rebuilt.Statement (.shr ops) := ⟨rfl, Sys2Proof.Opcode.mem_all _⟩
theorem Sys2Proof.Laws.Rebuilt.cmp (ops : List Sys2Proof.Operand) :
    Sys2Proof.Laws.Rebuilt.Statement (.cmp ops) := ⟨rfl, Sys2Proof.Opcode.mem_all _⟩
theorem Sys2Proof.Laws.Rebuilt.jmp (ops : List Sys2Proof.Operand) :
    Sys2Proof.Laws.Rebuilt.Statement (.jmp ops) := ⟨rfl, Sys2Proof.Opcode.mem_all _⟩
theorem Sys2Proof.Laws.Rebuilt.jz (ops : List Sys2Proof.Operand) :
    Sys2Proof.Laws.Rebuilt.Statement (.jz ops) := ⟨rfl, Sys2Proof.Opcode.mem_all _⟩
theorem Sys2Proof.Laws.Rebuilt.jnz (ops : List Sys2Proof.Operand) :
    Sys2Proof.Laws.Rebuilt.Statement (.jnz ops) := ⟨rfl, Sys2Proof.Opcode.mem_all _⟩
theorem Sys2Proof.Laws.Rebuilt.jn (ops : List Sys2Proof.Operand) :
    Sys2Proof.Laws.Rebuilt.Statement (.jn ops) := ⟨rfl, Sys2Proof.Opcode.mem_all _⟩
theorem Sys2Proof.Laws.Rebuilt.jnn (ops : List Sys2Proof.Operand) :
    Sys2Proof.Laws.Rebuilt.Statement (.jnn ops) := ⟨rfl, Sys2Proof.Opcode.mem_all _⟩
theorem Sys2Proof.Laws.Rebuilt.jo (ops : List Sys2Proof.Operand) :
    Sys2Proof.Laws.Rebuilt.Statement (.jo ops) := ⟨rfl, Sys2Proof.Opcode.mem_all _⟩
theorem Sys2Proof.Laws.Rebuilt.jno (ops : List Sys2Proof.Operand) :
    Sys2Proof.Laws.Rebuilt.Statement (.jno ops) := ⟨rfl, Sys2Proof.Opcode.mem_all _⟩
theorem Sys2Proof.Laws.Rebuilt.jc (ops : List Sys2Proof.Operand) :
    Sys2Proof.Laws.Rebuilt.Statement (.jc ops) := ⟨rfl, Sys2Proof.Opcode.mem_all _⟩
theorem Sys2Proof.Laws.Rebuilt.jnc (ops : List Sys2Proof.Operand) :
    Sys2Proof.Laws.Rebuilt.Statement (.jnc ops) := ⟨rfl, Sys2Proof.Opcode.mem_all _⟩
theorem Sys2Proof.Laws.Rebuilt.call (ops : List Sys2Proof.Operand) :
    Sys2Proof.Laws.Rebuilt.Statement (.call ops) := ⟨rfl, Sys2Proof.Opcode.mem_all _⟩
theorem Sys2Proof.Laws.Rebuilt.ret (ops : List Sys2Proof.Operand) :
    Sys2Proof.Laws.Rebuilt.Statement (.ret ops) := ⟨rfl, Sys2Proof.Opcode.mem_all _⟩
theorem Sys2Proof.Laws.Rebuilt.push (ops : List Sys2Proof.Operand) :
    Sys2Proof.Laws.Rebuilt.Statement (.push ops) := ⟨rfl, Sys2Proof.Opcode.mem_all _⟩
theorem Sys2Proof.Laws.Rebuilt.pop (ops : List Sys2Proof.Operand) :
    Sys2Proof.Laws.Rebuilt.Statement (.pop ops) := ⟨rfl, Sys2Proof.Opcode.mem_all _⟩
theorem Sys2Proof.Laws.Rebuilt.ldr (ops : List Sys2Proof.Operand) :
    Sys2Proof.Laws.Rebuilt.Statement (.ldr ops) := ⟨rfl, Sys2Proof.Opcode.mem_all _⟩
theorem Sys2Proof.Laws.Rebuilt.str (ops : List Sys2Proof.Operand) :
    Sys2Proof.Laws.Rebuilt.Statement (.str ops) := ⟨rfl, Sys2Proof.Opcode.mem_all _⟩
theorem Sys2Proof.Laws.Rebuilt.dsp (ops : List Sys2Proof.Operand) :
    Sys2Proof.Laws.Rebuilt.Statement (.dsp ops) := ⟨rfl, Sys2Proof.Opcode.mem_all _⟩
theorem Sys2Proof.Laws.Rebuilt.cls (ops : List Sys2Proof.Operand) :
    Sys2Proof.Laws.Rebuilt.Statement (.cls ops) := ⟨rfl, Sys2Proof.Opcode.mem_all _⟩
theorem Sys2Proof.Laws.Rebuilt.bfr (ops : List Sys2Proof.Operand) :
    Sys2Proof.Laws.Rebuilt.Statement (.bfr ops) := ⟨rfl, Sys2Proof.Opcode.mem_all _⟩
theorem Sys2Proof.Laws.Rebuilt.sb (ops : List Sys2Proof.Operand) :
    Sys2Proof.Laws.Rebuilt.Statement (.sb ops) := ⟨rfl, Sys2Proof.Opcode.mem_all _⟩
theorem Sys2Proof.Laws.Rebuilt.col (ops : List Sys2Proof.Operand) :
    Sys2Proof.Laws.Rebuilt.Statement (.col ops) := ⟨rfl, Sys2Proof.Opcode.mem_all _⟩
theorem Sys2Proof.Laws.Rebuilt.prt (ops : List Sys2Proof.Operand) :
    Sys2Proof.Laws.Rebuilt.Statement (.prt ops) := ⟨rfl, Sys2Proof.Opcode.mem_all _⟩
theorem Sys2Proof.Laws.Rebuilt.rnd (ops : List Sys2Proof.Operand) :
    Sys2Proof.Laws.Rebuilt.Statement (.rnd ops) := ⟨rfl, Sys2Proof.Opcode.mem_all _⟩
theorem Sys2Proof.Laws.Rebuilt.hlt (ops : List Sys2Proof.Operand) :
    Sys2Proof.Laws.Rebuilt.Statement (.hlt ops) := ⟨rfl, Sys2Proof.Opcode.mem_all _⟩
end

