-- ==== Sys2Proof/Laws/Step.lean ====
section
/-! SUPPORT. What exec and the step can do, said once. -/

namespace Sys2Proof.Machine

theorem execNop_next {ops : List Operand} {s t : State} (h : execNop ops s = .next t) :
    t = s ∨ ∃ f, t = takeFault f s := by
  rcases execute0_next h with ⟨_, hr⟩ | hf
  · exact .inl (by simpa using hr.symm)
  · exact .inr hf

theorem execMov_next {ops : List Operand} {s t : State} (h : execMov ops s = .next t) :
    (∃ dst src, ops = [dst, src] ∧ readable s src = true ∧
      writeOperand (capFlags s (operandValue s src)).2 dst (capFlags s (operandValue s src)).1 = .ok t) ∨
    ∃ f, t = takeFault f s := by
  rcases execute2_next h with ⟨dst, src, rfl, hr⟩ | hf
  · cases hs : readOperand s src with
    | error f => simp [hs] at hr
    | ok v =>
      obtain ⟨hsr, rfl⟩ := readOperand_ok hs
      exact .inl ⟨dst, src, rfl, hsr, by simpa [hs] using hr⟩
  · exact .inr hf

theorem execNot_next {ops : List Operand} {s t : State} (h : execNot ops s = .next t) :
    (∃ dst, ops = [dst] ∧ readable s dst = true ∧
      writeOperand (boolFlags s (intNot (operandValue s dst))) dst (intNot (operandValue s dst)) = .ok t) ∨
    ∃ f, t = takeFault f s := by
  rcases execute1_next h with ⟨dst, rfl, hr⟩ | hf
  · cases hs : readOperand s dst with
    | error f => simp [hs] at hr
    | ok v =>
      obtain ⟨hsr, rfl⟩ := readOperand_ok hs
      exact .inl ⟨dst, rfl, hsr, by simpa [hs] using hr⟩
  · exact .inr hf

theorem execClr_next {ops : List Operand} {s t : State} (h : execClr ops s = .next t) :
    (∃ a b u, ops = [a, b] ∧ writeOperand s a 0 = .ok u ∧ writeOperand u b 0 = .ok t) ∨
    ∃ f, t = takeFault f s := by
  rcases execute2_next h with ⟨a, b, rfl, hr⟩ | hf
  · cases hs : writeOperand s a 0 with
    | error f => simp [hs] at hr
    | ok u => exact .inl ⟨a, b, u, rfl, hs, by simpa [hs] using hr⟩
  · exact .inr hf

theorem execTest_next {ops : List Operand} {s t : State} (h : execTest ops s = .next t) :
    (∃ a b, ops = [a, b] ∧ readable s a = true ∧ readable s b = true ∧
      t = boolFlags s (intAnd (operandValue s a) (operandValue s b))) ∨ ∃ f, t = takeFault f s := by
  rcases execute2_next h with ⟨a, b, rfl, hr⟩ | hf
  · cases ha : readOperand s a with
    | error f => simp [ha] at hr
    | ok x =>
      cases hb : readOperand s b with
      | error f => simp [ha, hb] at hr
      | ok y =>
        obtain ⟨har, rfl⟩ := readOperand_ok ha
        obtain ⟨hbr, rfl⟩ := readOperand_ok hb
        exact .inl ⟨a, b, rfl, har, hbr, by simpa [ha, hb] using hr.symm⟩
  · exact .inr hf

theorem execCmp_next {ops : List Operand} {s t : State} (h : execCmp ops s = .next t) :
    (∃ a b, ops = [a, b] ∧ readable s a = true ∧ readable s b = true ∧
      t = arithFlags (capFlags s (operandValue s a - operandValue s b)).2
        (capFlags s (operandValue s a - operandValue s b)).1) ∨ ∃ f, t = takeFault f s := by
  rcases execute2_next h with ⟨a, b, rfl, hr⟩ | hf
  · cases ha : readOperand s a with
    | error f => simp [ha] at hr
    | ok x =>
      cases hb : readOperand s b with
      | error f => simp [ha, hb] at hr
      | ok y =>
        obtain ⟨har, rfl⟩ := readOperand_ok ha
        obtain ⟨hbr, rfl⟩ := readOperand_ok hb
        exact .inl ⟨a, b, rfl, har, hbr, by simpa [ha, hb] using hr.symm⟩
  · exact .inr hf

theorem execCall_next {ops : List Operand} {s t : State} (h : execCall ops s = .next t) :
    (∃ x u, ops = [x] ∧ readable s x = true ∧ push s s.pc = .ok u ∧ t = u.withPc (operandValue s x)) ∨
    ∃ f, t = takeFault f s := by
  rcases execute1_next h with ⟨x, rfl, hr⟩ | hf
  · cases hx : readOperand s x with
    | error f => simp [hx] at hr
    | ok v =>
      obtain ⟨hxr, rfl⟩ := readOperand_ok hx
      cases hp : push s s.pc with
      | error f => simp [hx, hp] at hr
      | ok u => exact .inl ⟨x, u, rfl, hxr, rfl, by simpa [hx, hp] using hr.symm⟩
  · exact .inr hf

theorem execRet_next {ops : List Operand} {s t : State} (h : execRet ops s = .next t) :
    (∃ v u, ops = [] ∧ pop s = .ok (v, u) ∧ t = u.withPc v) ∨ ∃ f, t = takeFault f s := by
  rcases execute0_next h with ⟨rfl, hr⟩ | hf
  · cases hp : pop s with
    | error f => simp [hp] at hr
    | ok p => exact .inl ⟨p.1, p.2, rfl, rfl, by simpa [hp] using hr.symm⟩
  · exact .inr hf

theorem execPush_next {ops : List Operand} {s t : State} (h : execPush ops s = .next t) :
    (∃ x, ops = [x] ∧ readable s x = true ∧ push s (operandValue s x) = .ok t) ∨ ∃ f, t = takeFault f s := by
  rcases execute1_next h with ⟨x, rfl, hr⟩ | hf
  · cases hx : readOperand s x with
    | error f => simp [hx] at hr
    | ok v =>
      obtain ⟨hxr, rfl⟩ := readOperand_ok hx
      exact .inl ⟨x, rfl, hxr, by simpa [hx] using hr⟩
  · exact .inr hf

theorem execPop_next {ops : List Operand} {s t : State} (h : execPop ops s = .next t) :
    (∃ i v u, ops = [.register i] ∧ pop s = .ok (v, u) ∧ writeReg u i v = .ok t) ∨ ∃ f, t = takeFault f s := by
  rcases executeReg1_next h with ⟨i, rfl, hr⟩ | hf
  · cases hp : pop s with
    | error f => simp [hp] at hr
    | ok p => exact .inl ⟨i, p.1, p.2, rfl, rfl, by simpa [hp] using hr⟩
  · exact .inr hf

theorem execLdr_next {ops : List Operand} {s t : State} (h : execLdr ops s = .next t) :
    (∃ i x, ops = [.register i, x] ∧ readable s x = true ∧ validAddr s (operandValue s x) ∧
      writeReg s i (Memory.read s.ram (operandValue s x).toNat) = .ok t) ∨ ∃ f, t = takeFault f s := by
  rcases executeReg2_next h with ⟨i, x, rfl, hr⟩ | hf
  · cases hx : readOperand s x with
    | error f => simp [hx] at hr
    | ok v =>
      obtain ⟨hxr, rfl⟩ := readOperand_ok hx
      cases hm : memRead s (operandValue s x) with
      | error f => simp [hx, hm] at hr
      | ok w =>
        obtain ⟨hv, rfl⟩ := memRead_ok hm
        exact .inl ⟨i, x, rfl, hxr, hv, by simpa [hx, hm] using hr⟩
  · exact .inr hf

theorem execStr_next {ops : List Operand} {s t : State} (h : execStr ops s = .next t) :
    (∃ x y, ops = [x, y] ∧ readable s x = true ∧ readable s y = true ∧
      memWrite s (operandValue s x) (operandValue s y) = .ok t) ∨ ∃ f, t = takeFault f s := by
  rcases execute2_next h with ⟨x, y, rfl, hr⟩ | hf
  · cases hx : readOperand s x with
    | error f => simp [hx] at hr
    | ok v =>
      obtain ⟨hxr, rfl⟩ := readOperand_ok hx
      cases hy : readOperand s y with
      | error f => simp [hx, hy] at hr
      | ok w =>
        obtain ⟨hyr, rfl⟩ := readOperand_ok hy
        exact .inl ⟨x, y, rfl, hxr, hyr, by simpa [hx, hy] using hr⟩
  · exact .inr hf

theorem execPrt_next {ops : List Operand} {s t : State} (h : execPrt ops s = .next t) :
    (∃ x, ops = [x] ∧ readable s x = true ∧
      t = if s.cfg.printing then emit s (.print (operandValue s x)) else s) ∨ ∃ f, t = takeFault f s := by
  rcases execute1_next h with ⟨x, rfl, hr⟩ | hf
  · cases hx : readOperand s x with
    | error f => simp [hx] at hr
    | ok v =>
      obtain ⟨hxr, rfl⟩ := readOperand_ok hx
      exact .inl ⟨x, rfl, hxr, by simpa [hx] using hr.symm⟩
  · exact .inr hf

theorem execRnd_next {ops : List Operand} {s t : State} (h : execRnd ops s = .next t) :
    (∃ dst, ops = [dst] ∧ writeOperand (drawRandom s).2 dst (drawRandom s).1 = .ok t) ∨ ∃ f, t = takeFault f s := by
  rcases execute1_next h with ⟨dst, rfl, hr⟩ | hf
  · exact .inl ⟨dst, rfl, hr⟩
  · exact .inr hf

theorem execHlt_next {ops : List Operand} {s t : State} (h : execHlt ops s = .next t) :
    (ops = [] ∧ t = s.withHalted true) ∨ ∃ f, t = takeFault f s := by
  rcases execute0_next h with ⟨rfl, hr⟩ | hf
  · exact .inl ⟨rfl, by simpa using hr.symm⟩
  · exact .inr hf

/-- An instruction that answers a next state took a fault, or completed and kept what no instruction changes. -/
theorem exec_kept {i : Instr} {s t : State} (h : exec i s = .next t) : Kept s t ∨ ∃ f, t = takeFault f s := by
  cases i with
  | nop ops =>
    rcases execNop_next h with rfl | hf
    · exact .inl (Kept.refl _)
    · exact .inr hf
  | mov ops =>
    rcases execMov_next h with ⟨_, _, _, _, hw⟩ | hf
    · exact .inl ((kept_withFlags _ _).trans (writeOperand_kept hw))
    · exact .inr hf
  | add ops =>
    simp only [exec, execAdd] at h
    exact arith2_kept h
  | sub ops =>
    simp only [exec, execSub] at h
    exact arith2_kept h
  | mul ops =>
    simp only [exec, execMul] at h
    exact arith2_kept h
  | div ops =>
    simp only [exec, execDiv] at h
    exact arith2_kept h
  | mod ops =>
    simp only [exec, execMod] at h
    exact arith2_kept h
  | inc ops =>
    simp only [exec, execInc] at h
    exact arith1_kept h
  | dec ops =>
    simp only [exec, execDec] at h
    exact arith1_kept h
  | neg ops =>
    simp only [exec, execNeg] at h
    exact arith1_kept h
  | and ops =>
    simp only [exec, execAnd] at h
    exact logic2_kept h
  | or ops =>
    simp only [exec, execOr] at h
    exact logic2_kept h
  | xor ops =>
    simp only [exec, execXor] at h
    exact logic2_kept h
  | not ops =>
    rcases execNot_next h with ⟨_, _, _, hw⟩ | hf
    · exact .inl ((kept_withFlags _ _).trans (writeOperand_kept hw))
    · exact .inr hf
  | clr ops =>
    rcases execClr_next h with ⟨_, _, _, _, h1, h2⟩ | hf
    · exact .inl ((writeOperand_kept h1).trans (writeOperand_kept h2))
    · exact .inr hf
  | test ops =>
    rcases execTest_next h with ⟨_, _, _, _, _, rfl⟩ | hf
    · exact .inl (kept_withFlags _ _)
    · exact .inr hf
  | shl ops =>
    simp only [exec, execShl] at h
    exact shift_kept h
  | shr ops =>
    simp only [exec, execShr] at h
    exact shift_kept h
  | cmp ops =>
    rcases execCmp_next h with ⟨_, _, _, _, _, rfl⟩ | hf
    · exact .inl ((kept_withFlags _ _).trans (kept_withFlags _ _))
    · exact .inr hf
  | jmp ops =>
    simp only [exec, execJmp] at h
    exact jump_kept h
  | jz ops =>
    simp only [exec, execJz] at h
    exact jump_kept h
  | jnz ops =>
    simp only [exec, execJnz] at h
    exact jump_kept h
  | jn ops =>
    simp only [exec, execJn] at h
    exact jump_kept h
  | jnn ops =>
    simp only [exec, execJnn] at h
    exact jump_kept h
  | jo ops =>
    simp only [exec, execJo] at h
    exact jump_kept h
  | jno ops =>
    simp only [exec, execJno] at h
    exact jump_kept h
  | jc ops =>
    simp only [exec, execJc] at h
    exact jump_kept h
  | jnc ops =>
    simp only [exec, execJnc] at h
    exact jump_kept h
  | call ops =>
    rcases execCall_next h with ⟨_, _, _, _, hp, rfl⟩ | hf
    · exact .inl ((push_kept hp).trans (kept_withPc _ _))
    · exact .inr hf
  | ret ops =>
    rcases execRet_next h with ⟨_, _, _, hp, rfl⟩ | hf
    · exact .inl ((pop_kept hp).trans (kept_withPc _ _))
    · exact .inr hf
  | push ops =>
    rcases execPush_next h with ⟨_, _, _, hp⟩ | hf
    · exact .inl (push_kept hp)
    · exact .inr hf
  | pop ops =>
    rcases execPop_next h with ⟨_, _, _, _, hp, hw⟩ | hf
    · exact .inl ((pop_kept hp).trans (writeReg_kept hw))
    · exact .inr hf
  | ldr ops =>
    rcases execLdr_next h with ⟨_, _, _, _, _, hw⟩ | hf
    · exact .inl (writeReg_kept hw)
    · exact .inr hf
  | str ops =>
    rcases execStr_next h with ⟨_, _, _, _, _, hw⟩ | hf
    · exact .inl (memWrite_kept hw)
    · exact .inr hf
  | dsp ops =>
    simp only [exec, execDsp] at h
    exact displayOp_kept h
  | cls ops =>
    simp only [exec, execCls] at h
    exact displayOp_kept h
  | bfr ops =>
    simp only [exec, execBfr] at h
    exact displayOp_kept h
  | sb ops =>
    simp only [exec, execSb] at h
    exact displayOp_kept h
  | col ops =>
    simp only [exec, execCol] at h
    exact displayOp_kept h
  | prt ops =>
    rcases execPrt_next h with ⟨_, _, _, rfl⟩ | hf
    · left
      split
      · exact kept_emit _ _
      · exact Kept.refl _
    · exact .inr hf
  | rnd ops =>
    rcases execRnd_next h with ⟨_, _, hw⟩ | hf
    · exact .inl ((kept_withDraws _ _).trans (writeOperand_kept hw))
    · exact .inr hf
  | hlt ops =>
    rcases execHlt_next h with ⟨_, rfl⟩ | hf
    · exact .inl (kept_withHalted _ _)
    · exact .inr hf

/-- The state that executes the instruction `i` whose bytes were fetched in `s`: pc0 its offset, the pc past it, the
instruction recorded. -/
def executing (i : Instr) (bytes : List Byte) (s : State) : State :=
  { s with pc0 := s.pc, pc := s.pc + bytes.length, last := some i }

/-- A fetch reads the pc and the ROM only. -/
theorem fetch_withPc0 (s : State) (v : Int) : fetch (s.withPc0 v) = fetch s := rfl

/-- Everything a step can do: nothing, when idle; halt, at the end of the ROM; take a fault of fetch, or of decode; or
execute the instruction it decoded and count it. -/
theorem step_cases {s t : State} (h : step s = .next t) :
    (isIdle s = true ∧ t = s) ∨
    (isIdle s = false ∧ fetch s = .ok none ∧ t = { s with pc0 := s.pc, halted := true }) ∨
    (isIdle s = false ∧ ∃ f, fetch s = .error f ∧ t = takeFault f (s.withPc0 s.pc)) ∨
    (isIdle s = false ∧ ∃ bytes e, fetch s = .ok (some bytes) ∧ decode s.cfg.opcodeIds bytes = .error e ∧
      t = takeFault (codecFault s.pc e) { s with pc0 := s.pc, pc := s.pc + bytes.length }) ∨
    (isIdle s = false ∧ ∃ bytes i u, fetch s = .ok (some bytes) ∧ decode s.cfg.opcodeIds bytes = .ok i ∧
      exec i (executing i bytes s) = .next u ∧ t = countCompleted u) := by
  unfold step stepCore at h
  split at h
  · rename_i hi
    exact .inl ⟨hi, by simpa using h.symm⟩
  · rename_i hi
    have hi' : isIdle s = false := by simpa using hi
    unfold cycle at h
    rw [fetch_withPc0] at h
    cases hf : fetch s with
    | error f =>
      rw [hf] at h
      exact .inr (.inr (.inl ⟨hi', f, rfl, by simpa using h.symm⟩))
    | ok o =>
      cases o with
      | none =>
        rw [hf] at h
        exact .inr (.inl ⟨hi', rfl, by cases h; rfl⟩)
      | some bytes =>
        rw [hf] at h
        simp only [runFetched] at h
        cases hd : decode s.cfg.opcodeIds bytes with
        | error e =>
          simp only [withPc_cfg, withPc0_cfg, hd] at h
          exact .inr (.inr (.inr (.inl ⟨hi', bytes, e, rfl, hd, by cases h; rfl⟩)))
        | ok i =>
          simp only [withPc_cfg, withPc0_cfg, hd, runDecoded] at h
          change (match exec i (executing i bytes s) with
            | .next t => Host.Outcome.next (countCompleted t)
            | .fault f => .fault f
            | .refused r => .refused r) = _ at h
          cases he : exec i (executing i bytes s) with
          | next u =>
            rw [he] at h
            exact .inr (.inr (.inr (.inr ⟨hi', bytes, i, u, rfl, hd, he, by simpa using h.symm⟩)))
          | fault f => rw [he] at h; cases h
          | refused r => rw [he] at h; cases h

end Sys2Proof.Machine
end

