-- ==== Sys2Proof/Tests/Slice0.lean ====
section
/-! SUPPORT. Tests of the model on the words and vectors of the spec (95_test_vectors.md and the examples of the rules),
and, for every statement with hypotheses, a state and operands that meet them. -/

open Sys2Proof Sys2Proof.Machine

/-! WellFormed: each check refuses a term. -/

theorem test_wf_three_operands : Instr.countWf (.nop [.register 0, .register 0, .register 0]) = false := by decide
theorem test_wf_register_16 : Operand.wf (.register 16) = false := by decide
theorem test_wf_register_negative : Operand.wf (.register (-1)) = false := by decide
theorem test_wf_register_memory_16 : Operand.wf (.registerMemory 16) = false := by decide
theorem test_wf_register_memory_negative : Operand.wf (.registerMemory (-1)) = false := by decide
theorem test_wf_immediate_high : Operand.wf (.immediate 2147483648) = false := by decide
theorem test_wf_immediate_low : Operand.wf (.immediate (-2147483649)) = false := by decide
theorem test_wf_address_65536 : Operand.wf (.memoryAddress 65536) = false := by decide
theorem test_wf_address_negative : Operand.wf (.memoryAddress (-1)) = false := by decide
theorem test_wf_bad_second_operand : Instr.wf (.add [.register 0, .register 16]) = false := by decide
theorem test_wf_good : Instr.wf (.str [.immediate 65535, .immediate (-2147483648)]) = true := by decide

/-! Decoding: a word of every opcode, written out from 30_encoding.md R50 to R56 and R62. -/

/-- The decoder under the reference numbering. -/
def decodeRef (w : List Byte) : Except CodecError Instr := decode referenceOpcodeIds w

theorem test_decode_nop : decodeRef [0x00] = .ok (.nop []) := by decide
theorem test_decode_mov :
    decodeRef [0x81, 0x04, 0x00, 0x0A, 0x00, 0x00, 0x00] = .ok (.mov [.register 0, .immediate 10]) := by decide
theorem test_decode_add :
    decodeRef [0x82, 0x0B, 0x01, 0x34, 0x12] = .ok (.add [.registerMemory 1, .memoryAddress 0x1234]) := by decide
theorem test_decode_sub :
    decodeRef [0x83, 0x04, 0x00, 0x07, 0x00, 0x00, 0x00] = .ok (.sub [.register 0, .immediate 7]) := by decide
theorem test_decode_mul : decodeRef [0x84, 0x00, 0x00, 0x00] = .ok (.mul [.register 0, .register 0]) := by decide
theorem test_decode_div :
    decodeRef [0x85, 0x04, 0x00, 0x02, 0x00, 0x00, 0x00] = .ok (.div [.register 0, .immediate 2]) := by decide
theorem test_decode_mod :
    decodeRef [0x86, 0x08, 0x00, 0x02, 0x01] = .ok (.mod [.register 0, .memoryAddress 0x0102]) := by decide
theorem test_decode_inc : decodeRef [0x47, 0x00, 0x00] = .ok (.inc [.register 0]) := by decide
theorem test_decode_dec : decodeRef [0x48, 0x03, 0x07] = .ok (.dec [.registerMemory 7]) := by decide
theorem test_decode_neg : decodeRef [0x49, 0x02, 0xFF, 0x00] = .ok (.neg [.memoryAddress 255]) := by decide
theorem test_decode_and :
    decodeRef [0x8A, 0x07, 0x02, 0xF0, 0x00, 0x00, 0x00] = .ok (.and [.registerMemory 2, .immediate 240]) := by decide
theorem test_decode_or :
    decodeRef [0x8B, 0x0D, 0x01, 0x00, 0x00, 0x00, 0x0F] = .ok (.or [.immediate 1, .registerMemory 15]) := by decide
theorem test_decode_xor :
    decodeRef [0x8C, 0x02, 0x00, 0x01, 0x03] = .ok (.xor [.memoryAddress 256, .register 3]) := by decide
theorem test_decode_not : decodeRef [0x4D, 0x00, 0x00] = .ok (.not [.register 0]) := by decide
theorem test_decode_clr : decodeRef [0x8E, 0x00, 0x0F, 0x0E] = .ok (.clr [.register 15, .register 14]) := by decide
theorem test_decode_test :
    decodeRef [0x8F, 0x04, 0x03, 0x0F, 0x00, 0x00, 0x00] = .ok (.test [.register 3, .immediate 15]) := by decide
theorem test_decode_shl :
    decodeRef [0x90, 0x04, 0x01, 0x03, 0x00, 0x00, 0x00] = .ok (.shl [.register 1, .immediate 3]) := by decide
theorem test_decode_shr : decodeRef [0x91, 0x0C, 0x02, 0x05] = .ok (.shr [.register 2, .registerMemory 5]) := by decide
theorem test_decode_cmp :
    decodeRef [0x92, 0x05, 0x03, 0x00, 0x00, 0x00, 0x05, 0x00, 0x00, 0x00] = .ok (.cmp [.immediate 3, .immediate 5]) := by decide
theorem test_decode_jmp : decodeRef [0x53, 0x01, 0xFF, 0xFF, 0xFF, 0xFF] = .ok (.jmp [.immediate (-1)]) := by decide
theorem test_decode_jz : decodeRef [0x54, 0x01, 0x14, 0x00, 0x00, 0x00] = .ok (.jz [.immediate 20]) := by decide
theorem test_decode_jnz : decodeRef [0x55, 0x01, 0x0E, 0x00, 0x00, 0x00] = .ok (.jnz [.immediate 14]) := by decide
theorem test_decode_jn : decodeRef [0x56, 0x00, 0x04] = .ok (.jn [.register 4]) := by decide
theorem test_decode_jnn : decodeRef [0x57, 0x01, 0x00, 0x00, 0x00, 0x00] = .ok (.jnn [.immediate 0]) := by decide
theorem test_decode_jo : decodeRef [0x58, 0x01, 0x1C, 0x00, 0x00, 0x00] = .ok (.jo [.immediate 28]) := by decide
theorem test_decode_jno : decodeRef [0x59, 0x02, 0x03, 0x00] = .ok (.jno [.memoryAddress 3]) := by decide
theorem test_decode_jc :
    decodeRef [0x5A, 0x01, 0x00, 0x00, 0x00, 0x80] = .ok (.jc [.immediate (-2147483648)]) := by decide
theorem test_decode_jnc : decodeRef [0x5B, 0x03, 0x01] = .ok (.jnc [.registerMemory 1]) := by decide
theorem test_decode_call : decodeRef [0x5C, 0x01, 0x0E, 0x00, 0x00, 0x00] = .ok (.call [.immediate 14]) := by decide
theorem test_decode_ret : decodeRef [0x1D] = .ok (.ret []) := by decide
theorem test_decode_push : decodeRef [0x5E, 0x02, 0x64, 0x00] = .ok (.push [.memoryAddress 100]) := by decide
theorem test_decode_pop : decodeRef [0x5F, 0x00, 0x03] = .ok (.pop [.register 3]) := by decide
theorem test_decode_ldr :
    decodeRef [0xA0, 0x08, 0x00, 0x05, 0x00] = .ok (.ldr [.register 0, .memoryAddress 5]) := by decide
theorem test_decode_str :
    decodeRef [0xA1, 0x05, 0xFF, 0xFF, 0x00, 0x00, 0x00, 0x00, 0x00, 0x80] = .ok (.str [.immediate 65535, .immediate (-2147483648)]) := by decide
theorem test_decode_dsp : decodeRef [0xA2, 0x00, 0x00, 0x01] = .ok (.dsp [.register 0, .register 1]) := by decide
theorem test_decode_cls : decodeRef [0x23] = .ok (.cls []) := by decide
theorem test_decode_bfr : decodeRef [0x64, 0x00, 0x02] = .ok (.bfr [.register 2]) := by decide
theorem test_decode_sb : decodeRef [0x65, 0x01, 0x01, 0x00, 0x00, 0x00] = .ok (.sb [.immediate 1]) := by decide
theorem test_decode_col : decodeRef [0x66, 0x01, 0xFF, 0x00, 0x00, 0x00] = .ok (.col [.immediate 255]) := by decide
theorem test_decode_prt : decodeRef [0x67, 0x00, 0x00] = .ok (.prt [.register 0]) := by decide
theorem test_decode_rnd : decodeRef [0x68, 0x00, 0x05] = .ok (.rnd [.register 5]) := by decide
theorem test_decode_hlt : decodeRef [0x29] = .ok (.hlt []) := by decide

/-! The refusals and the corners of the codec (95_test_vectors.md 2.1, 2.2). -/

theorem test_refused_count0_long : decodeRef [0x00, 0x00] = .error .decodingError := by decide
theorem test_refused_count3 : decodeRef [0xC1] = .error .decodingError := by decide
theorem test_refused_count3_before_id : decodeRef [0xFF] = .error .decodingError := by decide
theorem test_refused_type_byte_bit4 : decodeRef [0x47, 0x10, 0x00] = .error .decodingError := by decide
theorem test_refused_type_byte_bit2_one_operand : decodeRef [0x47, 0x04, 0x00] = .error .decodingError := by decide
theorem test_refused_register_byte_bit4 : decodeRef [0x47, 0x00, 0x10] = .error .decodingError := by decide
theorem test_refused_immediate_short : decodeRef [0x47, 0x01, 0x00] = .error .decodingError := by decide
theorem test_refused_one_byte_more : decodeRef [0x47, 0x00, 0x00, 0x00] = .error .decodingError := by decide
theorem test_refused_no_type_byte : decodeRef [0x47] = .error .decodingError := by decide
theorem test_refused_empty : decodeRef [] = .error .decodingError := by decide
theorem test_refused_id_63 : decodeRef [0x3F] = .error (.invalidOpcode 63) := by decide
theorem test_refused_id_42 : decodeRef [0x2A] = .error (.invalidOpcode 42) := by decide
theorem test_length_7 : instrLength 0x81 0x04 = some 7 := by decide
theorem test_length_10 : instrLength 0x81 0x05 = some 10 := by decide
theorem test_length_5 : instrLength 0x82 0x0B = some 5 := by decide
theorem test_length_3 : instrLength 0x47 0x03 = some 3 := by decide
theorem test_length_1 : instrLength 0x29 0xFF = some 1 := by decide

/-- The encoder under the reference numbering. -/
def encodeRef (i : Instr) : Except CodecError (List Byte) := encode referenceOpcodeIds i

theorem test_encode_mov :
    encodeRef (.mov [.register 0, .immediate 10]) = .ok [0x81, 0x04, 0x00, 0x0A, 0x00, 0x00, 0x00] := by decide
theorem test_encode_hlt : encodeRef (.hlt []) = .ok [0x29] := by decide
theorem test_encode_push : encodeRef (.push [.memoryAddress 100]) = .ok [0x5E, 0x02, 0x64, 0x00] := by decide
theorem test_encode_jnc : encodeRef (.jnc [.registerMemory 1]) = .ok [0x5B, 0x03, 0x01] := by decide
theorem test_encode_jmp : encodeRef (.jmp [.immediate (-1)]) = .ok [0x53, 0x01, 0xFF, 0xFF, 0xFF, 0xFF] := by decide
theorem test_encode_add :
    encodeRef (.add [.registerMemory 1, .memoryAddress 0x1234]) = .ok [0x82, 0x0B, 0x01, 0x34, 0x12] := by decide
theorem test_encode_clr : encodeRef (.clr [.register 15, .register 14]) = .ok [0x8E, 0x00, 0x0F, 0x0E] := by decide
theorem test_encode_mov_memory :
    encodeRef (.mov [.memoryAddress 1, .memoryAddress 2]) = .ok [0x81, 0x0A, 0x01, 0x00, 0x02, 0x00] := by decide
theorem test_encode_three_operands :
    encodeRef (.add [.register 0, .register 0, .register 0]) = .error (.tooManyOperands 3) := by decide
theorem test_encode_immediate_high : encodeRef (.jmp [.immediate 2147483648]) = .error (.payloadRange 2147483648) := by
  decide
theorem test_encode_address_negative : encodeRef (.push [.memoryAddress (-1)]) = .error (.payloadRange (-1)) :=
  by decide
theorem test_encode_register_16 : encodeRef (.inc [.register 16]) = .error (.payloadRange 16) := by decide

/-! One instruction, on a small state. -/

/-- The constructed machine of the tests, with the default parameters and the ROM given. -/
def machine (rom : List Byte) : State := construct Config.default rom

/-- The machine with words in its first registers. -/
def withLow (vs : List Int) : State := (machine []).withRegs (vs ++ List.replicate (16 - vs.length) 0)

/-- Four flags from their letters' values, in the spec's order Z, N, C, O. -/
def znco (z n c o : Nat) : Flags := ⟨z == 1, n == 1, c == 1, o == 1⟩

/-- The state with another width of capping. -/
def withBits (b : Nat) (s : State) : State := { s with cfg := { s.cfg with bits := b } }

/-- Register `i` and the flags after an instruction that answers a next state. -/
def regAndFlags (i : Instr) (s : State) (r : Nat) : Option (Option Int × Flags) :=
  (nextState (exec i s)).map fun t => (t.regs[r]?, t.flags)

/-- The RAM word at an address after an instruction. -/
def ramAfter (i : Instr) (s : State) (a : Nat) : Option Int :=
  (nextState (exec i s)).map fun t => Memory.read t.ram a

/-- The pc and the stack after an instruction. -/
def pcAndStack (i : Instr) (s : State) : Option (Int × List Int) :=
  (nextState (exec i s)).map fun t => (t.pc, t.stack)

/-- The fault recorded by an instruction. -/
def faultAfter (i : Instr) (s : State) : Option Fault :=
  (nextState (exec i s)).bind fun t => t.fault.map FaultRecord.fault

/-- The events after an instruction. -/
def eventsAfter (i : Instr) (s : State) : Option (List Event) := (nextState (exec i s)).map State.events

theorem test_nop : nextState (exec (.nop []) (withLow [3])) = some (withLow [3]) := by decide
/-- TM3, with Z and N kept. -/
theorem test_mov_overflow : regAndFlags (.mov [.register 0, .immediate 200]) (withBits 8 ((machine []).withFlags (znco 1 1 0 0))) 0 =
    some (some (-56), znco 1 1 0 1) := by decide
/-- TM9. -/
theorem test_mov_carry : regAndFlags (.mov [.register 0, .immediate (-129)]) (withBits 8 (machine [])) 0 =
    some (some 127, znco 0 0 1 1) := by decide
/-- TA1. -/
theorem test_add_wraps : regAndFlags (.add [.register 0, .immediate 1]) (withLow [2147483647]) 0 =
    some (some (-2147483648), znco 0 1 0 1) := by decide
/-- TS3. -/
theorem test_add_source_example : regAndFlags (.add [.register 0, .immediate 1]) (withBits 8 (withLow [127])) 0 =
    some (some (-128), znco 0 1 0 1) := by decide
/-- TA5. -/
theorem test_sub_wraps : regAndFlags (.sub [.register 0, .immediate 1]) (withLow [-2147483648]) 0 =
    some (some 2147483647, znco 0 0 1 1) := by decide
/-- TA8. -/
theorem test_sub_self : regAndFlags (.sub [.register 0, .register 0]) (withLow [9]) 0 =
    some (some 0, znco 1 0 0 0) := by decide
/-- TA9. -/
theorem test_mul_zero : regAndFlags (.mul [.register 0, .register 0]) (withLow [65536]) 0 =
    some (some 0, znco 1 0 1 1) := by decide
/-- TA10. -/
theorem test_mul_min : regAndFlags (.mul [.register 0, .immediate (-1)]) (withLow [-2147483648]) 0 =
    some (some (-2147483648), znco 0 1 0 1) := by decide
/-- TA13. -/
theorem test_div_negative : regAndFlags (.div [.register 0, .immediate 2]) (withLow [-7]) 0 =
    some (some (-4), znco 0 1 1 0) := by decide
/-- TA16. -/
theorem test_div_min : regAndFlags (.div [.register 0, .immediate (-1)]) (withLow [-2147483648]) 0 =
    some (some (-2147483648), znco 0 1 0 1) := by decide
/-- TA19. -/
theorem test_mod_divisor_sign : regAndFlags (.mod [.register 0, .immediate (-2)]) (withLow [7]) 0 =
    some (some (-1), znco 0 1 1 0) := by decide
/-- TA18. -/
theorem test_mod_negative_dividend : regAndFlags (.mod [.register 0, .immediate 2]) (withLow [-7]) 0 =
    some (some 1, znco 0 0 0 0) := by decide
/-- TA27. -/
theorem test_inc_wraps : regAndFlags (.inc [.register 0]) (withLow [2147483647]) 0 =
    some (some (-2147483648), znco 0 1 0 1) := by decide
/-- TA37. -/
theorem test_inc_memory : ramAfter (.inc [.memoryAddress 7]) ((machine []).withRam [(7, 41)]) 7 = some 42 := by decide
/-- TA31. -/
theorem test_dec_wraps : regAndFlags (.dec [.register 0]) (withLow [-2147483648]) 0 =
    some (some 2147483647, znco 0 0 1 1) := by decide
/-- TA32. -/
theorem test_dec_to_zero : regAndFlags (.dec [.register 0]) (withLow [1]) 0 =
    some (some 0, znco 1 0 0 0) := by decide
/-- TA33. -/
theorem test_neg_min : regAndFlags (.neg [.register 0]) (withLow [-2147483648]) 0 =
    some (some (-2147483648), znco 0 1 0 1) := by decide
/-- TA34. -/
theorem test_neg_positive : regAndFlags (.neg [.register 0]) (withLow [5]) 0 =
    some (some (-5), znco 0 1 1 0) := by decide
/-- TB5. -/
theorem test_and_negative : regAndFlags (.and [.register 0, .immediate (-1)]) ((withLow [-1]).withFlags (znco 0 1 1 1)) 0 =
    some (some (-1), znco 0 0 0 0) := by decide
/-- TB9. -/
theorem test_and_uncapped : regAndFlags (.and [.register 0, .immediate 2147483647]) (withBits 8 (withLow [-1])) 0 =
    some (some 2147483647, znco 0 0 0 0) := by decide
/-- TB2. -/
theorem test_or : regAndFlags (.or [.register 0, .immediate 10]) (withLow [12]) 0 =
    some (some 14, znco 0 0 0 0) := by decide
/-- TB3. -/
theorem test_xor : regAndFlags (.xor [.register 0, .immediate 10]) (withLow [12]) 0 =
    some (some 6, znco 0 0 0 0) := by decide
/-- TB4. -/
theorem test_xor_self : regAndFlags (.xor [.register 0, .register 0]) (withLow [77]) 0 =
    some (some 0, znco 1 0 0 0) := by decide
/-- TB8. -/
theorem test_not_min : regAndFlags (.not [.register 0]) (withLow [-2147483648]) 0 =
    some (some 2147483647, znco 0 0 0 0) := by decide
/-- TB7. -/
theorem test_not_minus_one : regAndFlags (.not [.register 0]) (withLow [-1]) 0 =
    some (some 0, znco 1 0 0 0) := by decide
/-- TB11: the second write goes to the address after the first. -/
theorem test_clr_second_address :
    (nextState (exec (.clr [.register 0, .registerMemory 0]) ((withLow [4]).withRam [(0, 9), (4, 7)]))).map
      (fun t => (t.regs[0]?, t.ram)) = some (some 0, [(4, 7)]) := by decide
/-- TB12. -/
theorem test_clr_immediate : faultAfter (.clr [.register 0, .immediate 5]) (machine []) = some (.invalidWriteTarget 5) := by
  decide
/-- TB13. -/
theorem test_test_and_zero : regAndFlags (.test [.register 3, .immediate 15]) (withLow [0, 0, 0, 240]) 3 =
    some (some 240, znco 1 0 0 0) := by decide
/-- TB15. -/
theorem test_shl_keeps_c_o : regAndFlags (.shl [.register 1, .immediate 3]) ((withLow [0, 5]).withFlags (znco 0 0 1 1)) 1 =
    some (some 40, znco 0 0 1 1) := by decide
/-- TB22. -/
theorem test_shl_uncapped : regAndFlags (.shl [.register 1, .immediate 32]) (withLow [0, 1]) 1 =
    some (some 4294967296, znco 0 0 0 0) := by decide
/-- TB18. -/
theorem test_shr_floor : regAndFlags (.shr [.register 2, .immediate 1]) (withLow [0, 0, -5]) 2 =
    some (some (-3), znco 0 0 0 0) := by decide
/-- TB20. -/
theorem test_shr_flags_of_result : regAndFlags (.shr [.register 0, .immediate 100]) ({ (withLow [-1]) with cfg := { Config.default with shiftFlagSource := .result } }) 0 =
    some (some (-1), znco 0 1 0 0) := by decide
/-- TC2. -/
theorem test_cmp_less : regAndFlags (.cmp [.immediate 3, .immediate 5]) (machine []) 0 =
    some (some 0, znco 0 1 1 0) := by decide
/-- TC4. -/
theorem test_cmp_wraps : regAndFlags (.cmp [.immediate (-2147483648), .immediate 1]) (machine []) 0 =
    some (some 0, znco 0 0 1 1) := by decide
/-- TF9. -/
theorem test_jmp : pcAndStack (.jmp [.immediate (-1)]) (machine []) = some (-1, []) := by decide
/-- TC5. -/
theorem test_jz_taken : pcAndStack (.jz [.immediate 20]) ((machine []).withFlags (znco 1 0 0 0)) = some (20, []) :=
  by decide
/-- TC6, the pc already past the jump. -/
theorem test_jz_not_taken : pcAndStack (.jz [.immediate 20]) ((machine []).withPc 16) = some (16, []) := by decide
/-- R99. -/
theorem test_jnz_taken : pcAndStack (.jnz [.immediate 14]) ((machine []).withFlags (znco 0 1 1 1)) = some (14, []) :=
  by decide
/-- R99. -/
theorem test_jnz_not_taken : pcAndStack (.jnz [.immediate 14]) ((machine []).withFlags (znco 1 0 0 0)) = some (0, []) :=
  by decide
/-- TC8. -/
theorem test_jn_taken : pcAndStack (.jn [.register 4]) ((withLow [0, 0, 0, 0, 40]).withFlags (znco 0 1 0 0)) = some (40, []) :=
  by decide
/-- TC9. -/
theorem test_jnn_not_taken : pcAndStack (.jnn [.immediate 0]) (((machine []).withPc 16).withFlags (znco 0 1 0 0)) = some (16, []) :=
  by decide
/-- TC10. -/
theorem test_jo_taken : pcAndStack (.jo [.immediate 28]) ((machine []).withFlags (znco 0 0 0 1)) = some (28, []) :=
  by decide
/-- TC11. -/
theorem test_jno_taken : pcAndStack (.jno [.memoryAddress 3]) (((machine []).withRam [(3, 12)]).withFlags (znco 1 1 1 0)) = some (12, []) :=
  by decide
/-- TC12. -/
theorem test_jc_taken : pcAndStack (.jc [.immediate 0]) (((machine []).withPc 9).withFlags (znco 0 0 1 0)) = some (0, []) :=
  by decide
/-- TC13. -/
theorem test_jnc_taken : pcAndStack (.jnc [.registerMemory 1]) (((withLow [0, 2]).withRam [(2, 7)]).withFlags (znco 1 1 0 1)) = some (7, []) :=
  by decide
/-- TC14, the pc already past the CALL. -/
theorem test_call : pcAndStack (.call [.immediate 14]) ((machine []).withPc 13) = some (14, [13]) := by decide
/-- TC15. -/
theorem test_ret : pcAndStack (.ret []) ((machine []).withStack [13]) = some (13, []) := by decide
/-- TK4. -/
theorem test_push_uncapped : pcAndStack (.push [.immediate 1000]) (withBits 8 (machine [])) = some (0, [1000]) :=
  by decide
/-- TK2. -/
theorem test_pop_takes_the_top :
    (nextState (exec (.pop [.register 0]) ((machine []).withStack [1, 2]))).map (fun t => (t.regs[0]?, t.stack)) =
      some (some 2, [1]) := by decide
/-- TK6. -/
theorem test_ldr_register_address : regAndFlags (.ldr [.register 0, .register 1]) ((withLow [0, 5]).withRam [(5, 42)]) 0 =
    some (some 42, znco 0 0 0 0) := by decide
/-- TK7. -/
theorem test_ldr_memory_operand : regAndFlags (.ldr [.register 0, .memoryAddress 5]) ((withLow []).withRam [(5, 7), (7, 99)]) 0 =
    some (some 99, znco 0 0 0 0) := by decide
/-- TK9. -/
theorem test_str : ramAfter (.str [.immediate 0, .register 1]) (withLow [0, 15]) 0 = some 15 := by decide
/-- TK10. -/
theorem test_str_memory_operand :
    ramAfter (.str [.memoryAddress 5, .immediate 7]) ((machine []).withRam [(5, 3)]) 3 = some 7 := by decide

/-- The machine with a Display. -/
def displayMachine : State := { withLow [3, 4] with cfg := { Config.default with displayPresent := true } }

/-- TI3. -/
theorem test_dsp : eventsAfter (.dsp [.register 0, .register 1]) displayMachine = some [.display .dsp [3, 4]] :=
  by decide
/-- TI2. -/
theorem test_dsp_no_display :
    nextState (exec (.dsp [.memoryAddress 5000]) (machine [])) = some (machine []) := by decide
/-- TI5. -/
theorem test_cls : eventsAfter (.cls []) displayMachine = some [.display .cls []] := by decide
theorem test_bfr : eventsAfter (.bfr [.register 1]) displayMachine = some [.display .bfr [4]] := by decide
theorem test_sb : eventsAfter (.sb [.immediate 1]) displayMachine = some [.display .sb [1]] := by decide
/-- TI6. -/
theorem test_col : eventsAfter (.col [.immediate 255]) displayMachine = some [.display .col [255]] := by decide
/-- TI7. -/
theorem test_prt : eventsAfter (.prt [.register 0])
    { withLow [15] with cfg := { Config.default with printing := true } } = some [.print 15] := by decide
/-- TI9 and TI11: the drawn value is written as it is, and the flags are kept. -/
theorem test_rnd : regAndFlags (.rnd [.register 5]) (withBits 8 ((machine []).withFlags (znco 1 0 1 0))) 5 =
    some (some ((Config.rndDraw 0).toNat : Int), znco 1 0 1 0) := by rfl
theorem test_hlt : (nextState (exec (.hlt []) (machine []))).map State.halted = some true := by decide

/-! Faults. -/

/-- TM11. -/
theorem test_fault_mov_immediate :
    faultAfter (.mov [.immediate 5, .register 0]) (machine []) = some (.invalidWriteTarget 5) := by decide
/-- TM12. -/
theorem test_fault_mov_ram_end :
    faultAfter (.mov [.memoryAddress 1024, .immediate 1]) (machine []) = some (.accessViolation 1024) := by decide
/-- TM14. -/
theorem test_fault_mov_negative_address :
    faultAfter (.mov [.register 0, .registerMemory 1]) (withLow [0, -1]) = some (.accessViolation (-1)) := by decide
/-- TA23. -/
theorem test_fault_div_zero :
    faultAfter (.div [.register 0, .immediate 0]) (withLow [5]) = some .divisionByZero := by decide
/-- TA25. -/
theorem test_fault_div_before_write :
    faultAfter (.div [.immediate 5, .immediate 0]) (machine []) = some .divisionByZero := by decide
/-- TA24. -/
theorem test_fault_mod_zero :
    faultAfter (.mod [.register 0, .immediate 0]) (machine []) = some .divisionByZero := by decide
/-- TA38. -/
theorem test_fault_register :
    faultAfter (.inc [.register 5]) ({ machine [] with cfg := { Config.default with registerCount := 4 } }) = some (.invalidRegister 5) := by decide
/-- TB24. -/
theorem test_fault_shift_amount :
    faultAfter (.shl [.register 1, .immediate (-1)]) (machine []) = some (.negativeShiftAmount (-1)) := by decide
/-- TB25. -/
theorem test_fault_shift_form :
    faultAfter (.shl [.memoryAddress 0, .immediate 1]) (machine []) = some (.operandFormRefused .shl 0) := by decide
/-- TC7. -/
theorem test_fault_jz_target :
    faultAfter (.jz [.memoryAddress 2000]) (machine []) = some (.accessViolation 2000) := by decide
/-- TC16. -/
theorem test_fault_call_full :
    faultAfter (.call [.immediate 0]) ({ machine [] with cfg := { Config.default with stackSize := 0 } }) = some (.stackOverflow 0) := by decide
/-- TC17. -/
theorem test_fault_call_reads_first :
    faultAfter (.call [.memoryAddress 5000]) ({ machine [] with cfg := { Config.default with stackSize := 0 } }) = some (.accessViolation 5000) := by decide
/-- TC18. -/
theorem test_fault_ret_empty : faultAfter (.ret []) (machine []) = some (.stackUnderflow 0) := by decide
/-- TK3. -/
theorem test_fault_pop_empty : faultAfter (.pop [.register 0]) (machine []) = some (.stackUnderflow 0) := by decide
/-- TK8. -/
theorem test_fault_ldr_end :
    faultAfter (.ldr [.register 0, .immediate 1024]) (machine []) = some (.accessViolation 1024) := by decide
/-- TK11. -/
theorem test_fault_str_end :
    faultAfter (.str [.immediate 1024, .immediate 1]) (machine []) = some (.accessViolation 1024) := by decide
/-- TK12. -/
theorem test_fault_ldr_form :
    faultAfter (.ldr [.memoryAddress 0, .immediate 5]) (machine []) = some (.operandFormRefused .ldr 0) := by decide
/-- TI4. -/
theorem test_fault_dsp_read :
    faultAfter (.dsp [.memoryAddress 5000]) (displayMachine) = some (.accessViolation 5000) := by decide
/-- TI8. -/
theorem test_fault_prt_reads :
    faultAfter (.prt [.memoryAddress 5000]) (machine []) = some (.accessViolation 5000) := by decide
/-- TI10. -/
theorem test_fault_rnd_immediate :
    faultAfter (.rnd [.immediate 5]) (machine []) = some (.invalidWriteTarget 5) := by decide
/-- TI13. -/
theorem test_fault_hlt_count :
    faultAfter (.hlt [.immediate 1]) (machine []) = some (.operandCountMismatch .hlt 1) := by decide

/-! The step. -/

/-- What a host sees of one step: what it returns, the pc unless it faulted, and the counter. -/
def observe (s : State) : Option (StepResult × Option Int × Nat) :=
  (nextState (step s)).map fun t => (stepResult s t, if t.fault.isSome then none else some t.pc, t.icount)

/-- TF1. -/
theorem test_step_empty_rom : observe (machine []) = some (.halted, some 0, 0) := by decide
/-- TF2. -/
theorem test_step_hlt : observe (machine [0x29]) = some (.executed, some 1, 1) := by decide
/-- TF3. -/
theorem test_step_truncated : observe (machine [0x81, 0x04, 0x00]) = some (.fault (.accessViolation 3), none, 0) := by
  decide
/-- TF4. -/
theorem test_step_no_type_byte : observe (machine [0x47]) = some (.fault (.accessViolation 1), none, 0) := by decide
/-- TF5. -/
theorem test_step_count3 : observe (machine [0xC1, 0x00]) = some (.fault (.decodingError 0), none, 0) := by decide
/-- TF6. -/
theorem test_step_invalid_opcode : observe (machine [0x3F]) = some (.fault (.invalidOpcode 63), none, 0) := by decide
/-- TF7. -/
theorem test_step_inc_no_operand : observe (machine [0x07]) = some (.fault (.operandCountMismatch .inc 0), none, 0) := by
  decide
/-- TF8. -/
theorem test_step_pop_immediate : observe (machine [0x5F, 0x01, 0x05, 0x00, 0x00, 0x00]) =
    some (.fault (.operandFormRefused .pop 0), none, 0) := by decide
/-- TF9, its second step. -/
theorem test_step_negative_pc : observe ((machine [0x29]).withPc (-1)) = some (.fault (.accessViolation (-1)), none, 0) :=
  by decide
/-- TF12: the step after `reset()` is idle. -/
theorem test_step_after_reset : observe (hostReset (machine [0x29])) = some (.idle, some 0, 0) := by decide
/-- TF13. -/
theorem test_step_after_resume : observe (resume (hostReset (machine [0x29]))) = some (.executed, some 1, 1) :=
  by decide
/-- P6: the fault names the offset of its instruction, and the instruction is the last decoded one. -/
theorem test_step_fault_record :
    (nextState (step ((machine (List.replicate 7 0 ++ [0x85, 0x04, 0x00, 0, 0, 0, 0])).withPc 7))).map
      (fun t => (t.fault, t.last)) =
    some (some ⟨.divisionByZero, 7⟩, some (.div [.register 0, .immediate 0])) := by decide
/-- A JMP r0 placed at the pc of State.reset is the next instruction that runs. -/
theorem test_step_withFetchWord : observe (State.reset.withFetchWord 8 0x53) = some (.executed, some 0, 1) := by decide
theorem test_table_word : decodeTableWord 16 0x0081 = some (.mov [.register 0, .register 0]) := by decide
theorem test_table_word_refused : decodeTableWord 8 0x3F = none := by decide
/-- TS7. -/
theorem test_assemble : assemble Config.default "loop: INC r0 \n JMP loop".toList =
    .ok [0x47, 0x00, 0x00, 0x53, 0x01, 0x00, 0x00, 0x00, 0x00] := by decide
/-- R71: a wrong line is named. -/
theorem test_assemble_error : assemble Config.default "NOP\nFOO r0".toList = .error ⟨2, .unknownMnemonic⟩ := by decide
theorem test_reset_memory_wf : Memory.wf State.reset.ram = true := by decide


/-! Witnesses: for every statement with hypotheses, a state and operands that meet them, clause by clause, at the ends of
the ranges. -/

/-- `writable` and `readable` operands of each form, at the first and last register and address. -/
theorem witness_operand_access : MachineInv (machine []) ∧
    writable (machine []) (.register 15) = true ∧ writable (machine []) (.memoryAddress 1023) = true ∧
    writable (machine []) (.registerMemory 0) = true ∧ readable (machine []) (.immediate (-1)) = true ∧
    writable (machine []) (.immediate (-1)) = false := by decide

/-- Operands that cannot be read, just past the ends. -/
theorem witness_operand_unreadable :
    readable (machine []) (.register 16) = false ∧ readable (machine []) (.register (-1)) = false ∧
    readable (machine []) (.memoryAddress 1024) = false ∧ readable (withLow [-1]) (.registerMemory 0) = false ∧
    readable (machine []) (.registerMemory 16) = false := by decide

theorem witness_DecodeOfEncodeIsIdentity : OpcodeIds.legal referenceOpcodeIds ∧
    Instr.wf (.str [.immediate 65535, .immediate (-2147483648)]) = true ∧
    Instr.wf (.clr [.memoryAddress 65535, .registerMemory 15]) = true ∧ Instr.wf (.hlt []) = true := by decide

theorem witness_EncodeOfDecodeIsIdentity : decode referenceOpcodeIds (0x47 :: [0x00, 0x00]) = .ok (.inc [.register 0]) := by
  decide

theorem witness_EncoderRefusesExactlyIllFormed :
    Instr.wf (.inc [.register 15]) = true ∧
    2 < (Instr.add [.register 0, .register 0, .register 0]).operands.length ∧
    (Instr.inc [.register 16]).operands.length ≤ 2 ∧ Instr.wf (.inc [.register 16]) = false := by decide

theorem witness_IllegalFirstByteRefused :
    bits (0xC0 : Byte).toNat 7 6 = 3 ∧ bits (0xFF : Byte).toNat 7 6 = 3 ∧
    bits (0x2A : Byte).toNat 7 6 ≠ 3 ∧ 42 ≤ bits (0x2A : Byte).toNat 5 0 ∧
    bits (0xBF : Byte).toNat 7 6 ≠ 3 ∧ 42 ≤ bits (0xBF : Byte).toNat 5 0 := by decide

theorem witness_StepRunsTheDecodedInstruction : isIdle (machine [0x29]) = false ∧ 0 ≤ (machine [0x29]).pc ∧
    (machine [0x29]).pc + (1 : Nat) ≤ (machine [0x29]).rom.length ∧
    decode (machine [0x29]).cfg.opcodeIds (((machine [0x29]).rom.drop 0).take 1) = .ok (.hlt []) ∧
    exec (.hlt []) { machine [0x29] with pc0 := 0, pc := 1, last := some (.hlt []) } =
      .next { machine [0x29] with pc0 := 0, pc := 1, last := some (.hlt []), halted := true } := by
  exact ⟨by decide, by decide, by decide, by decide, rfl⟩

theorem witness_IdleStepChangesNothing : ((machine []).withHalted true).halted = true ∧ State.reset.paused = true ∧
    ((machine []).withFault (some ⟨.divisionByZero, 0⟩)).fault ≠ none := by decide

theorem witness_FetchPastTheEndHalts :
    isIdle (machine [0x29]) = false ∧ (((machine [0x29]).withPc 1).rom.length : Int) ≤ ((machine [0x29]).withPc 1).pc ∧
    ((machine []).rom.length : Int) ≤ (machine []).pc := by decide

/-- One machine for each clause: a negative pc; count 3; no type byte; one byte too few. -/
theorem witness_FetchFaultsAreRecorded :
    (isIdle ((machine []).withPc (-1)) = false ∧ ((machine []).withPc (-1)).pc < 0) ∧
    (isIdle (machine [0xC1]) = false ∧ (machine [0xC1]).rom[0]? = some 0xC1 ∧ bits (0xC1 : Byte).toNat 7 6 = 3) ∧
    ((machine [0x47]).rom[0]? = some 0x47 ∧ bits (0x47 : Byte).toNat 7 6 ∈ [1, 2] ∧
      (machine [0x47]).pc + 1 = (machine [0x47]).rom.length) ∧
    ((machine [0x47, 0x00]).rom[0]? = some 0x47 ∧ (machine [0x47, 0x00]).rom[1]? = some 0x00 ∧
      instrLength 0x47 0x00 = some 3 ∧ ((machine [0x47, 0x00]).rom.length : Int) < (machine [0x47, 0x00]).pc + (3 : Nat)) := by
  decide

theorem witness_DecodeFaultsAreRecorded :
    (isIdle (machine [0x3F]) = false ∧ fetch (machine [0x3F]) = .ok (some [0x3F]) ∧
      decodeRef [0x3F] = .error (.invalidOpcode 63)) ∧
    (fetch (machine [0x47, 0x10, 0x00]) = .ok (some [0x47, 0x10, 0x00]) ∧
      decodeRef [0x47, 0x10, 0x00] = .error .decodingError) := by decide

/-- A step that raises. -/
theorem witness_FaultIsRecordedAndFinal : (machine [0x3F]).fault = none ∧
    ∃ t r, step (machine [0x3F]) = .next t ∧ t.fault = some r := ⟨rfl, _, _, rfl, rfl⟩

/-- Steps that are idle, halt, complete and raise. -/
theorem witness_CounterCountsCompletedInstructions :
    (∃ t, step State.reset = .next t ∧ isIdle State.reset = true) ∧
    (∃ t, step (machine []) = .next t ∧ ((machine []).rom.length : Int) ≤ (machine []).pc) ∧
    (∃ t, step (machine [0x00]) = .next t ∧ isIdle (machine [0x00]) = false ∧
      (machine [0x00]).pc < (machine [0x00]).rom.length ∧ t.fault = none) ∧
    (∃ t, step (machine [0x3F]) = .next t ∧ isIdle (machine [0x3F]) = false ∧
      (machine [0x3F]).pc < (machine [0x3F]).rom.length ∧ t.fault ≠ none) :=
  ⟨⟨_, rfl, by decide⟩, ⟨_, rfl, by decide⟩, ⟨_, rfl, by decide, by decide, rfl⟩,
    ⟨_, rfl, by decide, by decide, by intro h; cases h⟩⟩

/-- Halting by HLT, halting at the end of the ROM, and staying halted. -/
theorem witness_HaltedOnlyByHltOrEndOfRom :
    (∃ t, step (machine [0x29]) = .next t ∧ (machine [0x29]).halted = false ∧ t.halted = true) ∧
    (∃ t, step (machine []) = .next t ∧ (machine []).halted = false ∧ t.halted = true) ∧
    (∃ t, step ((machine []).withHalted true) = .next t ∧ ((machine []).withHalted true).halted = true) :=
  ⟨⟨_, rfl, rfl, rfl⟩, ⟨_, rfl, rfl, rfl⟩, ⟨_, rfl, rfl⟩⟩

/-- Steps that answer a next state, one of them raising: the hypothesis of the statements about every step. -/
theorem witness_every_step : MachineInv (machine [0x00]) ∧ MachineInv (machine [0x3F]) ∧
    (∃ t, step (machine [0x00]) = .next t) ∧ ∃ t, step (machine [0x3F]) = .next t :=
  ⟨by decide, by decide, ⟨_, rfl⟩, ⟨_, rfl⟩⟩

theorem witness_ResetClearsTheMachine : validReg (withLow [5]) 0 ∧ validReg (withLow [5]) 15 := by decide

theorem witness_PauseAndResumeTouchOnlyPaused : ((machine []).withHalted true).halted = true ∧
    ((machine []).withFault (some ⟨.divisionByZero, 0⟩)).fault ≠ none := by decide

theorem witness_ConstructionIsResumedReset : (machine [0x29]).cfg = Config.default ∧ (machine [0x29]).rom = [0x29] := by
  decide

theorem witness_ResetAndConstructionMeetTheInvariant : Config.default.legal := by decide

/-- The smallest and the default width; a capped value of a raw value out of range. -/
theorem witness_CappingWrapsAndSetsCarryOverflow : 1 ≤ (withBits 1 (machine [])).cfg.bits ∧
    (-128 : Int) ≤ -56 ∧ (withBits 8 (machine [])).cfg.min = -128 ∧ (withBits 8 (machine [])).cfg.max = 127 ∧
    (withBits 8 (machine [])).cfg.modB ∣ (200 : Int) - (-56) := by decide

/-- A count out of the table, a refused form, and a dispatch that passes. -/
theorem witness_DispatchChecksCountThenForm :
    (Instr.inc []).operands.length ∉ allowedCounts .inc ∧
    ((Instr.pop [.immediate 5]).operands.length ∈ allowedCounts .pop ∧ registerOnly .pop = true ∧
      isRegister (.immediate 5) = false) ∧
    ((Instr.shl [.register 0, .immediate 1]).operands.length ∈ allowedCounts .shl ∧ registerOnly .shl = true ∧
      isRegister (.register 0) = true) ∧
    (Instr.dsp [.register 0, .register 0, .register 0]).operands.length ∉ allowedCounts .dsp ∧
    (Instr.dsp []).operands.length ∈ allowedCounts .dsp ∧ (machine []).fault = none := by decide

/-- A destination of each form that cannot be written, then the premises of each later clause: CLR's second write, a source
that is readable and not 0, a POP and an LDR to the first id that is no register. -/
theorem witness_UnwritableDestinationFaults :
    (writable (machine []) (.immediate 5) = false ∧ writable (machine []) (.register 16) = false ∧
      writable (machine []) (.memoryAddress 1024) = false ∧ writable (withLow [-1]) (.registerMemory 0) = false) ∧
    (writable (machine []) (.register 0) = true ∧
      writable (afterFirstClear (machine []) (.register 0)) (.immediate 5) = false ∧
      writable (afterFirstClear (machine []) (.register 0)) (.memoryAddress 1024) = false) ∧
    (readable (machine []) (.register 15) = true ∧ readable (machine []) (.immediate (-1)) = true ∧
      operandValue (machine []) (.immediate (-1)) ≠ 0) ∧
    (¬ validReg (machine []) 16 ∧ ((machine []).withStack [7]).stack ≠ [] ∧ ¬ validReg ((machine []).withStack [7]) 16) ∧
    (readable (machine []) (.immediate 1023) = true ∧
      validAddr (machine []) (operandValue (machine []) (.immediate 1023))) := by decide

/-- The premises of MOV, ADD, SUB, MUL, INC, DEC, NEG, AND, OR, XOR, NOT and RND. -/
theorem witness_one_destination : MachineInv (withLow [5]) ∧ writable (withLow [5]) (.registerMemory 0) = true ∧
    readable (withLow [5]) (.memoryAddress 1023) = true := by decide

theorem witness_DivModWriteFloorQuotientRemainder : MachineInv (withLow [-7]) ∧
    writable (withLow [-7]) (.register 0) = true ∧ readable (withLow [-7]) (.immediate (-2)) = true ∧
    operandValue (withLow [-7]) (.immediate (-2)) ≠ 0 := by decide

theorem witness_DivisionByZeroFaults : readable (machine []) (.immediate 5) = true ∧
    readable (machine []) (.register 0) = true ∧ operandValue (machine []) (.register 0) = 0 := by decide

theorem witness_TestAndCmpWriteOnlyFlags : MachineInv (machine []) ∧ readable (machine []) (.immediate 3) = true ∧
    readable (machine []) (.memoryAddress 0) = true := by decide

/-- CLR whose second address is made valid by its first write. -/
theorem witness_ClrClearsBothOperands : MachineInv (withLow [-1]) ∧ writable (withLow [-1]) (.register 0) = true ∧
    writable (afterFirstClear (withLow [-1]) (.register 0)) (.registerMemory 0) = true := by decide

theorem witness_shifts : validReg (machine []) 15 ∧ readable (machine []) (.immediate 0) = true ∧
    0 ≤ operandValue (machine []) (.immediate 0) := by decide

theorem witness_NegativeShiftAmountFaults : validReg (machine []) 0 ∧ readable (machine []) (.immediate (-1)) = true ∧
    operandValue (machine []) (.immediate (-1)) < 0 := by decide

theorem witness_JumpsWritePcOnTheirCondition : readable (machine []) (.memoryAddress 1023) = true := by decide

/-- Operand 0 unreadable; operand 1 unreadable behind a readable one; a shift of no register, and of one with an amount that
cannot be read. -/
theorem witness_UnreadableOperandFaultsAtItsRead :
    readable (machine []) (.memoryAddress 1024) = false ∧ readable (machine []) (.register 16) = false ∧
    (readable (machine []) (.memoryAddress 1023) = true ∧ readable (withLow [1024]) (.registerMemory 0) = false ∧
      readable (withLow [1024]) (.memoryAddress 1023) = true) ∧
    ¬ validReg (machine []) 16 ∧ validReg (machine []) 15 := by decide

theorem witness_CallPushesReturnOffset : readable (machine []) (.immediate 14) = true ∧
    ({ machine [] with cfg := { Config.default with stackSize := 2 }, stack := [7] } : State).stack.length < 2 := by decide

theorem witness_RetPopsThePc : ((machine []).withStack [1, 13]).stack = [1] ++ [13] := by decide

theorem witness_RetReturnsBehindTheCall : (machine []).fault = none ∧
    ∃ t, exec (.call [.immediate 14]) (machine []) = .next t ∧ t.fault = none ∧ t.stack = t.stack :=
  ⟨rfl, _, rfl, rfl, rfl⟩

theorem witness_PushAndPopMoveOneWord :
    (readable (machine []) (.immediate 1) = true ∧ (machine []).stack.length < (machine []).cfg.stackSize) ∧
    (validReg ((machine []).withStack [7]) 15 ∧ ((machine []).withStack [7]).stack = [] ++ [7]) := by decide

/-- A full stack, of one entry, and an empty one. -/
theorem witness_StackLimitsFault :
    ({ machine [] with cfg := { Config.default with stackSize := 1 }, stack := [7] } : State).stack.length = 1 ∧
    readable (machine []) (.immediate 1) = true ∧ (machine []).stack = [] := by decide

theorem witness_LdrLoadsTheAddressedWord : validReg (machine []) 15 ∧ readable (machine []) (.immediate 1023) = true ∧
    validAddr (machine []) (operandValue (machine []) (.immediate 1023)) := by decide

theorem witness_StrStoresAtTheAddressedWord : MachineInv (machine []) ∧ readable (machine []) (.immediate 1023) = true ∧
    readable (machine []) (.register 0) = true ∧
    validAddr (machine []) (operandValue (machine []) (.immediate 1023)) := by decide

theorem witness_LoadStoreOutOfRamFaults : readable (machine []) (.immediate 1024) = true ∧
    readable (machine []) (.immediate (-1)) = true ∧
    ¬ validAddr (machine []) (operandValue (machine []) (.immediate 1024)) ∧
    ¬ validAddr (machine []) (operandValue (machine []) (.immediate (-1))) := by decide

/-- No Display; a Display with readable operands; a Display whose second operand is the first that cannot be read. -/
theorem witness_DisplayOpcodesForwardTheirValues :
    (machine []).cfg.displayPresent = false ∧ displayMachine.cfg.displayPresent = true ∧
    (∀ op ∈ [Operand.register 0, .memoryAddress 1023], readable displayMachine op = true) ∧
    [Operand.register 0, .memoryAddress 1023].length ≤ 2 ∧
    [Operand.register 0, .memoryAddress 1024] = [Operand.register 0] ++ .memoryAddress 1024 :: [] ∧
    (∀ x ∈ [Operand.register 0], readable displayMachine x = true) ∧
    readable displayMachine (.memoryAddress 1024) = false := by decide

theorem witness_PrtEmitsWhenPrinting : readable (machine []) (.register 0) = true ∧
    (machine []).cfg.printing = false ∧
    ({ machine [] with cfg := { Config.default with printing := true } } : State).cfg.printing = true ∧
    readable (machine []) (.memoryAddress 1024) = false := by decide

/-- Instructions that raise no fault, one for each clause of the statements about what no instruction changes: NOP writes no
flag, pc, stack, register or RAM word; `MOV r0, 1` stores nowhere and leaves r1. -/
theorem witness_no_fault :
    (∃ t, exec (.nop []) (machine []) = .next t ∧ t.fault = none ∧ writesFlags .nop = false ∧ writesPc .nop = false ∧
      usesStack .nop = false ∧ writesRam .nop = false) ∧
    (∃ t, exec (.mov [.register 0, .immediate 1]) (machine []) = .next t ∧ t.fault = none) ∧
    (∃ t, exec (.shl [.register 0, .immediate 1]) (machine []) = .next t ∧ t.fault = none) ∧
    Operand.register 1 ∉ destinations (.mov [.register 0, .immediate 1]) ∧
    storedAddresses (.mov [.register 0, .immediate 1]) (machine []) = [] :=
  ⟨⟨_, rfl, rfl, rfl, rfl, rfl, rfl⟩, ⟨_, rfl, rfl⟩, ⟨_, rfl, rfl⟩, by decide, by decide⟩

/-- The addresses stored to: CLR's second one is that after its first write (TB11); STR's is a value (TK10). -/
theorem witness_storedAddresses :
    storedAddresses (.clr [.register 0, .registerMemory 0]) (withLow [4]) = [0] ∧
    storedAddresses (.str [.memoryAddress 5, .immediate 7]) ((machine []).withRam [(5, 3)]) = [3] ∧
    storedAddresses (.add [.registerMemory 1, .memoryAddress 9]) (withLow [0, 5]) = [5] := by decide

theorem witness_PassOneSizesMatchTheImage :
    assemble Config.default "RET\nx: PUSH [100]".toList = .ok [0x1D, 0x5E, 0x02, 0x64, 0x00] := by decide

theorem witness_RegisterAccessChecksTheId : validReg (machine []) 0 ∧ validReg (machine []) 15 ∧
    (machine []).regs.length = (machine []).cfg.registerCount ∧ ¬ validReg (machine []) 16 ∧
    ¬ validReg (machine []) (-1) := by decide

theorem witness_RamAccessChecksTheAddress : validAddr (machine []) 0 ∧ validAddr (machine []) 1023 ∧
    Memory.wf (machine []).ram = true ∧ ¬ validAddr (machine []) 1024 ∧ ¬ validAddr (machine []) (-1) := by decide

theorem witness_PushAndPopPrimitives :
    ({ machine [] with cfg := { Config.default with stackSize := 1 }, stack := [7] } : State).stack.length = 1 ∧
    (machine []).stack.length ≠ (machine []).cfg.stackSize ∧ (machine []).stack = [] ∧
    ((machine []).withStack [7]).stack = [] ++ [7] := by decide

theorem witness_StepReturnsWhatItDid :
    (∃ t, step State.reset = .next t ∧ isIdle State.reset = true) ∧
    (∃ t, step (machine []) = .next t ∧ isIdle (machine []) = false ∧ ((machine []).rom.length : Int) ≤ (machine []).pc) ∧
    (∃ t, step (machine [0x00]) = .next t ∧ (machine [0x00]).pc < (machine [0x00]).rom.length ∧ t.fault = none) ∧
    ∃ t r, step (machine [0x3F]) = .next t ∧ t.fault = some r :=
  ⟨⟨_, rfl, by decide⟩, ⟨_, rfl, by decide, by decide⟩, ⟨_, rfl, by decide, rfl⟩, ⟨_, _, rfl, rfl⟩⟩
end

section
/-! PROOFS. The invariant along the step cycle: what an instruction that completes keeps and what a taken fault leaves are
each enough for it, so every case of `step_cases` keeps it. -/

namespace Sys2Proof.Machine

theorem isIdle_eq_false_iff {s : State} :
    isIdle s = false ↔ s.halted = false ∧ s.paused = false ∧ s.fault = none := by
  simp [isIdle, and_assoc]

/-- An instruction that completes does not fault, so even HLT leaves no state both halted and faulted. -/
theorem Kept.machineInv {s t : State} (hk : Kept s t) (hi : MachineInv s) (hnone : s.fault = none) : MachineInv t := by
  obtain ⟨hlegal, hregs, hwf, hbelow, hstack, _⟩ := hi
  refine ⟨?legal, ?regs, hk.ram_wf hwf, ?below, ?stack, .inr (hk.fault.trans hnone)⟩
  case legal => rw [hk.cfg]; exact hlegal
  case regs => rw [hk.regs_length, hk.cfg]; exact hregs
  case below => rw [hk.cfg]; exact hk.ram_below hbelow
  case stack => rw [hk.cfg]; exact hk.stack_bound hstack

/-- The free values a fault leaves have the form of 10_state.md R12 whatever the registers, RAM and stack were before. -/
theorem takeFault_machineInv {s : State} (f : Fault) (hlegal : s.cfg.legal) (hrun : s.halted = false) :
    MachineInv (takeFault f s) :=
  ⟨hlegal, takeFault_regs_length f s, takeFault_ram_wf f s, takeFault_ram_below f s, takeFault_stack_length f s,
    .inl hrun⟩

/-- The counter is no part of the invariant. -/
theorem countCompleted_machineInv {s : State} (hi : MachineInv s) : MachineInv (countCompleted s) := by
  unfold countCompleted
  split
  · exact hi
  · exact hi

theorem exec_machineInv {i : Instr} {s t : State} (hi : MachineInv s) (hrun : s.halted = false) (hnone : s.fault = none)
    (h : exec i s = .next t) : MachineInv t := by
  rcases exec_kept h with hk | ⟨f, rfl⟩
  · exact hk.machineInv hi hnone
  · exact takeFault_machineInv f hi.1 hrun

/-- Settles O18: each case of `step_cases`, the two faults of the cycle itself and the executed instruction included,
leads to a state that meets the invariant. -/
theorem everyStepKeepsTheInvariant : Obligations.EveryStepKeepsTheInvariant := by
  intro s t hi h
  have ⟨hlegal, hregs, hwf, hbelow, hstack, _⟩ := hi
  rcases step_cases h with ⟨_, rfl⟩ | ⟨hidle, _, rfl⟩ | ⟨hidle, f, _, rfl⟩ | ⟨hidle, bytes, e, _, _, rfl⟩ |
    ⟨hidle, bytes, i, u, _, _, hexec, rfl⟩
  case inl => exact hi
  all_goals obtain ⟨hrun, _, hnone⟩ := isIdle_eq_false_iff.1 hidle
  · exact ⟨hlegal, hregs, hwf, hbelow, hstack, .inr hnone⟩
  · exact takeFault_machineInv f hlegal hrun
  · exact takeFault_machineInv _ hlegal hrun
  · have hready : MachineInv (executing i bytes s) := hi
    exact countCompleted_machineInv (exec_machineInv hready hrun hnone hexec)

end Sys2Proof.Machine
end

section
/-! PROOFS. What an instruction that completes may change, said once for every instruction as a footprint: the flags,
the pc, the stack and `halted` as its opcode permits, the registers and RAM words as its operands name them. -/

namespace Sys2Proof.Machine

/-- What an instruction is permitted to change: each Bool is true where a change is permitted, `regs` lists the operands
whose registers, and `stores` the RAM addresses whose words, may change. -/
structure Footprint where
  zn : Bool
  co : Bool
  pc : Bool
  stack : Bool
  halted : Bool
  ram : Bool
  regs : List Operand
  stores : List Int

/-- From `s` to `t` nothing has changed but what the footprint permits. -/
structure Footprint.Bounds (f : Footprint) (s t : State) : Prop where
  zn : f.zn = false → t.flags.z = s.flags.z ∧ t.flags.n = s.flags.n
  co : f.co = false → t.flags.c = s.flags.c ∧ t.flags.o = s.flags.o
  pc : f.pc = false → t.pc = s.pc
  stack : f.stack = false → t.stack = s.stack
  halted : f.halted = false → t.halted = s.halted
  ram : f.ram = false → t.ram = s.ram
  regs : ∀ j : Nat, Operand.register j ∉ f.regs → t.regs[j]? = s.regs[j]?
  stores : ∀ b : Nat, (b : Int) ∉ f.stores → Memory.read t.ram b = Memory.read s.ram b

/-- The footprint permits a write to the operand `dst`, evaluated in `s`. -/
structure Footprint.Permits (f : Footprint) (s : State) (dst : Operand) : Prop where
  regs : dst ∈ f.regs
  stores : addressNamed s dst ⊆ f.stores
  ram : f.ram = true

/-- The opcodes that write Z and N (10_state.md R18). -/
def writesZN : Opcode → Bool
  | .mov => false
  | opc => writesFlags opc

/-- The opcodes that write C and O (10_state.md R18). -/
def writesCO : Opcode → Bool
  | .shl | .shr => false
  | opc => writesFlags opc

/-- What the tables of 10_state.md R18 and 30_encoding.md R64 permit an instruction to change in the state `s`. -/
def footprint (i : Instr) (s : State) : Footprint where
  zn := writesZN i.opcode
  co := writesCO i.opcode
  pc := writesPc i.opcode
  stack := usesStack i.opcode
  halted := decide (i = .hlt [])
  ram := writesRam i.opcode
  regs := destinations i
  stores := storedAddresses i s

section Primitives

variable {f : Footprint} {s t u : State}

theorem Footprint.Bounds.refl (f : Footprint) (s : State) : f.Bounds s s :=
  ⟨fun _ => ⟨rfl, rfl⟩, fun _ => ⟨rfl, rfl⟩, fun _ => rfl, fun _ => rfl, fun _ => rfl, fun _ => rfl,
    fun _ _ => rfl, fun _ _ => rfl⟩

theorem Footprint.Bounds.trans (h : f.Bounds s t) (g : f.Bounds t u) : f.Bounds s u where
  zn := fun p => ⟨(g.zn p).1.trans (h.zn p).1, (g.zn p).2.trans (h.zn p).2⟩
  co := fun p => ⟨(g.co p).1.trans (h.co p).1, (g.co p).2.trans (h.co p).2⟩
  pc := fun p => (g.pc p).trans (h.pc p)
  stack := fun p => (g.stack p).trans (h.stack p)
  halted := fun p => (g.halted p).trans (h.halted p)
  ram := fun p => (g.ram p).trans (h.ram p)
  regs := fun j p => (g.regs j p).trans (h.regs j p)
  stores := fun b p => (g.stores b p).trans (h.stores b p)

theorem bounds_withFlags {g : Flags} (hzn : f.zn = false → g.z = s.flags.z ∧ g.n = s.flags.n)
    (hco : f.co = false → g.c = s.flags.c ∧ g.o = s.flags.o) : f.Bounds s (s.withFlags g) :=
  { Footprint.Bounds.refl f s with zn := hzn, co := hco }

theorem bounds_capFlags (hco : f.co = true) (raw : Int) : f.Bounds s (capFlags s raw).2 :=
  bounds_withFlags (fun _ => ⟨rfl, rfl⟩) (by simp [hco])

theorem bounds_arithFlags (hzn : f.zn = true) (v : Int) : f.Bounds s (arithFlags s v) :=
  bounds_withFlags (by simp [hzn]) (fun _ => ⟨rfl, rfl⟩)

theorem bounds_boolFlags (hzn : f.zn = true) (hco : f.co = true) (v : Int) : f.Bounds s (boolFlags s v) :=
  bounds_withFlags (by simp [hzn]) (by simp [hco])

theorem bounds_shiftFlags (hzn : f.zn = true) (i r : Int) : f.Bounds s (shiftFlags s i r) := by
  unfold shiftFlags
  split <;> exact bounds_withFlags (by simp [hzn]) (fun _ => ⟨rfl, rfl⟩)

theorem bounds_withPc (hpc : f.pc = true) (v : Int) : f.Bounds s (s.withPc v) :=
  { Footprint.Bounds.refl f s with pc := by simp [hpc] }

theorem bounds_withStack (hstack : f.stack = true) (v : List Word) : f.Bounds s (s.withStack v) :=
  { Footprint.Bounds.refl f s with stack := by simp [hstack] }

theorem bounds_withHalted (hhalted : f.halted = true) (v : Bool) : f.Bounds s (s.withHalted v) :=
  { Footprint.Bounds.refl f s with halted := by simp [hhalted] }

theorem bounds_emit (f : Footprint) (s : State) (e : Event) : f.Bounds s (emit s e) :=
  { Footprint.Bounds.refl f s with }

theorem bounds_drawRandom (f : Footprint) (s : State) : f.Bounds s (drawRandom s).2 :=
  { Footprint.Bounds.refl f s with }

theorem push_bounds {v : Int} (h : push s v = .ok t) (hstack : f.stack = true) : f.Bounds s t := by
  obtain ⟨_, rfl⟩ := push_ok h
  exact bounds_withStack hstack _

theorem pop_bounds {v : Int} (h : pop s = .ok (v, t)) (hstack : f.stack = true) : f.Bounds s t := by
  obtain ⟨below, _, rfl⟩ := pop_ok h
  exact bounds_withStack hstack _

theorem writeReg_bounds {i v : Int} (h : writeReg s i v = .ok t) (hreg : Operand.register i ∈ f.regs) :
    f.Bounds s t := by
  obtain ⟨hvalid, rfl⟩ := writeReg_ok h
  refine { Footprint.Bounds.refl f s with regs := fun j hj => ?_ }
  have hij : i.toNat ≠ j := by
    rintro rfl
    rw [Int.toNat_of_nonneg hvalid.1] at hj
    exact hj hreg
  exact List.getElem?_set_ne hij

theorem memWrite_bounds {a v : Int} (h : memWrite s a v = .ok t) (hstore : a ∈ f.stores) (hram : f.ram = true) :
    f.Bounds s t := by
  obtain ⟨hvalid, rfl⟩ := memWrite_ok h
  refine { Footprint.Bounds.refl f s with ram := by simp [hram], stores := fun b hb => ?_ }
  have hab : b ≠ a.toNat := by
    rintro rfl
    rw [Int.toNat_of_nonneg hvalid.1] at hb
    exact hb hstore
  exact Memory.read_write_other hab

/-- What an operand names depends on the parameters and the registers only. -/
theorem addressNamed_congr (hcfg : t.cfg = s.cfg) (hregs : t.regs = s.regs) (op : Operand) :
    addressNamed t op = addressNamed s op := by
  cases op <;> simp [addressNamed, operandAddress, readReg, hcfg, hregs]

theorem Footprint.Permits.congr {dst : Operand} (h : f.Permits s dst) (hcfg : t.cfg = s.cfg)
    (hregs : t.regs = s.regs) : f.Permits t dst :=
  ⟨h.regs, addressNamed_congr hcfg hregs dst ▸ h.stores, h.ram⟩

theorem writeOperand_bounds {dst : Operand} {v : Int} (h : writeOperand s dst v = .ok t) (hp : f.Permits s dst) :
    f.Bounds s t := by
  rcases writeOperand_ok h with ⟨i, rfl, hvalid, rfl⟩ | ⟨a, haddr, hvalid, rfl⟩
  · exact writeReg_bounds (writeReg_valid v hvalid) hp.regs
  · have hnamed : a ∈ addressNamed s dst := by simp [addressNamed, haddr]
    exact memWrite_bounds (memWrite_valid v hvalid) (hp.stores hnamed) hp.ram

theorem writeArith_bounds {dst : Operand} {raw : Int} (h : writeArith s dst raw = .ok t) (hzn : f.zn = true)
    (hco : f.co = true) (hp : f.Permits s dst) : f.Bounds s t :=
  ((bounds_capFlags hco raw).trans (bounds_arithFlags hzn _)).trans (writeOperand_bounds h (hp.congr rfl rfl))

end Primitives

section SharedMeanings

variable {f : Footprint} {s t : State} {opc : Opcode} {ops : List Operand}

/-- A state without a fault record is not one that a fault left. -/
theorem not_takeFault (hnone : t.fault = none) : ¬ ∃ f, t = takeFault f s := by
  rintro ⟨f, rfl⟩
  cases hnone

theorem arith2_bounds {raw : Int → Int → Except Fault Int} (h : arith2 opc raw ops s = .next t)
    (hnone : t.fault = none) (hzn : f.zn = true) (hco : f.co = true) (hp : ∀ dst ∈ ops.take 1, f.Permits s dst) :
    f.Bounds s t := by
  obtain ⟨dst, src, r, rfl, _, _, _, hw⟩ := (arith2_next h).resolve_right (not_takeFault hnone)
  exact writeArith_bounds hw hzn hco (hp dst (by simp))

theorem arith1_bounds {raw : Int → Int} (h : arith1 opc raw ops s = .next t)
    (hnone : t.fault = none) (hzn : f.zn = true) (hco : f.co = true) (hp : ∀ dst ∈ ops.take 1, f.Permits s dst) :
    f.Bounds s t := by
  obtain ⟨dst, rfl, _, hw⟩ := (arith1_next h).resolve_right (not_takeFault hnone)
  exact writeArith_bounds hw hzn hco (hp dst (by simp))

theorem logic2_bounds {op : Int → Int → Int} (h : logic2 opc op ops s = .next t)
    (hnone : t.fault = none) (hzn : f.zn = true) (hco : f.co = true) (hp : ∀ dst ∈ ops.take 1, f.Permits s dst) :
    f.Bounds s t := by
  obtain ⟨dst, src, rfl, _, _, hw⟩ := (logic2_next h).resolve_right (not_takeFault hnone)
  exact (bounds_boolFlags hzn hco _).trans (writeOperand_bounds hw ((hp dst (by simp)).congr rfl rfl))

theorem shift_bounds {op : Int → Int → Int} (h : shift opc op ops s = .next t)
    (hnone : t.fault = none) (hzn : f.zn = true) (hreg : ops.take 1 ⊆ f.regs) : f.Bounds s t := by
  obtain ⟨i, amount, rfl, _, _, _, hw⟩ := (shift_next h).resolve_right (not_takeFault hnone)
  exact (bounds_shiftFlags hzn _ _).trans (writeReg_bounds hw (hreg (by simp)))

theorem jump_bounds {taken : Flags → Bool} (h : jump opc taken ops s = .next t)
    (hnone : t.fault = none) (hpc : f.pc = true) : f.Bounds s t := by
  obtain ⟨x, rfl, _, rfl⟩ := (jump_next h).resolve_right (not_takeFault hnone)
  split
  · exact bounds_withPc hpc _
  · exact Footprint.Bounds.refl f s

theorem displayOp_bounds (f : Footprint) {d : DisplayOpcode} (h : displayOp opc d ops s = .next t)
    (hnone : t.fault = none) : f.Bounds s t := by
  rcases displayOp_next h with ⟨_, _, rfl⟩ | ⟨_, _, _, rfl⟩ | hf
  · exact Footprint.Bounds.refl f _
  · exact bounds_emit f s _
  · exact absurd hf (not_takeFault hnone)

/-- The footprint of an instruction whose one destination, of any form, is operand 0 permits the write to it. -/
theorem footprint_permits {i : Instr} (hdst : destinations i = i.operands.take 1)
    (hstores : storedAddresses i s = (destinations i).flatMap (addressNamed s)) (hram : writesRam i.opcode = true) :
    ∀ dst ∈ i.operands.take 1, (footprint i s).Permits s dst := by
  intro dst hmem
  rw [← hdst] at hmem
  refine ⟨hmem, fun a ha => ?_, hram⟩
  change a ∈ storedAddresses i s
  rw [hstores]
  exact List.mem_flatMap.2 ⟨dst, hmem, ha⟩

/-- CLR evaluates the address of its second operand in the registers that its first write left. -/
theorem addressNamed_after_first_clear {a : Operand} (h : writeOperand s a 0 = .ok t) (b : Operand) :
    addressNamed t b = addressNamed (afterFirstClear s a) b := by
  rcases writeOperand_ok h with ⟨i, rfl, _, rfl⟩ | ⟨addr, haddr, _, rfl⟩
  · rfl
  · cases a with
    | register i => cases haddr
    | immediate k => cases haddr
    | memoryAddress k => exact addressNamed_congr rfl rfl b
    | registerMemory i => exact addressNamed_congr rfl rfl b

theorem execClr_bounds (h : execClr ops s = .next t) (hnone : t.fault = none) :
    (footprint (.clr ops) s).Bounds s t := by
  obtain ⟨a, b, u, rfl, hfirst, hsecond⟩ := (execClr_next h).resolve_right (not_takeFault hnone)
  have hstores : (footprint (.clr [a, b]) s).stores = addressNamed s a ++ addressNamed u b := by
    rw [addressNamed_after_first_clear hfirst b]
    rfl
  have hpa : (footprint (.clr [a, b]) s).Permits s a :=
    ⟨List.mem_cons_self, by simp [hstores], rfl⟩
  have hpb : (footprint (.clr [a, b]) s).Permits u b :=
    ⟨List.mem_cons_of_mem _ List.mem_cons_self, by simp [hstores], rfl⟩
  exact (writeOperand_bounds hfirst hpa).trans (writeOperand_bounds hsecond hpb)

end SharedMeanings

/-- An instruction that completes changes nothing outside its footprint. -/
theorem exec_bounds {i : Instr} {s t : State} (h : exec i s = .next t) (hnone : t.fault = none) :
    (footprint i s).Bounds s t := by
  have hcomplete : ¬ ∃ f, t = takeFault f s := not_takeFault hnone
  have hpermits := footprint_permits (i := i) (s := s)
  cases i with
  | nop ops =>
    obtain rfl := (execNop_next h).resolve_right hcomplete
    exact Footprint.Bounds.refl _ _
  | mov ops =>
    obtain ⟨dst, src, rfl, _, hw⟩ := (execMov_next h).resolve_right hcomplete
    have hp := hpermits rfl rfl rfl dst List.mem_cons_self
    exact (bounds_capFlags rfl _).trans (writeOperand_bounds hw (hp.congr rfl rfl))
  | add ops | sub ops | mul ops | div ops | mod ops =>
    simp only [exec, execAdd, execSub, execMul, execDiv, execMod] at h
    exact arith2_bounds h hnone rfl rfl (hpermits rfl rfl rfl)
  | inc ops | dec ops | neg ops => exact arith1_bounds h hnone rfl rfl (hpermits rfl rfl rfl)
  | and ops | or ops | xor ops => exact logic2_bounds h hnone rfl rfl (hpermits rfl rfl rfl)
  | not ops =>
    obtain ⟨dst, rfl, _, hw⟩ := (execNot_next h).resolve_right hcomplete
    have hp := hpermits rfl rfl rfl dst List.mem_cons_self
    exact (bounds_boolFlags rfl rfl _).trans (writeOperand_bounds hw (hp.congr rfl rfl))
  | clr ops => exact execClr_bounds h hnone
  | test ops =>
    obtain ⟨a, b, rfl, _, _, rfl⟩ := (execTest_next h).resolve_right hcomplete
    exact bounds_boolFlags rfl rfl _
  | shl ops | shr ops => exact shift_bounds h hnone rfl (List.Subset.refl _)
  | cmp ops =>
    obtain ⟨a, b, rfl, _, _, rfl⟩ := (execCmp_next h).resolve_right hcomplete
    exact (bounds_capFlags rfl _).trans (bounds_arithFlags rfl _)
  | jmp ops | jz ops | jnz ops | jn ops | jnn ops | jo ops | jno ops | jc ops | jnc ops =>
    simp only [exec, execJmp, execJz, execJnz, execJn, execJnn, execJo, execJno, execJc, execJnc] at h
    exact jump_bounds h hnone rfl
  | call ops =>
    obtain ⟨x, u, rfl, _, hpush, rfl⟩ := (execCall_next h).resolve_right hcomplete
    exact (push_bounds hpush rfl).trans (bounds_withPc rfl _)
  | ret ops =>
    obtain ⟨v, u, rfl, hpop, rfl⟩ := (execRet_next h).resolve_right hcomplete
    exact (pop_bounds hpop rfl).trans (bounds_withPc rfl _)
  | push ops =>
    obtain ⟨x, rfl, _, hpush⟩ := (execPush_next h).resolve_right hcomplete
    exact push_bounds hpush rfl
  | pop ops =>
    obtain ⟨i, v, u, rfl, hpop, hw⟩ := (execPop_next h).resolve_right hcomplete
    exact (pop_bounds hpop rfl).trans (writeReg_bounds hw List.mem_cons_self)
  | ldr ops =>
    obtain ⟨i, x, rfl, _, _, hw⟩ := (execLdr_next h).resolve_right hcomplete
    exact writeReg_bounds hw List.mem_cons_self
  | str ops =>
    obtain ⟨x, y, rfl, _, _, hw⟩ := (execStr_next h).resolve_right hcomplete
    exact memWrite_bounds hw List.mem_cons_self rfl
  | dsp ops | cls ops | bfr ops | sb ops | col ops => exact displayOp_bounds _ h hnone
  | prt ops =>
    obtain ⟨x, rfl, _, rfl⟩ := (execPrt_next h).resolve_right hcomplete
    split
    · exact bounds_emit _ s _
    · exact Footprint.Bounds.refl _ s
  | rnd ops =>
    obtain ⟨dst, rfl, hw⟩ := (execRnd_next h).resolve_right hcomplete
    have hp := hpermits rfl rfl rfl dst List.mem_cons_self
    exact (bounds_drawRandom _ s).trans (writeOperand_bounds hw (hp.congr rfl rfl))
  | hlt ops =>
    obtain ⟨rfl, rfl⟩ := (execHlt_next h).resolve_right hcomplete
    exact bounds_withHalted (by simp [footprint]) true

theorem writesZN_eq_false {opc : Opcode} (h : writesFlags opc = false) : writesZN opc = false := by
  unfold writesZN
  split
  · rfl
  · exact h

theorem writesCO_eq_false {opc : Opcode} (h : writesFlags opc = false) : writesCO opc = false := by
  unfold writesCO
  split
  · rfl
  · rfl
  · exact h

/-- Settles O56: the flags are within the footprint, which names Z with N and C with O apart. -/
theorem flagsChangeOnlyWhereTheRowSays : Obligations.FlagsChangeOnlyWhereTheRowSays := by
  intro i s t h hnone
  have hb := exec_bounds h hnone
  refine ⟨fun hno => ?none, fun hmov => hb.zn ?mov, fun hshift => hb.co ?shift⟩
  case none =>
    obtain ⟨hz, hn⟩ := hb.zn (writesZN_eq_false hno)
    obtain ⟨hc, ho⟩ := hb.co (writesCO_eq_false hno)
    calc t.flags = ⟨t.flags.z, t.flags.n, t.flags.c, t.flags.o⟩ := rfl
      _ = ⟨s.flags.z, s.flags.n, s.flags.c, s.flags.o⟩ := by rw [hz, hn, hc, ho]
  case mov => simp [footprint, hmov, writesZN]
  case shift => rcases hshift with hop | hop <;> simp [footprint, hop, writesCO]

/-- Settles O57: the pc and the stack are within the footprint. -/
theorem pcAndStackChangeOnlyByTheirInstructions : Obligations.PcAndStackChangeOnlyByTheirInstructions :=
  fun _ _ _ h hnone => ⟨(exec_bounds h hnone).pc, (exec_bounds h hnone).stack⟩

/-- Settles O58: the registers and RAM are within the footprint. -/
theorem registersAndRamChangeOnlyWhereNamed : Obligations.RegistersAndRamChangeOnlyWhereNamed :=
  fun _ _ _ h hnone => ⟨(exec_bounds h hnone).regs, (exec_bounds h hnone).stores, (exec_bounds h hnone).ram⟩

end Sys2Proof.Machine
end

section
/-! PROOFS. Which steps count an instruction and which set `halted`: the end of the ROM told from the other fetches, and
the footprint of the executed instruction. -/

namespace Sys2Proof.Machine

/-- A fetch gives no bytes exactly at or past the end of the ROM. -/
theorem fetch_eq_none_iff {s : State} : fetch s = .ok none ↔ (s.rom.length : Int) ≤ s.pc := by
  unfold fetch
  constructor
  · intro h
    split at h
    · assumption
    · split at h
      · cases h
      · split at h
        · cases h
        · split at h <;> cases h
  · intro h
    simp [h]

@[simp] theorem countCompleted_last (t : State) : (countCompleted t).last = t.last := by
  unfold countCompleted
  split <;> rfl

@[simp] theorem countCompleted_halted (t : State) : (countCompleted t).halted = t.halted := by
  unfold countCompleted
  split <;> rfl

@[simp] theorem countCompleted_fault (t : State) : (countCompleted t).fault = t.fault := by
  unfold countCompleted
  split <;> rfl

theorem countCompleted_icount_of_none {t : State} (h : t.fault = none) :
    (countCompleted t).icount = t.icount + 1 := by
  simp [countCompleted, h]

theorem countCompleted_icount_of_fault {t : State} (h : t.fault ≠ none) : (countCompleted t).icount = t.icount := by
  simp [countCompleted, Option.isSome_iff_ne_none.2 h]

theorem exec_icount {i : Instr} {s t : State} (h : exec i s = .next t) : t.icount = s.icount := by
  rcases exec_kept h with hk | ⟨f, rfl⟩
  · exact hk.icount
  · rfl

theorem exec_last {i : Instr} {s t : State} (h : exec i s = .next t) : t.last = s.last := by
  rcases exec_kept h with hk | ⟨f, rfl⟩
  · exact hk.last
  · rfl

/-- An instruction that leaves `halted` other than it found it is a HLT without operands. -/
theorem eq_hlt_of_exec_halted_ne {i : Instr} {s t : State} (hnone : s.fault = none) (h : exec i s = .next t)
    (hne : t.halted ≠ s.halted) : i = .hlt [] := by
  rcases exec_kept h with hk | ⟨f, rfl⟩
  · have hb := exec_bounds h (hk.fault.trans hnone)
    by_contra hi
    exact hne (hb.halted (decide_eq_false hi))
  · exact absurd rfl hne

/-- Settles O13: of the cases of `step_cases` only an executed instruction reaches the count, which asks whether it
faulted; `fetch_eq_none_iff` tells the end of the ROM from the rest. -/
theorem counterCountsCompletedInstructions : Obligations.CounterCountsCompletedInstructions := by
  intro s t h
  rcases step_cases h with ⟨hidle, rfl⟩ | ⟨_, hend, rfl⟩ | ⟨_, f, _, rfl⟩ | ⟨_, bytes, e, _, _, rfl⟩ |
    ⟨hrun, bytes, i, u, hfetch, _, hexec, rfl⟩
  · exact ⟨fun _ => rfl, fun hrun => by simp [hidle] at hrun⟩
  · exact ⟨fun _ => rfl, fun _ hlt => absurd (fetch_eq_none_iff.1 hend) (Int.not_le.2 hlt)⟩
  · exact ⟨fun _ => rfl, fun _ _ => ⟨fun hnone => by simp at hnone, fun _ => rfl⟩⟩
  · exact ⟨fun _ => rfl, fun _ _ => ⟨fun hnone => by simp at hnone, fun _ => rfl⟩⟩
  · have hcount : u.icount = s.icount := (exec_icount hexec).trans rfl
    have hinside : ¬ (s.rom.length : Int) ≤ s.pc := by
      rw [← fetch_eq_none_iff, hfetch]
      simp
    refine ⟨fun hstop => ?_, fun _ _ => ⟨fun hnone => ?_, fun hfault => ?_⟩⟩
    · simp [hrun, hinside] at hstop
    · rw [countCompleted_fault] at hnone
      rw [countCompleted_icount_of_none hnone, hcount]
    · rw [countCompleted_fault] at hfault
      rw [countCompleted_icount_of_fault hfault, hcount]

/-- Settles O15: an idle step and a fault keep `halted`, and an instruction that sets it is the HLT just recorded. -/
theorem haltedOnlyByHltOrEndOfRom : Obligations.HaltedOnlyByHltOrEndOfRom := by
  intro s t h
  rcases step_cases h with ⟨_, rfl⟩ | ⟨_, hend, rfl⟩ | ⟨_, f, _, rfl⟩ | ⟨_, bytes, e, _, _, rfl⟩ |
    ⟨hrun, bytes, i, u, _, _, hexec, rfl⟩
  · exact ⟨id, fun hnot hset => by simp [hnot] at hset⟩
  · exact ⟨fun _ => rfl, fun _ _ => .inl (fetch_eq_none_iff.1 hend)⟩
  · exact ⟨id, fun hnot hset => by simp [hnot] at hset⟩
  · exact ⟨id, fun hnot hset => by simp [hnot] at hset⟩
  · obtain ⟨hnot, _, hnone⟩ := isIdle_eq_false_iff.1 hrun
    refine ⟨fun hhalted => by simp [hnot] at hhalted, fun _ hset => .inr ?_⟩
    rw [countCompleted_halted] at hset
    have hne : u.halted ≠ (executing i bytes s).halted := by simp [executing, hset, hnot]
    have hready : (executing i bytes s).fault = none := hnone
    obtain rfl := eq_hlt_of_exec_halted_ne hready hexec hne
    rw [countCompleted_last, exec_last hexec]
    rfl

end Sys2Proof.Machine
end

section
/-! PROOFS. Capping, the register file, and the states a machine starts in. -/

namespace Sys2Proof.Machine

/-- `MOD_B` is twice `MAX + 1`, and `MIN` is `-(MAX + 1)` (00_scope.md R6). -/
theorem modB_min_max {c : Config} (hbits : 1 ≤ c.bits) :
    0 ≤ c.max ∧ c.modB = 2 * (c.max + 1) ∧ c.min = -(c.max + 1) := by
  have hpos : 0 < 2 ^ (c.bits - 1) := Nat.two_pow_pos _
  have hdouble : 2 ^ c.bits = 2 * 2 ^ (c.bits - 1) := by
    rw [← pow_succ', Nat.sub_add_cancel hbits]
  simp only [Config.max, Config.min, Config.modB, hdouble]
  omega

/-- The range of capping holds one integer of each class modulo `MOD_B`. -/
theorem cappedTo_unique {c : Config} {raw v w : Int} (hbits : 1 ≤ c.bits) (hv : CappedTo c raw v)
    (hw : CappedTo c raw w) : v = w := by
  obtain ⟨_, hmod, hmin⟩ := modB_min_max hbits
  obtain ⟨hv_min, hv_max, hv_dvd⟩ := hv
  obtain ⟨hw_min, hw_max, hw_dvd⟩ := hw
  have hdvd : c.modB ∣ v - w := by simpa using Int.dvd_sub hw_dvd hv_dvd
  have hlt : |v - w| < c.modB := by
    rw [abs_lt]
    omega
  have hzero : v - w = 0 := Int.eq_zero_of_abs_lt_dvd hdvd hlt
  omega

theorem cap_value_of_inRange {c : Config} {raw : Int} (h : ¬ (raw > c.max ∨ raw < c.min)) :
    (cap c raw).value = raw := by
  simp only [cap, h, if_false]

theorem cap_value_of_outOfRange {c : Config} {raw : Int} (h : raw > c.max ∨ raw < c.min) :
    (cap c raw).value = wrapHigh c (raw.fmod c.modB) := by
  simp only [cap, h, if_true]

theorem cap_carry (c : Config) (raw : Int) : (cap c raw).carry = decide (raw ≥ c.modB ∨ raw < 0) := by
  unfold cap
  split <;> rfl

theorem cap_overflow (c : Config) (raw : Int) : (cap c raw).overflow = decide (raw > c.max ∨ raw < c.min) := by
  unfold cap
  split <;> simp [*]

/-- Subtracting `MOD_B` above `MAX` moves a residue in `[0, MOD_B)` into the range of capping. -/
theorem wrapHigh_cappedTo {c : Config} {raw r : Int} (hbits : 1 ≤ c.bits) (hr0 : 0 ≤ r) (hr : r < c.modB)
    (hdvd : c.modB ∣ raw - r) : CappedTo c raw (wrapHigh c r) := by
  obtain ⟨_, hmod, hmin⟩ := modB_min_max hbits
  unfold wrapHigh
  split
  · refine ⟨by omega, by omega, ?_⟩
    have hshift : raw - (r - c.modB) = raw - r + c.modB := by ring
    rw [hshift]
    exact Int.dvd_add hdvd (Int.dvd_refl _)
  · exact ⟨by omega, by omega, hdvd⟩

theorem cap_cappedTo {c : Config} (hbits : 1 ≤ c.bits) (raw : Int) : CappedTo c raw (cap c raw).value := by
  obtain ⟨hmax, hmod, _⟩ := modB_min_max hbits
  have hpos : 0 < c.modB := by omega
  by_cases h : raw > c.max ∨ raw < c.min
  · rw [cap_value_of_outOfRange h]
    exact wrapHigh_cappedTo hbits (Int.fmod_nonneg_of_pos raw hpos) (Int.fmod_lt_of_pos raw hpos)
      Int.dvd_self_sub_fmod
  · rw [cap_value_of_inRange h]
    exact ⟨by omega, by omega, by simp⟩

/-- Settles O23: the capped value meets its specification, which one integer alone meets; each flag is its condition. -/
theorem cappingWrapsAndSetsCarryOverflow : Obligations.CappingWrapsAndSetsCarryOverflow :=
  fun c raw _ hbits =>
    ⟨cap_cappedTo hbits raw, fun hv => cappedTo_unique hbits hv (cap_cappedTo hbits raw),
      by rw [cap_carry, decide_eq_true_iff], by rw [cap_overflow, decide_eq_true_iff]⟩

theorem readReg_set_same {s : State} {i : Int} (v : Int) (hvalid : validReg s i)
    (hlen : s.regs.length = s.cfg.registerCount) : readReg (s.withRegs (s.regs.set i.toNat v)) i = .ok v := by
  have hlt : i.toNat < s.regs.length := by omega
  have hvalid' : validReg (s.withRegs (s.regs.set i.toNat v)) i := hvalid
  rw [readReg_valid hvalid']
  simp [regValue, hlt]

theorem readReg_set_other {s : State} {i j : Int} (v : Int) (hi : 0 ≤ i) (hne : j ≠ i) :
    readReg (s.withRegs (s.regs.set i.toNat v)) j = readReg s j := by
  by_cases hj : validReg s j
  · have hij : i.toNat ≠ j.toNat := by omega
    have hj' : validReg (s.withRegs (s.regs.set i.toNat v)) j := hj
    rw [readReg_valid hj, readReg_valid hj']
    simp [regValue, List.getD, List.getElem?_set_ne hij]
  · have hj' : ¬ validReg (s.withRegs (s.regs.set i.toNat v)) j := hj
    rw [readReg_invalid hj, readReg_invalid hj']

/-- Settles O24: for a register of the machine by read after write, for any other id by the two faults. -/
theorem registerAccessChecksTheId : Obligations.RegisterAccessChecksTheId := by
  intro s i v
  refine ⟨fun hvalid => ⟨readReg_valid hvalid, fun hlen => ?_⟩,
    fun hinvalid => ⟨readReg_invalid hinvalid, writeReg_invalid v hinvalid⟩⟩
  exact ⟨s.withRegs (s.regs.set i.toNat v), writeReg_valid v hvalid, readReg_set_same v hvalid hlen,
    fun j hne => readReg_set_other v hvalid.1 hne, rfl⟩

/-- A constructed machine has one word per register, and its RAM, stack and fault record are empty. -/
theorem construct_machineInv {cfg : Config} (rom : List Byte) (hlegal : cfg.legal) : MachineInv (construct cfg rom) :=
  ⟨hlegal, List.length_replicate, rfl, fun _ hp => absurd hp List.not_mem_nil, Nat.zero_le _, .inl rfl⟩

theorem config_default_legal : Config.default.legal := by decide

theorem reset_eq_pause_construct : State.reset = pause (construct Config.default []) := rfl

/-- The invariant does not speak of `paused`. -/
theorem pause_machineInv {s : State} (h : MachineInv s) : MachineInv (pause s) := h

/-- Settles O19: the state after reset is the default construction, paused. -/
theorem resetAndConstructionMeetTheInvariant : Obligations.ResetAndConstructionMeetTheInvariant := by
  refine ⟨?reset, fun cfg rom hlegal => construct_machineInv rom hlegal⟩
  rw [reset_eq_pause_construct]
  exact pause_machineInv (construct_machineInv [] config_default_legal)

end Sys2Proof.Machine
end

section
/-! PROOFS. What no step changes; the checks of a RAM address and of the stack; and reading and writing an operand, which
`readable` and `writable` decide. -/

namespace Sys2Proof.Machine

/-! What a step leaves unchanged. -/

@[simp] theorem countCompleted_rom (t : State) : (countCompleted t).rom = t.rom := by
  unfold countCompleted
  split <;> rfl

@[simp] theorem countCompleted_cfg (t : State) : (countCompleted t).cfg = t.cfg := by
  unfold countCompleted
  split <;> rfl

@[simp] theorem countCompleted_paused (t : State) : (countCompleted t).paused = t.paused := by
  unfold countCompleted
  split <;> rfl

theorem exec_rom_cfg_paused {i : Instr} {s t : State} (h : exec i s = .next t) :
    t.rom = s.rom ∧ t.cfg = s.cfg ∧ t.paused = s.paused := by
  rcases exec_kept h with hk | ⟨f, rfl⟩
  · exact ⟨hk.rom, hk.cfg, hk.paused⟩
  · exact ⟨rfl, rfl, rfl⟩

/-- Settles O16: of the cases of `step_cases` only the executed instruction could change them, and `exec` does not. -/
theorem stepKeepsRomParametersAndPaused : Obligations.StepKeepsRomParametersAndPaused := by
  intro s t h
  rcases step_cases h with ⟨_, rfl⟩ | ⟨_, _, rfl⟩ | ⟨_, f, _, rfl⟩ | ⟨_, bytes, e, _, _, rfl⟩ |
    ⟨_, bytes, i, u, _, _, hexec, rfl⟩
  case inr.inr.inr.inr => simpa [executing] using exec_rom_cfg_paused hexec
  all_goals exact ⟨rfl, rfl, rfl⟩

/-! RAM and the stack. -/

theorem memRead_write_same {s : State} {a : Int} (v : Int) (hvalid : validAddr s a) (hwf : Memory.wf s.ram = true) :
    memRead (s.withRam (Memory.write s.ram a.toNat v)) a = .ok v := by
  have hvalid' : validAddr (s.withRam (Memory.write s.ram a.toNat v)) a := hvalid
  rw [memRead_valid hvalid', withRam_ram, Memory.read_write_same _ _ hwf]

theorem memRead_write_other {s : State} {a b : Int} (v : Int) (ha : 0 ≤ a) (hne : b ≠ a) :
    memRead (s.withRam (Memory.write s.ram a.toNat v)) b = memRead s b := by
  by_cases hb : validAddr s b
  · have hb' : validAddr (s.withRam (Memory.write s.ram a.toNat v)) b := hb
    have hba : b.toNat ≠ a.toNat := by omega
    rw [memRead_valid hb, memRead_valid hb', withRam_ram, Memory.read_write_other hba]
  · have hb' : ¬ validAddr (s.withRam (Memory.write s.ram a.toNat v)) b := hb
    rw [memRead_invalid hb, memRead_invalid hb']

/-- Settles O25: for an address of RAM by read after write, for any other by the two faults. -/
theorem ramAccessChecksTheAddress : Obligations.RamAccessChecksTheAddress := by
  intro s a v
  refine ⟨fun hvalid => ⟨memRead_valid hvalid, fun hwf => ?_⟩,
    fun hinvalid => ⟨memRead_invalid hinvalid, memWrite_invalid v hinvalid⟩⟩
  exact ⟨s.withRam (Memory.write s.ram a.toNat v), memWrite_valid v hvalid, memRead_write_same v hvalid hwf,
    fun b hne => memRead_write_other v hvalid.1 hne, rfl⟩

/-- Settles O26: the two cases of a push and the two of a pop. -/
theorem pushAndPopPrimitives : Obligations.PushAndPopPrimitives :=
  fun _ v => ⟨push_full v, push_room v, pop_empty, fun _ _ => pop_top⟩

/-! Reading an operand. -/

theorem readOperand_registerMemory_valid {s : State} {i : Int} (h : validReg s i) :
    readOperand s (.registerMemory i) = memRead s (regValue s i) := by
  simp only [readOperand, readReg_valid h]

theorem readOperand_registerMemory_invalid {s : State} {i : Int} (h : ¬ validReg s i) :
    readOperand s (.registerMemory i) = .error (.invalidRegister i) := by
  simp only [readOperand, readReg_invalid h]

theorem operandFault_registerMemory_valid {s : State} {i : Int} (h : validReg s i) :
    operandFault s (.registerMemory i) = .accessViolation (regValue s i) := if_pos h

theorem operandFault_registerMemory_invalid {s : State} {i : Int} (h : ¬ validReg s i) :
    operandFault s (.registerMemory i) = .invalidRegister i := if_neg h

theorem readOperand_readable {s : State} {op : Operand} (h : readable s op = true) :
    readOperand s op = .ok (operandValue s op) := by
  cases op with
  | register i => exact readReg_valid (of_decide_eq_true h)
  | immediate k => rfl
  | memoryAddress a => exact memRead_valid (of_decide_eq_true h)
  | registerMemory i =>
    obtain ⟨hreg, haddr⟩ := of_decide_eq_true h
    rw [readOperand_registerMemory_valid hreg]
    exact memRead_valid haddr

theorem readOperand_unreadable {s : State} {op : Operand} (h : readable s op = false) :
    readOperand s op = .error (operandFault s op) := by
  cases op with
  | register i => exact readReg_invalid (of_decide_eq_false h)
  | immediate k => cases h
  | memoryAddress a => exact memRead_invalid (of_decide_eq_false h)
  | registerMemory i =>
    by_cases hreg : validReg s i
    · have haddr : ¬ validAddr s (regValue s i) := fun ha => of_decide_eq_false h ⟨hreg, ha⟩
      rw [readOperand_registerMemory_valid hreg, operandFault_registerMemory_valid hreg]
      exact memRead_invalid haddr
    · rw [readOperand_registerMemory_invalid hreg, operandFault_registerMemory_invalid hreg]

/-- Settles O27: form by form, the register before the address that it holds. -/
theorem readOperandDereferences : Obligations.ReadOperandDereferences :=
  fun _ _ => ⟨readOperand_readable, readOperand_unreadable⟩

/-! Writing an operand. -/

theorem writeOperand_registerMemory_valid {s : State} {i : Int} (v : Int) (h : validReg s i) :
    writeOperand s (.registerMemory i) v = memWrite s (regValue s i) v := by
  simp only [writeOperand, readReg_valid h]

theorem writeOperand_registerMemory_invalid {s : State} {i : Int} (v : Int) (h : ¬ validReg s i) :
    writeOperand s (.registerMemory i) v = .error (.invalidRegister i) := by
  simp only [writeOperand, readReg_invalid h]

theorem writeOperand_writable {s : State} {op : Operand} (v : Int) (h : writable s op = true) :
    ∃ t, writeOperand s op v = .ok t := by
  cases op with
  | register i => exact ⟨_, writeReg_valid v (of_decide_eq_true h)⟩
  | immediate k => cases h
  | memoryAddress a => exact ⟨_, memWrite_valid v (of_decide_eq_true h)⟩
  | registerMemory i =>
    obtain ⟨hreg, haddr⟩ := of_decide_eq_true h
    rw [writeOperand_registerMemory_valid v hreg]
    exact ⟨_, memWrite_valid v haddr⟩

theorem writeOperand_unwritable {s : State} {op : Operand} (v : Int) (h : writable s op = false) :
    writeOperand s op v = .error (operandFault s op) := by
  cases op with
  | register i => exact writeReg_invalid v (of_decide_eq_false h)
  | immediate k => rfl
  | memoryAddress a => exact memWrite_invalid v (of_decide_eq_false h)
  | registerMemory i =>
    by_cases hreg : validReg s i
    · have haddr : ¬ validAddr s (regValue s i) := fun ha => of_decide_eq_false h ⟨hreg, ha⟩
      rw [writeOperand_registerMemory_valid v hreg, operandFault_registerMemory_valid hreg]
      exact memWrite_invalid v haddr
    · rw [writeOperand_registerMemory_invalid v hreg, operandFault_registerMemory_invalid hreg]

/-- A written register is the one location that a Register operand names. -/
theorem wrote_register {s : State} {i : Int} (v : Int) (hvalid : validReg s i)
    (hlen : s.regs.length = s.cfg.registerCount) :
    Wrote s (s.withRegs (s.regs.set i.toNat v)) (.register i) v := by
  refine ⟨fun j hj => ?_, List.length_set, fun a haddr => absurd haddr (by simp [operandAddress]), fun _ _ => rfl⟩
  by_cases hij : i = j
  · have hlt : j < s.regs.length := hlen ▸ hj
    simp [hij, hlt]
  · have hne : i.toNat ≠ j := by omega
    simp [hij, hne]

/-- A written RAM word is the one location that an operand with that address names. -/
theorem wrote_ram {s : State} {op : Operand} {a : Int} (v : Int) (haddr : operandAddress s op = .ok (some a))
    (hwf : Memory.wf s.ram = true) : Wrote s (s.withRam (Memory.write s.ram a.toNat v)) op v := by
  refine ⟨fun j _ => ?regs, rfl, fun b hb => ?named, fun hnone => ?unnamed⟩
  case regs =>
    have hform : op ≠ .register j := by
      rintro rfl
      cases haddr
    rw [if_neg hform, withRam_regs]
  case named =>
    obtain rfl : a = b := by simpa [haddr] using hb
    exact ⟨Memory.read_write_same _ _ hwf, fun c hne => Memory.read_write_other hne⟩
  case unnamed => simp [haddr] at hnone

theorem writeOperand_wrote {s t : State} {op : Operand} {v : Int} (hlen : s.regs.length = s.cfg.registerCount)
    (hwf : Memory.wf s.ram = true) (h : writeOperand s op v = .ok t) : Wrote s t op v := by
  rcases writeOperand_ok h with ⟨i, rfl, hvalid, rfl⟩ | ⟨a, haddr, _, rfl⟩
  · exact wrote_register v hvalid hlen
  · exact wrote_ram v haddr hwf

/-- Settles O28: a writable operand's write completes, and a completed write is `Wrote` with the frame of
`writeOperand_frame`. -/
theorem writeOperandWritesOneLocation : Obligations.WriteOperandWritesOneLocation := by
  intro s op v ⟨_, hlen, hwf, _⟩
  refine ⟨fun hw => ?_, writeOperand_unwritable v⟩
  obtain ⟨t, ht⟩ := writeOperand_writable v hw
  exact ⟨t, ht, writeOperand_wrote hlen hwf ht, writeOperand_frame ht⟩

end Sys2Proof.Machine
end

section
/-! PROOFS. What an instruction does once its operands have been read: an equation for each meaning, up to its write or
its access to the stack; and the faults raised there. -/

namespace Sys2Proof.Machine

/-- A rule that ends in an error raises it. -/
theorem finish_raises {s : State} {r : Except Fault State} {f : Fault} (h : r = .error f) :
    ∃ t, finish s r = .next t ∧ Raised s t f :=
  ⟨takeFault f s, by rw [h, finish_error], takeFault_raised f s⟩

section Reads

variable {s u : State} {dst src : Operand} {opc : Opcode}

theorem execMov_reads (dst : Operand) (hsrc : readable s src = true) : execMov [dst, src] s =
    finish s (writeOperand (capFlags s (operandValue s src)).2 dst (capFlags s (operandValue s src)).1) := by
  simp only [execMov, execute2, readOperand_readable hsrc]

theorem arith1_reads (raw : Int → Int) (hdst : readable s dst = true) :
    arith1 opc raw [dst] s = finish s (writeArith s dst (raw (operandValue s dst))) := by
  simp only [arith1, execute1, readOperand_readable hdst]

theorem arith2_reads {raw : Int → Int → Except Fault Int} {r : Int} (hdst : readable s dst = true)
    (hsrc : readable s src = true) (hraw : raw (operandValue s dst) (operandValue s src) = .ok r) :
    arith2 opc raw [dst, src] s = finish s (writeArith s dst r) := by
  simp only [arith2, execute2, readOperand_readable hdst, readOperand_readable hsrc, hraw]

theorem logic2_reads (op : Int → Int → Int) (hdst : readable s dst = true) (hsrc : readable s src = true) :
    logic2 opc op [dst, src] s =
      finish s (writeOperand (boolFlags s (op (operandValue s dst) (operandValue s src))) dst
        (op (operandValue s dst) (operandValue s src))) := by
  simp only [logic2, execute2, readOperand_readable hdst, readOperand_readable hsrc]

theorem execNot_reads (hdst : readable s dst = true) : execNot [dst] s =
    finish s (writeOperand (boolFlags s (intNot (operandValue s dst))) dst (intNot (operandValue s dst))) := by
  simp only [execNot, execute1, readOperand_readable hdst]

theorem execLdr_reads (i : Int) (hsrc : readable s src = true) (haddr : validAddr s (operandValue s src)) :
    execLdr [.register i, src] s =
      finish s (writeReg s i (Memory.read s.ram (operandValue s src).toNat)) := by
  simp only [execLdr, executeReg2, execute2, readOperand_readable hsrc, memRead_valid haddr]

theorem execPush_reads (hsrc : readable s src = true) : execPush [src] s = finish s (push s (operandValue s src)) := by
  simp only [execPush, execute1, readOperand_readable hsrc]

theorem execCall_push_error {f : Fault} (hsrc : readable s src = true) (hpush : push s s.pc = .error f) :
    execCall [src] s = finish s (.error f) := by
  simp only [execCall, execute1, readOperand_readable hsrc, hpush]

theorem execRet_pop_error {f : Fault} (hpop : pop s = .error f) : execRet [] s = finish s (.error f) := by
  simp only [execRet, execute0, hpop]

theorem execPop_pop_error {f : Fault} (i : Int) (hpop : pop s = .error f) :
    execPop [.register i] s = finish s (.error f) := by
  simp only [execPop, executeReg1, execute1, hpop]

theorem execPop_pop_ok {v : Int} (i : Int) (hpop : pop s = .ok (v, u)) :
    execPop [.register i] s = finish s (writeReg u i v) := by
  simp only [execPop, executeReg1, execute1, hpop]

theorem execClr_first_error {f : Fault} (src : Operand) (hfirst : writeOperand s dst 0 = .error f) :
    execClr [dst, src] s = finish s (.error f) := by
  simp only [execClr, execute2, hfirst]

theorem execClr_first_ok (src : Operand) (hfirst : writeOperand s dst 0 = .ok u) :
    execClr [dst, src] s = finish s (writeOperand u src 0) := by
  simp only [execClr, execute2, hfirst]

end Reads

/-! The fault of a write in a state that has the parameters and the registers of another. -/

section SameRegisters

variable {s u : State} {op : Operand}

/-- Whether an operand can be written depends on the parameters and the registers only. -/
theorem writable_congr (hcfg : u.cfg = s.cfg) (hregs : u.regs = s.regs) (op : Operand) :
    writable u op = writable s op := by
  cases op <;> simp [writable, readable, regValue, hcfg, hregs]

/-- Which fault an operand raises depends on the parameters and the registers only. -/
theorem operandFault_congr (hcfg : u.cfg = s.cfg) (hregs : u.regs = s.regs) (op : Operand) :
    operandFault u op = operandFault s op := by
  cases op <;> simp [operandFault, validReg, regValue, hcfg, hregs]

theorem writeOperand_unwritable_congr (v : Int) (hcfg : u.cfg = s.cfg) (hregs : u.regs = s.regs)
    (h : writable s op = false) : writeOperand u op v = .error (operandFault s op) := by
  rw [← operandFault_congr hcfg hregs op]
  exact writeOperand_unwritable v ((writable_congr hcfg hregs op).trans h)

/-- CLR's first write leaves the parameters and the registers of `afterFirstClear`. -/
theorem first_clear_cfg_regs (h : writeOperand s op 0 = .ok u) :
    u.cfg = (afterFirstClear s op).cfg ∧ u.regs = (afterFirstClear s op).regs := by
  rcases writeOperand_ok h with ⟨i, rfl, _, rfl⟩ | ⟨a, haddr, _, rfl⟩
  · exact ⟨rfl, rfl⟩
  · cases op with
    | register i => cases haddr
    | immediate k => cases haddr
    | memoryAddress b => exact ⟨rfl, rfl⟩
    | registerMemory i => exact ⟨rfl, rfl⟩

end SameRegisters

/-! Destinations that cannot be written. -/

section Unwritable

variable {s : State} {dst src : Operand} {opc : Opcode}

theorem execRnd_unwritable (h : writable s dst = false) :
    ∃ t, execRnd [dst] s = .next t ∧ Raised s t (operandFault s dst) :=
  finish_raises (writeOperand_unwritable_congr _ rfl rfl h)

theorem execMov_unwritable (h : writable s dst = false) (hsrc : readable s src = true) :
    ∃ t, execMov [dst, src] s = .next t ∧ Raised s t (operandFault s dst) := by
  rw [execMov_reads dst hsrc]
  exact finish_raises (writeOperand_unwritable_congr _ rfl rfl h)

theorem execClr_first_unwritable (src : Operand) (h : writable s dst = false) :
    ∃ t, execClr [dst, src] s = .next t ∧ Raised s t (operandFault s dst) := by
  rw [execClr_first_error src (writeOperand_unwritable 0 h)]
  exact finish_raises rfl

theorem execClr_second_unwritable (hdst : writable s dst = true)
    (h : writable (afterFirstClear s dst) src = false) :
    ∃ t, execClr [dst, src] s = .next t ∧ Raised s t (operandFault (afterFirstClear s dst) src) := by
  obtain ⟨u, hfirst⟩ := writeOperand_writable 0 hdst
  obtain ⟨hcfg, hregs⟩ := first_clear_cfg_regs hfirst
  rw [execClr_first_ok src hfirst]
  exact finish_raises (writeOperand_unwritable_congr 0 hcfg hregs h)

theorem arith1_immediate (raw : Int → Int) (k : Int) :
    ∃ t, arith1 opc raw [.immediate k] s = .next t ∧ Raised s t (.invalidWriteTarget k) := by
  rw [arith1_reads raw rfl]
  exact finish_raises rfl

theorem execNot_immediate (k : Int) :
    ∃ t, execNot [.immediate k] s = .next t ∧ Raised s t (.invalidWriteTarget k) := by
  rw [execNot_reads rfl]
  exact finish_raises rfl

/-- The operation's own check comes before the write: it must give a result for the write to be reached. -/
theorem arith2_immediate {raw : Int → Int → Except Fault Int} {k r : Int} (hsrc : readable s src = true)
    (hraw : raw k (operandValue s src) = .ok r) :
    ∃ t, arith2 opc raw [.immediate k, src] s = .next t ∧ Raised s t (.invalidWriteTarget k) := by
  rw [arith2_reads rfl hsrc hraw]
  exact finish_raises rfl

theorem logic2_immediate (op : Int → Int → Int) (k : Int) (hsrc : readable s src = true) :
    ∃ t, logic2 opc op [.immediate k, src] s = .next t ∧ Raised s t (.invalidWriteTarget k) := by
  rw [logic2_reads op rfl hsrc]
  exact finish_raises rfl

theorem execPop_invalidRegister {r : Int} (hreg : ¬ validReg s r) (hstack : s.stack ≠ []) :
    ∃ t, execPop [.register r] s = .next t ∧ Raised s t (.invalidRegister r) := by
  rw [execPop_pop_ok r (pop_top (List.dropLast_concat_getLast hstack).symm)]
  exact finish_raises (writeReg_invalid _ hreg)

theorem execLdr_invalidRegister {r : Int} (hreg : ¬ validReg s r) (hsrc : readable s src = true)
    (haddr : validAddr s (operandValue s src)) :
    ∃ t, execLdr [.register r, src] s = .next t ∧ Raised s t (.invalidRegister r) := by
  rw [execLdr_reads r hsrc haddr]
  exact finish_raises (writeReg_invalid _ hreg)

end Unwritable

/-- Settles O30: one lemma per meaning; the arithmetic and the logical instructions share theirs. -/
theorem unwritableDestinationFaults : Obligations.UnwritableDestinationFaults := by
  intro s dst src k r
  simp only [List.forall_mem_cons, List.not_mem_nil, false_imp_iff, implies_true, and_true]
  refine ⟨fun h => ?rndClr, execClr_second_unwritable, execMov_unwritable, ?oneOperand, fun hsrc => ?twoOperands,
    fun hsrc hne => ?division, execPop_invalidRegister, execLdr_invalidRegister⟩
  case rndClr => exact ⟨execRnd_unwritable h, execClr_first_unwritable src h⟩
  case oneOperand =>
    simp only [exec, execInc, execDec, execNeg]
    exact ⟨arith1_immediate _ k, arith1_immediate _ k, arith1_immediate _ k, execNot_immediate k⟩
  case twoOperands =>
    simp only [exec, execAdd, execSub, execMul, execAnd, execOr, execXor]
    exact ⟨arith2_immediate hsrc rfl, arith2_immediate hsrc rfl, arith2_immediate hsrc rfl,
      logic2_immediate _ k hsrc, logic2_immediate _ k hsrc, logic2_immediate _ k hsrc⟩
  case division =>
    simp only [exec, execDiv, execMod]
    exact ⟨arith2_immediate hsrc (if_neg hne), arith2_immediate hsrc (if_neg hne)⟩

/-! The limits of the stack. -/

section StackLimits

variable {s : State} {src : Operand}

theorem execPush_full (hfull : s.stack.length = s.cfg.stackSize) (hsrc : readable s src = true) :
    ∃ t, execPush [src] s = .next t ∧ Raised s t (.stackOverflow s.stack.length) := by
  rw [execPush_reads hsrc]
  exact finish_raises (push_full _ hfull)

theorem execCall_full (hfull : s.stack.length = s.cfg.stackSize) (hsrc : readable s src = true) :
    ∃ t, execCall [src] s = .next t ∧ Raised s t (.stackOverflow s.stack.length) := by
  rw [execCall_push_error hsrc (push_full _ hfull)]
  exact finish_raises rfl

/-- The register is not looked at: the underflow comes before its check. -/
theorem execPop_empty (i : Int) (hempty : s.stack = []) :
    ∃ t, execPop [.register i] s = .next t ∧ Raised s t (.stackUnderflow 0) := by
  rw [execPop_pop_error i (pop_empty hempty)]
  exact finish_raises rfl

theorem execRet_empty (hempty : s.stack = []) :
    ∃ t, execRet [] s = .next t ∧ Raised s t (.stackUnderflow 0) := by
  rw [execRet_pop_error (pop_empty hempty)]
  exact finish_raises rfl

end StackLimits

/-- Settles O49: the two instructions that push on a full stack, the two that pop from an empty one. -/
theorem stackLimitsFault : Obligations.StackLimitsFault := by
  intro s
  simp only [List.forall_mem_cons, List.not_mem_nil, false_imp_iff, implies_true, and_true]
  exact ⟨fun hfull x hsrc => ⟨execPush_full hfull hsrc, execCall_full hfull hsrc⟩,
    fun hempty r => ⟨execPop_empty r hempty, execRet_empty hempty⟩⟩

end Sys2Proof.Machine
end

section
/-! PROOFS. The codec of one operand and of a list of operands: a payload and its type bits decode to the operands they
encode, and to no others (30_encoding.md R51 to R55). -/

namespace Sys2Proof

/-! Bit fields as quotients and remainders. -/

theorem bits_eq_div_mod (v hi lo : Nat) : bits v hi lo = v / 2 ^ lo % 2 ^ (hi - lo + 1) := by
  rw [bits, Nat.shiftRight_eq_div_pow]

/-- Fields that do not overlap are added. -/
theorem or_shiftLeft_eq_add {low k : Nat} (h : low < 2 ^ k) (high : Nat) : low ||| high <<< k = low + high * 2 ^ k := by
  rw [Nat.or_comm, ← Nat.shiftLeft_add_eq_or_of_lt h, Nat.shiftLeft_eq, Nat.add_comm]

theorem join2_eq_sum (b0 b1 : Byte) : b0.toNat ||| b1.toNat <<< 8 = b0.toNat + b1.toNat * 2 ^ 8 :=
  or_shiftLeft_eq_add b0.isLt _

theorem join4_eq_sum (b0 b1 b2 b3 : Byte) :
    b0.toNat ||| b1.toNat <<< 8 ||| b2.toNat <<< 16 ||| b3.toNat <<< 24 =
      b0.toNat + b1.toNat * 2 ^ 8 + b2.toNat * 2 ^ 16 + b3.toNat * 2 ^ 24 := by
  have h0 := b0.isLt
  have h1 := b1.isLt
  have h2 := b2.isLt
  rw [join2_eq_sum, or_shiftLeft_eq_add (low := b0.toNat + b1.toNat * 2 ^ 8) (by omega), or_shiftLeft_eq_add (by omega)]

/-! The encoder on one operand. -/

/-- An operand's payload in range has an encoding. -/
theorem encodeOperand_of_wf {op : Operand} (h : op.wf = true) : ∃ bytes, encodeOperand op = .ok bytes := by
  cases op with
  | register v | immediate v | memoryAddress v | registerMemory v =>
    have hrange := of_decide_eq_true h
    exact ⟨_, if_neg (by omega)⟩

/-- A payload out of range is refused with its value. -/
theorem encodeOperand_of_not_wf {op : Operand} (h : op.wf = false) :
    ∃ v, encodeOperand op = .error (.payloadRange v) ∧
      (op = .register v ∨ op = .immediate v ∨ op = .memoryAddress v ∨ op = .registerMemory v) := by
  cases op with
  | register v | immediate v | memoryAddress v | registerMemory v =>
    have hrange := of_decide_eq_false h
    exact ⟨v, if_pos (by omega), by simp⟩

theorem wf_of_encodeOperand {op : Operand} {bytes : List Byte} (h : encodeOperand op = .ok bytes) : op.wf = true := by
  by_contra hwf
  obtain ⟨v, herr, _⟩ := encodeOperand_of_not_wf (Bool.eq_false_iff.2 hwf)
  simp [h] at herr

theorem encodeOperand_register {id : Int} (h : (Operand.register id).wf = true) :
    encodeOperand (.register id) = .ok [BitVec.ofInt 8 id] := by
  have hrange := of_decide_eq_true h
  exact if_neg (by omega)

theorem encodeOperand_memoryAddress {a : Int} (h : (Operand.memoryAddress a).wf = true) :
    encodeOperand (.memoryAddress a) =
      .ok [BitVec.ofNat 8 (bits a.toNat 7 0), BitVec.ofNat 8 (bits a.toNat 15 8)] := by
  have hrange := of_decide_eq_true h
  exact if_neg (by omega)

/-- The 32-bit pattern of an immediate. -/
def pattern32 (v : Int) : Nat := (v.fmod 4294967296).toNat

theorem pattern32_eq (v : Int) : pattern32 v = (v % 4294967296).toNat := by
  rw [pattern32, Int.fmod_eq_emod_of_nonneg v (by decide)]

theorem encodeOperand_immediate {v : Int} (h : (Operand.immediate v).wf = true) :
    encodeOperand (.immediate v) =
      .ok [BitVec.ofNat 8 (bits (pattern32 v) 7 0), BitVec.ofNat 8 (bits (pattern32 v) 15 8),
        BitVec.ofNat 8 (bits (pattern32 v) 23 16), BitVec.ofNat 8 (bits (pattern32 v) 31 24)] := by
  have hrange := of_decide_eq_true h
  exact if_neg (by omega)

/-! Bytes of a payload, and the payload of bytes. -/

/-- A register byte whose upper half is 0 is the byte of its lower half. -/
theorem encodeOperand_lower_half {b : Byte} (h : bits b.toNat 7 4 = 0) :
    encodeOperand (.register (bits b.toNat 3 0)) = .ok [b] := by
  have hb := b.isLt
  simp only [bits_eq_div_mod] at h ⊢
  have hlow : b.toNat / 2 ^ 0 % 2 ^ (3 - 0 + 1) = b.toNat := by omega
  have hwf : (Operand.register (b.toNat : Int)).wf = true := decide_eq_true (by omega)
  rw [hlow, encodeOperand_register hwf, BitVec.ofInt_natCast, BitVec.ofNat_toNat, BitVec.setWidth_eq]

/-- The byte of a register id has 0 in its upper half and the id in its lower half. -/
theorem register_byte_halves {id : Int} (h : (Operand.register id).wf = true) :
    bits (BitVec.ofInt 8 id).toNat 7 4 = 0 ∧ (bits (BitVec.ofInt 8 id).toNat 3 0 : Int) = id := by
  have hrange := of_decide_eq_true h
  simp only [bits_eq_div_mod, BitVec.toNat_ofInt]
  omega

theorem encodeOperand_join2 (b0 b1 : Byte) :
    encodeOperand (.memoryAddress (b0.toNat ||| b1.toNat <<< 8 : Nat)) = .ok [b0, b1] := by
  have h0 := b0.isLt
  have h1 := b1.isLt
  rw [join2_eq_sum, encodeOperand_memoryAddress (decide_eq_true (by omega))]
  simp only [bits_eq_div_mod, Int.toNat_natCast, Except.ok.injEq, List.cons.injEq, and_true, BitVec.toNat_eq,
    BitVec.toNat_ofNat]
  omega

theorem join2_address_bytes {a : Int} (h : (Operand.memoryAddress a).wf = true) :
    (((BitVec.ofNat 8 (bits a.toNat 7 0)).toNat ||| (BitVec.ofNat 8 (bits a.toNat 15 8)).toNat <<< 8 : Nat) : Int) =
      a := by
  have hrange := of_decide_eq_true h
  rw [join2_eq_sum]
  simp only [bits_eq_div_mod, BitVec.toNat_ofNat]
  omega

/-- Sign extension of a 32-bit pattern is an immediate in range, with that pattern. -/
theorem pattern32_sext32 {u : Nat} (h : u < 4294967296) :
    (Operand.immediate (sext32 u)).wf = true ∧ pattern32 (sext32 u) = u := by
  rw [pattern32_eq, sext32]
  split
  · exact ⟨decide_eq_true (by omega), by omega⟩
  · exact ⟨decide_eq_true (by omega), by omega⟩

theorem sext32_pattern32 {v : Int} (h : (Operand.immediate v).wf = true) : sext32 (pattern32 v) = v := by
  have hrange := of_decide_eq_true h
  rw [pattern32_eq, sext32]
  split <;> omega

theorem encodeOperand_join4 (b0 b1 b2 b3 : Byte) :
    encodeOperand (.immediate
      (sext32 (b0.toNat ||| b1.toNat <<< 8 ||| b2.toNat <<< 16 ||| b3.toNat <<< 24))) = .ok [b0, b1, b2, b3] := by
  have h0 := b0.isLt
  have h1 := b1.isLt
  have h2 := b2.isLt
  have h3 := b3.isLt
  rw [join4_eq_sum]
  obtain ⟨hwf, hpattern⟩ := pattern32_sext32
    (u := b0.toNat + b1.toNat * 2 ^ 8 + b2.toNat * 2 ^ 16 + b3.toNat * 2 ^ 24) (by omega)
  rw [encodeOperand_immediate hwf, hpattern]
  simp only [bits_eq_div_mod, Except.ok.injEq, List.cons.injEq, and_true, BitVec.toNat_eq, BitVec.toNat_ofNat]
  omega

theorem join4_pattern_bytes {u : Nat} (h : u < 4294967296) :
    (BitVec.ofNat 8 (bits u 7 0)).toNat ||| (BitVec.ofNat 8 (bits u 15 8)).toNat <<< 8 |||
      (BitVec.ofNat 8 (bits u 23 16)).toNat <<< 16 ||| (BitVec.ofNat 8 (bits u 31 24)).toNat <<< 24 = u := by
  rw [join4_eq_sum]
  simp only [bits_eq_div_mod, BitVec.toNat_ofNat]
  omega

/-! The decoder on one operand. -/

/-- What the decoder reads as an operand is the encoding of that operand, under its tag. -/
theorem encodeOperand_of_decodeOperand {tag : Nat} {w rest : List Byte} {op : Operand}
    (h : decodeOperand tag w = .ok (op, rest)) :
    tagOf op = tag ∧ ∃ bytes, encodeOperand op = .ok bytes ∧ w = bytes ++ rest := by
  unfold decodeOperand at h
  split at h
  · rename_i b rest'
    split at h
    · cases h
    · rename_i hupper
      cases h
      exact ⟨rfl, [b], encodeOperand_lower_half (not_not.1 hupper), rfl⟩
  · cases h
    exact ⟨rfl, _, encodeOperand_join4 _ _ _ _, rfl⟩
  · cases h
    exact ⟨rfl, _, encodeOperand_join2 _ _, rfl⟩
  · rename_i b rest'
    split at h
    · cases h
    · rename_i hupper
      cases h
      exact ⟨rfl, [b], encodeOperand_lower_half (not_not.1 hupper), rfl⟩
  · cases h

/-- The encoding of an operand is read as that operand under its tag, whatever follows. -/
theorem decodeOperand_encodeOperand {op : Operand} {bytes : List Byte} (h : encodeOperand op = .ok bytes)
    (rest : List Byte) : decodeOperand (tagOf op) (bytes ++ rest) = .ok (op, rest) := by
  have hwf := wf_of_encodeOperand h
  cases op with
  | register id | registerMemory id =>
    change encodeOperand (.register id) = .ok bytes at h
    obtain ⟨hupper, hlower⟩ := register_byte_halves hwf
    rw [encodeOperand_register hwf] at h
    cases h
    simp only [decodeOperand, tagOf, List.cons_append, List.nil_append, hupper, hlower, ne_eq, not_true, if_false]
  | memoryAddress a =>
    rw [encodeOperand_memoryAddress hwf] at h
    cases h
    simp only [decodeOperand, tagOf, List.cons_append, List.nil_append, join2_address_bytes hwf]
  | immediate v =>
    have hlt : pattern32 v < 4294967296 := by rw [pattern32_eq]; omega
    rw [encodeOperand_immediate hwf] at h
    cases h
    simp only [decodeOperand, tagOf, List.cons_append, List.nil_append, join4_pattern_bytes hlt, sext32_pattern32 hwf]

theorem decodeOperand_ok_iff {tag : Nat} {w rest : List Byte} {op : Operand} :
    decodeOperand tag w = .ok (op, rest) ↔
      tagOf op = tag ∧ ∃ bytes, encodeOperand op = .ok bytes ∧ w = bytes ++ rest := by
  refine ⟨encodeOperand_of_decodeOperand, ?_⟩
  rintro ⟨rfl, bytes, hbytes, rfl⟩
  exact decodeOperand_encodeOperand hbytes rest

end Sys2Proof
end

section
/-! PROOFS. The codec of whole instructions: the type byte, the payloads, and the first byte; what the encoder refuses,
and the round trip both ways (30_encoding.md R56 to R60). -/

namespace Sys2Proof

/-! The type byte. -/

theorem tagOf_lt (op : Operand) : tagOf op < 4 := by cases op <;> simp [tagOf]

theorem typeByte_cons (op : Operand) (ops : List Operand) : typeByte (op :: ops) = tagOf op + typeByte ops * 4 :=
  or_shiftLeft_eq_add (k := 2) (tagOf_lt op) _

theorem typeByte_lt (ops : List Operand) : typeByte ops < 4 ^ ops.length := by
  induction ops with
  | nil => decide
  | cons op ops ih =>
    have htag := tagOf_lt op
    rw [typeByte_cons, List.length_cons, Nat.pow_succ]
    omega

/-- The type bits of a non-empty operand list are the tag of its head and the type bits of its tail. -/
theorem typeByte_cons_eq_mod_iff {op : Operand} {ops : List Operand} {n t : Nat} :
    typeByte (op :: ops) = t % 4 ^ (n + 1) ↔ tagOf op = bits t 1 0 ∧ typeByte ops = (t >>> 2) % 4 ^ n := by
  have htag := tagOf_lt op
  have hsplit : t % 4 ^ (n + 1) = t % 4 + 4 * ((t >>> 2) % 4 ^ n) := by
    rw [Nat.pow_succ', Nat.mod_mul, Nat.shiftRight_eq_div_pow]
  have hlow : bits t 1 0 = t % 4 := by simp [bits]
  rw [typeByte_cons, hsplit, hlow]
  omega

/-! The payloads of an operand list. -/

theorem encodeOperands_cons_ok_iff {op : Operand} {ops : List Operand} {payload : List Byte} :
    encodeOperands (op :: ops) = .ok payload ↔
      ∃ bytes more, encodeOperand op = .ok bytes ∧ encodeOperands ops = .ok more ∧ payload = bytes ++ more := by
  rw [encodeOperands]
  cases encodeOperand op with
  | error e => simp
  | ok bytes =>
    cases encodeOperands ops with
    | error e => simp
    | ok more => simp [eq_comm]

theorem encodeOperands_of_wf {ops : List Operand} (h : ∀ op ∈ ops, op.wf = true) :
    ∃ payload, encodeOperands ops = .ok payload := by
  induction ops with
  | nil => exact ⟨[], rfl⟩
  | cons op ops ih =>
    obtain ⟨bytes, hbytes⟩ := encodeOperand_of_wf (h op List.mem_cons_self)
    obtain ⟨more, hmore⟩ := ih fun x hx => h x (List.mem_cons_of_mem op hx)
    exact ⟨bytes ++ more, encodeOperands_cons_ok_iff.2 ⟨bytes, more, hbytes, hmore, rfl⟩⟩

theorem wf_of_encodeOperands {ops : List Operand} {payload : List Byte} (h : encodeOperands ops = .ok payload) :
    ∀ op ∈ ops, op.wf = true := by
  induction ops generalizing payload with
  | nil => simp
  | cons op ops ih =>
    obtain ⟨bytes, more, hbytes, hmore, _⟩ := encodeOperands_cons_ok_iff.1 h
    exact List.forall_mem_cons.2 ⟨wf_of_encodeOperand hbytes, ih hmore⟩

/-- The first operand whose payload is out of range is the one that the encoder refuses. -/
theorem encodeOperands_of_not_wf {ops : List Operand} (h : ¬ ∀ op ∈ ops, op.wf = true) :
    ∃ v, encodeOperands ops = .error (.payloadRange v) ∧ ∃ op ∈ ops, op.wf = false ∧
      (op = .register v ∨ op = .immediate v ∨ op = .memoryAddress v ∨ op = .registerMemory v) := by
  induction ops with
  | nil => simp at h
  | cons op ops ih =>
    cases hop : op.wf with
    | false =>
      obtain ⟨v, herr, hv⟩ := encodeOperand_of_not_wf hop
      exact ⟨v, by simp [encodeOperands, herr], op, List.mem_cons_self, hop, hv⟩
    | true =>
      obtain ⟨bytes, hbytes⟩ := encodeOperand_of_wf hop
      have htail : ¬ ∀ x ∈ ops, x.wf = true := fun hall => h (List.forall_mem_cons.2 ⟨hop, hall⟩)
      obtain ⟨v, herr, bad, hmem, hbad⟩ := ih htail
      exact ⟨v, by simp [encodeOperands, hbytes, herr], bad, List.mem_cons_of_mem op hmem, hbad⟩

/-- The payload bytes that the tags of an operand list call for (30_encoding.md R57). -/
def payloadLength (ops : List Operand) : Nat := (ops.map fun op => tagSize (tagOf op)).sum

theorem encodeOperand_length {op : Operand} {bytes : List Byte} (h : encodeOperand op = .ok bytes) :
    bytes.length = tagSize (tagOf op) := by
  have hwf := wf_of_encodeOperand h
  cases op with
  | register id | registerMemory id =>
    change encodeOperand (.register id) = .ok bytes at h
    rw [encodeOperand_register hwf] at h
    cases h
    rfl
  | memoryAddress a =>
    rw [encodeOperand_memoryAddress hwf] at h
    cases h
    rfl
  | immediate v =>
    rw [encodeOperand_immediate hwf] at h
    cases h
    rfl

theorem encodeOperands_length {ops : List Operand} {payload : List Byte} (h : encodeOperands ops = .ok payload) :
    payload.length = payloadLength ops := by
  induction ops generalizing payload with
  | nil =>
    cases h
    rfl
  | cons op ops ih =>
    obtain ⟨bytes, more, hbytes, hmore, rfl⟩ := encodeOperands_cons_ok_iff.1 h
    rw [List.length_append, encodeOperand_length hbytes, ih hmore]
    rfl

/-- The length rule's payload size, read from a type byte, is the size that the operands call for. -/
theorem payloadSize_eq_payloadLength {ops : List Operand} {t : Nat} (h : typeByte ops = t % 4 ^ ops.length) :
    payloadSize ops.length t = payloadLength ops := by
  induction ops generalizing t with
  | nil => rfl
  | cons op ops ih =>
    obtain ⟨htag, htail⟩ := typeByte_cons_eq_mod_iff.1 h
    rw [List.length_cons, payloadSize, ih htail, ← htag]
    rfl

/-! The decoder on an operand list. -/

theorem decodeOperands_succ_ok_iff {n t : Nat} {w rest : List Byte} {ops : List Operand} :
    decodeOperands (n + 1) t w = .ok (ops, rest) ↔ ∃ op more w', ops = op :: more ∧
      decodeOperand (bits t 1 0) w = .ok (op, w') ∧ decodeOperands n (t >>> 2) w' = .ok (more, rest) := by
  constructor
  · intro h
    rw [decodeOperands] at h
    split at h
    · cases h
    · rename_i op w' hhead
      split at h
      · cases h
      · rename_i more rest' htail
        cases h
        exact ⟨op, more, w', rfl, hhead, htail⟩
  · rintro ⟨op, more, w', rfl, hhead, htail⟩
    simp only [decodeOperands, hhead, htail]

/-- What the decoder reads as `n` operands under a type byte is exactly the payload of `n` operands with those type
bits. -/
theorem decodeOperands_ok_iff {n t : Nat} {w rest : List Byte} {ops : List Operand} :
    decodeOperands n t w = .ok (ops, rest) ↔
      ops.length = n ∧ typeByte ops = t % 4 ^ n ∧
        ∃ payload, encodeOperands ops = .ok payload ∧ w = payload ++ rest := by
  induction n generalizing t w ops with
  | zero =>
    cases ops with
    | nil => simp [decodeOperands, encodeOperands, typeByte, Nat.mod_one]
    | cons op more => simp [decodeOperands]
  | succ n ih =>
    rw [decodeOperands_succ_ok_iff]
    constructor
    · rintro ⟨op, more, w', rfl, hhead, htail⟩
      obtain ⟨htag, bytes, hbytes, rfl⟩ := decodeOperand_ok_iff.1 hhead
      obtain ⟨hlen, htype, payload, hpayload, rfl⟩ := ih.1 htail
      exact ⟨congrArg Nat.succ hlen, typeByte_cons_eq_mod_iff.2 ⟨htag, htype⟩, bytes ++ payload,
        encodeOperands_cons_ok_iff.2 ⟨bytes, payload, hbytes, hpayload, rfl⟩, (List.append_assoc ..).symm⟩
    · rintro ⟨hlen, htype, payload, hpayload, rfl⟩
      obtain ⟨op, more, rfl⟩ := List.exists_cons_of_length_eq_add_one hlen
      obtain ⟨htag, htail⟩ := typeByte_cons_eq_mod_iff.1 htype
      obtain ⟨bytes, rest', hbytes, hmore, rfl⟩ := encodeOperands_cons_ok_iff.1 hpayload
      exact ⟨op, more, rest' ++ rest, rfl,
        decodeOperand_ok_iff.2 ⟨htag, bytes, hbytes, List.append_assoc ..⟩,
        ih.2 ⟨Nat.succ.inj hlen, htail, rest', hmore, rfl⟩⟩

/-! Opcodes and their numbers. -/

@[simp] theorem operands_ofOpcode (ops : List Operand) (opc : Opcode) : (Instr.ofOpcode ops opc).operands = ops := by
  cases opc <;> rfl

@[simp] theorem opcode_ofOpcode (ops : List Operand) (opc : Opcode) : (Instr.ofOpcode ops opc).opcode = opc := by
  cases opc <;> rfl

theorem ofOpcode_operands_opcode (i : Instr) : Instr.ofOpcode i.operands i.opcode = i := by
  cases i <;> rfl

theorem all_getElem_index (opc : Opcode) : Opcode.all[opc.index]? = some opc := by cases opc <;> rfl

theorem index_injective {opc opc' : Opcode} (h : opc.index = opc'.index) : opc = opc' := by
  have hsame : some opc = some opc' := by rw [← all_getElem_index opc, h, all_getElem_index]
  exact Option.some.inj hsame

theorem index_lt (opc : Opcode) : opc.index < 42 := by cases opc <;> decide

theorem opcodeId_of_opcodeOf {ids : List Nat} {id : Nat} {opc : Opcode} (h : opcodeOf ids id = some opc) :
    opcodeId ids opc = id := by
  simpa using List.find?_some h

theorem opcodeId_lt {ids : List Nat} (hlegal : OpcodeIds.legal ids) (opc : Opcode) : opcodeId ids opc < 64 := by
  obtain ⟨hlen, _, hrange, _⟩ := hlegal
  have hlt : opc.index < ids.length := hlen ▸ index_lt opc
  rw [opcodeId, List.getD_eq_getElem ids 0 hlt]
  exact hrange _ (List.getElem_mem hlt)

theorem opcodeId_injective {ids : List Nat} (hlegal : OpcodeIds.legal ids) {opc opc' : Opcode}
    (h : opcodeId ids opc = opcodeId ids opc') : opc = opc' := by
  obtain ⟨hlen, hnodup, _⟩ := hlegal
  have hlt : opc.index < ids.length := hlen ▸ index_lt opc
  have hlt' : opc'.index < ids.length := hlen ▸ index_lt opc'
  rw [opcodeId, opcodeId, List.getD_eq_getElem ids 0 hlt, List.getD_eq_getElem ids 0 hlt'] at h
  exact index_injective (hnodup.getElem_inj_iff.1 h)

/-- Under a legal numbering the number of an opcode is its own and no other's. -/
theorem opcodeOf_opcodeId {ids : List Nat} (hlegal : OpcodeIds.legal ids) (opc : Opcode) :
    opcodeOf ids (opcodeId ids opc) = some opc := by
  cases hfound : opcodeOf ids (opcodeId ids opc) with
  | none => simpa using List.find?_eq_none.1 hfound opc (Opcode.mem_all opc)
  | some opc' => rw [opcodeId_injective hlegal (opcodeId_of_opcodeOf hfound)]

theorem opcodeId_reference (opc : Opcode) : opcodeId referenceOpcodeIds opc = opc.index := by cases opc <;> rfl

theorem opcodeOf_reference_eq_none {id : Nat} (h : 42 ≤ id) : opcodeOf referenceOpcodeIds id = none := by
  refine List.find?_eq_none.2 fun opc _ => ?_
  have hlt := index_lt opc
  simp only [opcodeId_reference, beq_iff_eq]
  omega

/-! The first byte of an encoding, and the bytes after it. -/

/-- The first byte of an encoding: the opcode's number below the operand count (30_encoding.md R50). -/
def firstByte (ids : List Nat) (opc : Opcode) (count : Nat) : Byte := BitVec.ofNat 8 (opcodeId ids opc ||| count <<< 6)

theorem firstByte_fields {ids : List Nat} {opc : Opcode} {count : Nat} (hid : opcodeId ids opc < 64)
    (hcount : count < 4) :
    bits (firstByte ids opc count).toNat 5 0 = opcodeId ids opc ∧ bits (firstByte ids opc count).toNat 7 6 = count := by
  rw [firstByte, or_shiftLeft_eq_add (k := 6) hid]
  simp only [bits_eq_div_mod, BitVec.toNat_ofNat]
  omega

theorem firstByte_of_fields {ids : List Nat} {b0 : Byte} {opc : Opcode} {count : Nat}
    (hid : opcodeId ids opc = bits b0.toNat 5 0) (hcount : count = bits b0.toNat 7 6) :
    firstByte ids opc count = b0 := by
  have hb0 := b0.isLt
  have hlt : opcodeId ids opc < 2 ^ 6 := hid ▸ Nat.mod_lt _ (by decide)
  rw [firstByte, or_shiftLeft_eq_add hlt, hid, hcount]
  apply BitVec.eq_of_toNat_eq
  simp only [bits_eq_div_mod, BitVec.toNat_ofNat]
  omega

/-- The type byte, which an instruction without operands does not have (30_encoding.md R50, R52). -/
def typeBytes (ops : List Operand) : List Byte := if ops = [] then [] else [BitVec.ofNat 8 (typeByte ops)]

theorem typeBytes_of_operands {ops : List Operand} (h : ops.length ≠ 0) :
    typeBytes ops = [BitVec.ofNat 8 (typeByte ops)] := if_neg fun hnil => h (List.length_eq_zero_iff.2 hnil)

/-- The bytes behind the first byte: the type byte, if there are operands, and the payloads (30_encoding.md R56). -/
def EncodedAs (ops : List Operand) (rest : List Byte) : Prop :=
  ∃ payload, encodeOperands ops = .ok payload ∧ rest = typeBytes ops ++ payload

theorem encodedAs_nil_iff {rest : List Byte} : EncodedAs [] rest ↔ rest = [] := by
  simp [EncodedAs, encodeOperands, typeBytes]

theorem not_encodedAs_nil {ops : List Operand} (h : ops.length ≠ 0) : ¬ EncodedAs ops [] := by
  rintro ⟨payload, _, hbytes⟩
  simp [typeBytes_of_operands h] at hbytes

/-- A byte is the type byte of at most two operands when it has their tags and no bit past them. -/
theorem typeByte_eq_iff {ops : List Operand} {t : Byte} (hle : ops.length ≤ 2) :
    BitVec.ofNat 8 (typeByte ops) = t ↔
      t.toNat >>> (2 * ops.length) = 0 ∧ typeByte ops = t.toNat % 4 ^ ops.length := by
  have hlt := typeByte_lt ops
  have hbound : 4 ^ ops.length ≤ 4 ^ 2 := Nat.pow_le_pow_right (by decide) hle
  have hmod : typeByte ops % 2 ^ 8 = typeByte ops := Nat.mod_eq_of_lt (by omega)
  rw [Nat.shiftRight_eq_div_pow, Nat.div_eq_zero_iff_lt (by positivity), Nat.pow_mul, BitVec.toNat_eq,
    BitVec.toNat_ofNat, hmod]
  constructor
  · intro htype
    exact ⟨htype ▸ hlt, by rw [← htype, Nat.mod_eq_of_lt hlt]⟩
  · rintro ⟨hhigh, htype⟩
    rwa [Nat.mod_eq_of_lt hhigh] at htype

/-- A type byte and payload bytes that the decoder accepts for `n` operands are the encoding of `n` operands. -/
theorem encodedAs_cons_iff {ops : List Operand} {t : Byte} {payload : List Byte} {n : Nat} (h0 : n ≠ 0) (h2 : n ≤ 2) :
    (ops.length = n ∧ EncodedAs ops (t :: payload)) ↔
      t.toNat >>> (2 * n) = 0 ∧ decodeOperands n t.toNat payload = .ok (ops, []) := by
  rw [decodeOperands_ok_iff]
  constructor
  · rintro ⟨rfl, p, hp, hbytes⟩
    rw [typeBytes_of_operands h0] at hbytes
    obtain ⟨ht, hrest⟩ := List.cons.inj hbytes
    obtain ⟨hhigh, htype⟩ := (typeByte_eq_iff h2).1 ht.symm
    exact ⟨hhigh, rfl, htype, p, hp, by simpa using hrest⟩
  · rintro ⟨hhigh, rfl, htype, p, hp, rfl⟩
    have ht := (typeByte_eq_iff h2).2 ⟨hhigh, htype⟩
    exact ⟨rfl, p, hp, by simp [typeBytes_of_operands h0, ht]⟩

/-- The bytes behind the first byte have the length that pass 1 of the assembler and the length rule count. -/
theorem encodedAs_length {ops : List Operand} {rest : List Byte} (h : EncodedAs ops rest) :
    rest.length = if ops = [] then 0 else 1 + payloadLength ops := by
  obtain ⟨payload, hpayload, rfl⟩ := h
  rw [List.length_append, encodeOperands_length hpayload, typeBytes]
  split
  · rename_i hnil
    simp [hnil, payloadLength]
  · rfl

/-! The encoder on a whole instruction. -/

/-- The encoder gives exactly the first byte and the bytes behind it. -/
theorem encode_ok_iff {ids : List Nat} {i : Instr} {w : List Byte} :
    encode ids i = .ok w ↔ i.operands.length ≤ 2 ∧
      ∃ rest, EncodedAs i.operands rest ∧ w = firstByte ids i.opcode i.operands.length :: rest := by
  simp only [encode]
  by_cases hcount : i.operands.length > 2
  · simp [hcount]
  · rw [if_neg hcount]
    cases hpayload : encodeOperands i.operands with
    | error e => simp [EncodedAs, hpayload]
    | ok payload =>
      by_cases hnil : i.operands = []
      · simp [hnil, encodedAs_nil_iff, firstByte, eq_comm]
      · simp [hnil, EncodedAs, hpayload, typeBytes, firstByte, eq_comm, Nat.not_lt.1 hcount]

theorem encode_of_many_operands (ids : List Nat) {i : Instr} (h : 2 < i.operands.length) :
    encode ids i = .error (.tooManyOperands i.operands.length) := if_pos h

theorem encode_of_payload_error (ids : List Nat) {i : Instr} {e : CodecError} (hcount : i.operands.length ≤ 2)
    (h : encodeOperands i.operands = .error e) : encode ids i = .error e := by
  simp [encode, Nat.not_lt.2 hcount, h]

theorem wf_iff {i : Instr} : i.wf = true ↔ i.operands.length ≤ 2 ∧ ∀ op ∈ i.operands, op.wf = true := by
  simp [Instr.wf, Instr.countWf]

theorem encode_of_wf (ids : List Nat) {i : Instr} (h : i.wf = true) : ∃ w, encode ids i = .ok w := by
  obtain ⟨hcount, hops⟩ := wf_iff.1 h
  obtain ⟨payload, hpayload⟩ := encodeOperands_of_wf hops
  exact ⟨_, encode_ok_iff.2 ⟨hcount, _, ⟨payload, hpayload, rfl⟩, rfl⟩⟩

theorem wf_of_encode {ids : List Nat} {i : Instr} {w : List Byte} (h : encode ids i = .ok w) : i.wf = true := by
  obtain ⟨hcount, rest, ⟨payload, hpayload, _⟩, _⟩ := encode_ok_iff.1 h
  exact wf_iff.2 ⟨hcount, wf_of_encodeOperands hpayload⟩

/-! The decoder on a whole instruction. -/

section Decoding

variable {ids : List Nat} {b0 : Byte} {opc : Opcode} {i : Instr}

theorem decode_count3 (rest : List Byte) (h : bits b0.toNat 7 6 = 3) :
    decode ids (b0 :: rest) = .error .decodingError := by
  simp [decode, h]

theorem decode_unknown_opcode (rest : List Byte) (hcount : bits b0.toNat 7 6 ≠ 3)
    (hopc : opcodeOf ids (bits b0.toNat 5 0) = none) :
    decode ids (b0 :: rest) = .error (.invalidOpcode (bits b0.toNat 5 0)) := by
  simp [decode, hcount, hopc]

/-- Without operands, the first byte is the whole instruction. -/
theorem decode_count0_ok_iff {rest : List Byte} (hcount : bits b0.toNat 7 6 = 0)
    (hopc : opcodeOf ids (bits b0.toNat 5 0) = some opc) :
    decode ids (b0 :: rest) = .ok i ↔ rest = [] ∧ Instr.ofOpcode [] opc = i := by
  by_cases hrest : rest = [] <;> simp [decode, hcount, hopc, hrest]

theorem decode_no_type_byte (hcount0 : bits b0.toNat 7 6 ≠ 0) (hcount3 : bits b0.toNat 7 6 ≠ 3)
    (hopc : opcodeOf ids (bits b0.toNat 5 0) = some opc) : decode ids [b0] = .error .decodingError := by
  simp [decode, hcount0, hcount3, hopc]

/-- With operands, the type byte has no bit past the operands' tags and the payloads end where the bytes do. -/
theorem decode_type_byte_ok_iff {t : Byte} {payload : List Byte} (hcount0 : bits b0.toNat 7 6 ≠ 0)
    (hcount3 : bits b0.toNat 7 6 ≠ 3) (hopc : opcodeOf ids (bits b0.toNat 5 0) = some opc) :
    decode ids (b0 :: t :: payload) = .ok i ↔ t.toNat >>> (2 * bits b0.toNat 7 6) = 0 ∧
      ∃ ops, decodeOperands (bits b0.toNat 7 6) t.toNat payload = .ok (ops, []) ∧ Instr.ofOpcode ops opc = i := by
  simp only [decode, hcount0, hcount3, hopc, if_false]
  by_cases hhigh : t.toNat >>> (2 * bits b0.toNat 7 6) = 0
  · cases decodeOperands (bits b0.toNat 7 6) t.toNat payload with
    | error e => simp [hhigh]
    | ok p =>
      obtain ⟨ops, rest⟩ := p
      cases rest <;> simp [hhigh]
  · simp [hhigh]

/-- Behind a first byte with a legal count and a known opcode, the decoder accepts exactly the encodings of as many
operands. -/
theorem decode_known_opcode_ok_iff {rest : List Byte} (hcount3 : bits b0.toNat 7 6 ≠ 3)
    (hopc : opcodeOf ids (bits b0.toNat 5 0) = some opc) :
    decode ids (b0 :: rest) = .ok i ↔
      ∃ ops, (ops.length = bits b0.toNat 7 6 ∧ EncodedAs ops rest) ∧ Instr.ofOpcode ops opc = i := by
  have hlt : bits b0.toNat 7 6 < 4 := Nat.mod_lt _ (by decide)
  by_cases hcount0 : bits b0.toNat 7 6 = 0
  · rw [decode_count0_ok_iff hcount0 hopc, hcount0]
    simp only [List.length_eq_zero_iff, and_assoc, exists_eq_left, encodedAs_nil_iff]
  · cases rest with
    | nil =>
      rw [decode_no_type_byte hcount0 hcount3 hopc]
      simp only [reduceCtorEq, false_iff]
      rintro ⟨ops, ⟨hlen, henc⟩, _⟩
      exact not_encodedAs_nil (hlen.trans_ne hcount0) henc
    | cons t payload =>
      have hle : bits b0.toNat 7 6 ≤ 2 := by omega
      rw [decode_type_byte_ok_iff hcount0 hcount3 hopc]
      simp only [encodedAs_cons_iff hcount0 hle, and_assoc, exists_and_left]

/-- The decoder accepts exactly a first byte with a known opcode and a legal count, and behind it an encoding of as many
operands. -/
theorem decode_ok_iff {rest : List Byte} : decode ids (b0 :: rest) = .ok i ↔
    opcodeOf ids (bits b0.toNat 5 0) = some i.opcode ∧ i.operands.length = bits b0.toNat 7 6 ∧
      i.operands.length ≤ 2 ∧ EncodedAs i.operands rest := by
  have hlt : bits b0.toNat 7 6 < 4 := Nat.mod_lt _ (by decide)
  by_cases hcount3 : bits b0.toNat 7 6 = 3
  · rw [decode_count3 rest hcount3]
    simp only [reduceCtorEq, false_iff]
    omega
  cases hopc : opcodeOf ids (bits b0.toNat 5 0) with
  | none => simp [decode_unknown_opcode rest hcount3 hopc]
  | some opc =>
    rw [decode_known_opcode_ok_iff hcount3 hopc]
    constructor
    · rintro ⟨ops, ⟨hlen, henc⟩, rfl⟩
      rw [operands_ofOpcode, opcode_ofOpcode]
      exact ⟨rfl, hlen, by omega, henc⟩
    · rintro ⟨hsame, hlen, _, henc⟩
      obtain rfl := Option.some.inj hsame
      exact ⟨i.operands, ⟨hlen, henc⟩, ofOpcode_operands_opcode i⟩

end Decoding

/-! The length rule. -/

/-- The length rule on the first two bytes of an encoding gives its length (30_encoding.md R57). -/
theorem instrLength_of_encodedAs {b0 : Byte} {ops : List Operand} {rest : List Byte}
    (hcount : ops.length = bits b0.toNat 7 6) (hle : ops.length ≤ 2) (h : EncodedAs ops rest) :
    instrLength b0 (rest.headD 0) = some (rest.length + 1) := by
  rw [encodedAs_length h, instrLength, ← hcount]
  cases ops with
  | nil => rfl
  | cons op more =>
    obtain ⟨payload, _, rfl⟩ := h
    obtain ⟨_, htype⟩ := (typeByte_eq_iff hle).1 rfl
    have hcount0 : (op :: more).length ≠ 0 := Nat.succ_ne_zero _
    rw [if_neg (List.cons_ne_nil op more), typeBytes_of_operands hcount0, ← payloadSize_eq_payloadLength htype]
    split
    · contradiction
    · omega
    · simp only [List.cons_append, List.headD_cons, Option.some.injEq]
      omega

/-! What the encoding and the decoder refuse. -/

/-- Settles O1: each sequence is decoded by evaluation. -/
theorem writtenOutWordsDecode : Obligations.WrittenOutWordsDecode := by
  refine ⟨?_, ?_, ?_, ?_, ?_, ?_, ?_, ?_, ?_⟩
  all_goals decide

/-- Settles O5: the count is checked first; then no opcode of the reference numbering has a number past 41. -/
theorem illegalFirstByteRefused : Obligations.IllegalFirstByteRefused :=
  fun _ rest => ⟨fun hcount _ => decode_count3 rest hcount,
    fun hcount hid => decode_unknown_opcode rest hcount (opcodeOf_reference_eq_none hid)⟩

/-- Settles O4: the count is checked first, then the payloads in operand order. -/
theorem encoderRefusesExactlyIllFormed : Obligations.EncoderRefusesExactlyIllFormed := by
  refine fun ids i => ⟨encode_of_wf ids, encode_of_many_operands ids, fun hcount hwf => ?_⟩
  have hops : ¬ ∀ op ∈ i.operands, op.wf = true := fun hall => by simp [wf_iff.2 ⟨hcount, hall⟩] at hwf
  obtain ⟨v, herr, hbad⟩ := encodeOperands_of_not_wf hops
  exact ⟨v, encode_of_payload_error ids hcount herr, hbad⟩

/-! The round trip. -/

/-- Settles O2: the first byte gives back the count and, the numbering being injective, the opcode; `decode_ok_iff` says
that the bytes behind it give back the operands. -/
theorem decodeOfEncodeIsIdentity : Obligations.DecodeOfEncodeIsIdentity := by
  intro ids i hlegal hwf
  obtain ⟨w, hw⟩ := encode_of_wf ids hwf
  refine ⟨w, hw, ?_⟩
  obtain ⟨hcount, rest, henc, rfl⟩ := encode_ok_iff.1 hw
  obtain ⟨hopcode, hoperands⟩ := firstByte_fields (opcodeId_lt hlegal i.opcode) (count := i.operands.length) (by omega)
  exact decode_ok_iff.2 ⟨hopcode ▸ opcodeOf_opcodeId hlegal i.opcode, hoperands.symm, hcount, henc⟩

/-- Settles O3: `decode_ok_iff` read from left to right; the first byte is rebuilt from its two fields. -/
theorem encodeOfDecodeIsIdentity : Obligations.EncodeOfDecodeIsIdentity := by
  intro ids b0 rest i h
  obtain ⟨hopcode, hoperands, hcount, henc⟩ := decode_ok_iff.1 h
  have hfirst := firstByte_of_fields (opcodeId_of_opcodeOf hopcode) hoperands
  have hencode : encode ids i = .ok (b0 :: rest) := encode_ok_iff.2 ⟨hcount, rest, henc, by rw [hfirst]⟩
  exact ⟨wf_of_encode hencode, hencode, instrLength_of_encodedAs hoperands hcount henc⟩

end Sys2Proof
end

section
/-! PROOFS. Dispatch, said once for every instruction: the operand count is checked, then the form of operand 0, and
then a rule runs that raises neither of these two faults (30_encoding.md R64, R66). -/

namespace Sys2Proof.Machine

/-- The two faults that dispatch raises. -/
def isDispatchFault : Fault → Bool
  | .operandCountMismatch _ _ | .operandFormRefused _ _ => true
  | _ => false

/-- A rule begun in `s` completes with the fault record as it was, or raises a fault that is not one of dispatch's. -/
def IsRule (s : State) : Except Fault State → Prop
  | .ok t => t.fault = s.fault
  | .error f => isDispatchFault f = false

/-! The faults of the shared operations are not those of dispatch. -/

section Operations

variable {s u : State} {op : Operand} {f : Fault}

theorem operandFault_not_dispatch (s : State) (op : Operand) : isDispatchFault (operandFault s op) = false := by
  cases op with
  | register i | immediate k | memoryAddress a => rfl
  | registerMemory i =>
    by_cases hreg : validReg s i
    · rw [operandFault_registerMemory_valid hreg]
      rfl
    · rw [operandFault_registerMemory_invalid hreg]
      rfl

theorem readOperand_error (h : readOperand s op = .error f) : isDispatchFault f = false := by
  cases hr : readable s op with
  | true =>
    rw [readOperand_readable hr] at h
    cases h
  | false =>
    rw [readOperand_unreadable hr] at h
    cases h
    exact operandFault_not_dispatch s op

theorem readReg_error {i : Int} (h : readReg s i = .error f) : isDispatchFault f = false :=
  readOperand_error (op := .register i) h

theorem memRead_error {a : Int} (h : memRead s a = .error f) : isDispatchFault f = false :=
  readOperand_error (op := .memoryAddress a) h

theorem readOperands_error {ops : List Operand} (h : readOperands s ops = .error f) : isDispatchFault f = false := by
  induction ops with
  | nil => cases h
  | cons op ops ih =>
    rw [readOperands] at h
    split at h
    · cases h
      exact readOperand_error ‹_›
    · split at h
      · cases h
        exact ih ‹_›
      · cases h

theorem pop_error (h : pop s = .error f) : isDispatchFault f = false := by
  unfold pop at h
  split at h
  · cases h
    rfl
  · cases h

theorem isRule_writeOperand (op : Operand) (v : Int) (hu : u.fault = s.fault) : IsRule s (writeOperand u op v) := by
  cases hw : writable u op with
  | true =>
    obtain ⟨t, ht⟩ := writeOperand_writable v hw
    rw [ht]
    exact (writeOperand_kept ht).fault.trans hu
  | false =>
    rw [writeOperand_unwritable v hw]
    exact operandFault_not_dispatch u op

theorem isRule_writeReg (i v : Int) (hu : u.fault = s.fault) : IsRule s (writeReg u i v) :=
  isRule_writeOperand (.register i) v hu

theorem isRule_memWrite (a v : Int) (hu : u.fault = s.fault) : IsRule s (memWrite u a v) :=
  isRule_writeOperand (.memoryAddress a) v hu

theorem isRule_push (s : State) (v : Int) : IsRule s (push s v) := by
  unfold push
  split <;> rfl

end Operations

/-! What dispatch puts before a rule. -/

/-- The opcode takes a Register as operand 0 and operand 0 has another form. -/
def formRefused (opc : Opcode) : List Operand → Bool
  | [] => false
  | op :: _ => registerOnly opc && !isRegister op

/-- A rule behind the two checks of dispatch, in their order. -/
def checked (opc : Opcode) (ops : List Operand) (rule : Except Fault State) : Except Fault State :=
  if ops.length ∉ allowedCounts opc then .error (.operandCountMismatch opc ops.length)
  else if formRefused opc ops then .error (.operandFormRefused opc 0)
  else rule

/-- The outcome is that of a rule behind the two checks. -/
def Dispatched (opc : Opcode) (ops : List Operand) (s : State) (o : Host.Outcome State Fault Refusal) : Prop :=
  ∃ rule, IsRule s rule ∧ o = finish s (checked opc ops rule)

section Dispatchers

variable {opc : Opcode} {s : State}

/-- Where a check fails, the outcome is its fault. -/
theorem dispatched_refused {ops : List Operand} {f : Fault} (h : ∀ rule, checked opc ops rule = .error f) :
    Dispatched opc ops s (finish s (.error f)) :=
  ⟨.ok s, rfl, by rw [h]⟩

theorem checked_badCount {ops : List Operand} (h : ops.length ∉ allowedCounts opc) (rule : Except Fault State) :
    checked opc ops rule = .error (.operandCountMismatch opc ops.length) := if_pos h

theorem checked_badForm {ops : List Operand} (hcount : ops.length ∈ allowedCounts opc)
    (hform : formRefused opc ops = true) (rule : Except Fault State) :
    checked opc ops rule = .error (.operandFormRefused opc 0) := by
  rw [checked, if_neg (not_not.2 hcount), if_pos hform]

theorem checked_accepted {ops : List Operand} (hcount : ops.length ∈ allowedCounts opc)
    (hform : formRefused opc ops = false) (rule : Except Fault State) : checked opc ops rule = rule := by
  rw [checked, if_neg (not_not.2 hcount), hform]
  exact if_neg Bool.false_ne_true

theorem formRefused_of_any_form (h : registerOnly opc = false) (ops : List Operand) : formRefused opc ops = false := by
  cases ops <;> simp [formRefused, h]

theorem execute0_dispatched {rule : Except Fault State} (hcount : allowedCounts opc = [0]) (h : IsRule s rule)
    (ops : List Operand) : Dispatched opc ops s (execute0 opc ops s rule) := by
  match ops with
  | [] =>
    refine ⟨rule, h, ?_⟩
    rw [checked_accepted (by simp [hcount]) rfl]
    rfl
  | a :: more => exact dispatched_refused (checked_badCount (by simp [hcount]))

theorem execute1_dispatched {rule : Operand → Except Fault State} (hcount : allowedCounts opc = [1])
    (hform : registerOnly opc = false) (h : ∀ a, IsRule s (rule a)) (ops : List Operand) :
    Dispatched opc ops s (execute1 opc ops s rule) := by
  match ops with
  | [a] =>
    refine ⟨rule a, h a, ?_⟩
    rw [checked_accepted (by simp [hcount]) (formRefused_of_any_form hform _)]
    rfl
  | [] => exact dispatched_refused (checked_badCount (by simp [hcount]))
  | a :: b :: more => exact dispatched_refused (checked_badCount (by simp [hcount]))

theorem execute2_dispatched {rule : Operand → Operand → Except Fault State} (hcount : allowedCounts opc = [2])
    (hform : registerOnly opc = false) (h : ∀ a b, IsRule s (rule a b)) (ops : List Operand) :
    Dispatched opc ops s (execute2 opc ops s rule) := by
  match ops with
  | [a, b] =>
    refine ⟨rule a b, h a b, ?_⟩
    rw [checked_accepted (by simp [hcount]) (formRefused_of_any_form hform _)]
    rfl
  | [] | [a] => exact dispatched_refused (checked_badCount (by simp [hcount]))
  | a :: b :: c :: more => exact dispatched_refused (checked_badCount (by simp [hcount]))

theorem executeReg1_dispatched {rule : Int → Except Fault State} (hcount : allowedCounts opc = [1])
    (hform : registerOnly opc = true) (h : ∀ i, IsRule s (rule i)) (ops : List Operand) :
    Dispatched opc ops s (executeReg1 opc ops s rule) := by
  match ops with
  | [.register i] =>
    refine ⟨rule i, h i, ?_⟩
    rw [checked_accepted (by simp [hcount]) (by simp [formRefused, isRegister])]
    rfl
  | [.immediate _] | [.memoryAddress _] | [.registerMemory _] =>
    exact dispatched_refused (checked_badForm (by simp [hcount]) (by simp [formRefused, hform, isRegister]))
  | [] => exact dispatched_refused (checked_badCount (by simp [hcount]))
  | a :: b :: more => exact dispatched_refused (checked_badCount (by simp [hcount]))

theorem executeReg2_dispatched {rule : Int → Operand → Except Fault State} (hcount : allowedCounts opc = [2])
    (hform : registerOnly opc = true) (h : ∀ i b, IsRule s (rule i b)) (ops : List Operand) :
    Dispatched opc ops s (executeReg2 opc ops s rule) := by
  match ops with
  | [.register i, b] =>
    refine ⟨rule i b, h i b, ?_⟩
    rw [checked_accepted (by simp [hcount]) (by simp [formRefused, isRegister])]
    rfl
  | [.immediate _, b] | [.memoryAddress _, b] | [.registerMemory _, b] =>
    exact dispatched_refused (checked_badForm (by simp [hcount]) (by simp [formRefused, hform, isRegister]))
  | [] | [a] => exact dispatched_refused (checked_badCount (by simp [hcount]))
  | a :: b :: c :: more => exact dispatched_refused (checked_badCount (by simp [hcount]))

theorem executeUpTo2_dispatched {rule : Except Fault State} {ops : List Operand}
    (hcount : allowedCounts opc = [0, 1, 2]) (hform : registerOnly opc = false) (h : IsRule s rule) :
    Dispatched opc ops s (executeUpTo2 opc ops s rule) := by
  have hmem : ops.length ∈ allowedCounts opc ↔ ops.length ≤ 2 := by
    simp only [hcount, List.mem_cons, List.not_mem_nil, or_false]
    omega
  unfold executeUpTo2
  split
  · refine ⟨rule, h, ?_⟩
    rw [checked_accepted (hmem.2 ‹_›) (formRefused_of_any_form hform _)]
  · exact dispatched_refused (checked_badCount (mt hmem.1 ‹_›))

end Dispatchers

/-! The shared meanings. -/

section Meanings

variable {opc : Opcode} {s : State}

theorem arith2_dispatched {raw : Int → Int → Except Fault Int} (hcount : allowedCounts opc = [2])
    (hform : registerOnly opc = false) (hraw : ∀ a b f, raw a b = .error f → isDispatchFault f = false)
    (ops : List Operand) : Dispatched opc ops s (arith2 opc raw ops s) := by
  refine execute2_dispatched hcount hform (fun dst src => ?_) ops
  cases hdst : readOperand s dst with
  | error f => exact readOperand_error hdst
  | ok a =>
    cases hsrc : readOperand s src with
    | error f => exact readOperand_error hsrc
    | ok b =>
      dsimp only
      cases hr : raw a b with
      | error f => exact hraw a b f hr
      | ok r => exact isRule_writeOperand dst _ rfl

theorem arith1_dispatched {raw : Int → Int} (hcount : allowedCounts opc = [1]) (hform : registerOnly opc = false)
    (ops : List Operand) : Dispatched opc ops s (arith1 opc raw ops s) := by
  refine execute1_dispatched hcount hform (fun dst => ?_) ops
  cases hdst : readOperand s dst with
  | error f => exact readOperand_error hdst
  | ok a => exact isRule_writeOperand dst _ rfl

theorem logic2_dispatched {op : Int → Int → Int} (hcount : allowedCounts opc = [2])
    (hform : registerOnly opc = false) (ops : List Operand) : Dispatched opc ops s (logic2 opc op ops s) := by
  refine execute2_dispatched hcount hform (fun dst src => ?_) ops
  cases hdst : readOperand s dst with
  | error f => exact readOperand_error hdst
  | ok a =>
    cases hsrc : readOperand s src with
    | error f => exact readOperand_error hsrc
    | ok b => exact isRule_writeOperand dst _ rfl

theorem shift_dispatched {op : Int → Int → Int} (hcount : allowedCounts opc = [2])
    (hform : registerOnly opc = true) (ops : List Operand) : Dispatched opc ops s (shift opc op ops s) := by
  refine executeReg2_dispatched hcount hform (fun i amount => ?_) ops
  cases hreg : readReg s i with
  | error f => exact readReg_error hreg
  | ok a =>
    cases hamount : readOperand s amount with
    | error f => exact readOperand_error hamount
    | ok k =>
      by_cases hk : k < 0
      · simp only [hk, if_true]
        rfl
      · simp only [hk, if_false]
        exact isRule_writeReg i _ (kept_shiftFlags s _ _).fault

theorem jump_dispatched {taken : Flags → Bool} (hcount : allowedCounts opc = [1]) (hform : registerOnly opc = false)
    (ops : List Operand) : Dispatched opc ops s (jump opc taken ops s) := by
  refine execute1_dispatched hcount hform (fun target => ?_) ops
  cases htarget : readOperand s target with
  | error f => exact readOperand_error htarget
  | ok t =>
    cases htaken : taken s.flags <;> simp [IsRule]

theorem displayOp_dispatched {d : DisplayOpcode} (hcount : allowedCounts opc = [0, 1, 2])
    (hform : registerOnly opc = false) (ops : List Operand) : Dispatched opc ops s (displayOp opc d ops s) := by
  refine executeUpTo2_dispatched hcount hform ?_
  cases hpresent : s.cfg.displayPresent with
  | false => exact rfl
  | true =>
    cases hops : readOperands s ops with
    | error f => exact readOperands_error hops
    | ok values => exact rfl

theorem execMov_dispatched (ops : List Operand) : Dispatched .mov ops s (execMov ops s) := by
  refine execute2_dispatched rfl rfl (fun dst src => ?_) ops
  cases hsrc : readOperand s src with
  | error f => exact readOperand_error hsrc
  | ok v => exact isRule_writeOperand dst _ rfl

theorem execNot_dispatched (ops : List Operand) : Dispatched .not ops s (execNot ops s) := by
  refine execute1_dispatched rfl rfl (fun dst => ?_) ops
  cases hdst : readOperand s dst with
  | error f => exact readOperand_error hdst
  | ok a => exact isRule_writeOperand dst _ rfl

theorem execClr_dispatched (ops : List Operand) : Dispatched .clr ops s (execClr ops s) := by
  refine execute2_dispatched rfl rfl (fun a b => ?_) ops
  have hrule := isRule_writeOperand (s := s) a 0 rfl
  cases hfirst : writeOperand s a 0 with
  | error f => rwa [hfirst] at hrule
  | ok u => exact isRule_writeOperand b 0 (writeOperand_kept hfirst).fault

theorem execTest_dispatched (ops : List Operand) : Dispatched .test ops s (execTest ops s) := by
  refine execute2_dispatched rfl rfl (fun a b => ?_) ops
  cases ha : readOperand s a with
  | error f => exact readOperand_error ha
  | ok x =>
    cases hb : readOperand s b with
    | error f => exact readOperand_error hb
    | ok y => exact rfl

theorem execCmp_dispatched (ops : List Operand) : Dispatched .cmp ops s (execCmp ops s) := by
  refine execute2_dispatched rfl rfl (fun a b => ?_) ops
  cases ha : readOperand s a with
  | error f => exact readOperand_error ha
  | ok x =>
    cases hb : readOperand s b with
    | error f => exact readOperand_error hb
    | ok y => exact rfl

theorem execCall_dispatched (ops : List Operand) : Dispatched .call ops s (execCall ops s) := by
  refine execute1_dispatched rfl rfl (fun target => ?_) ops
  cases htarget : readOperand s target with
  | error f => exact readOperand_error htarget
  | ok t =>
    have hrule := isRule_push s s.pc
    cases hpush : push s s.pc with
    | error f => rwa [hpush] at hrule
    | ok u => exact (push_kept hpush).fault

theorem execRet_dispatched (ops : List Operand) : Dispatched .ret ops s (execRet ops s) := by
  refine execute0_dispatched rfl ?_ ops
  cases hpop : pop s with
  | error f => exact pop_error hpop
  | ok p => exact (pop_kept hpop).fault

theorem execPush_dispatched (ops : List Operand) : Dispatched .push ops s (execPush ops s) := by
  refine execute1_dispatched rfl rfl (fun src => ?_) ops
  cases hsrc : readOperand s src with
  | error f => exact readOperand_error hsrc
  | ok v => exact isRule_push s v

theorem execPop_dispatched (ops : List Operand) : Dispatched .pop ops s (execPop ops s) := by
  refine executeReg1_dispatched rfl rfl (fun i => ?_) ops
  cases hpop : pop s with
  | error f => exact pop_error hpop
  | ok p => exact isRule_writeReg i _ (pop_kept hpop).fault

theorem execLdr_dispatched (ops : List Operand) : Dispatched .ldr ops s (execLdr ops s) := by
  refine executeReg2_dispatched rfl rfl (fun i src => ?_) ops
  cases hsrc : readOperand s src with
  | error f => exact readOperand_error hsrc
  | ok a =>
    dsimp only
    cases hword : memRead s a with
    | error f => exact memRead_error hword
    | ok v => exact isRule_writeReg i v rfl

theorem execStr_dispatched (ops : List Operand) : Dispatched .str ops s (execStr ops s) := by
  refine execute2_dispatched rfl rfl (fun dst src => ?_) ops
  cases hdst : readOperand s dst with
  | error f => exact readOperand_error hdst
  | ok a =>
    cases hsrc : readOperand s src with
    | error f => exact readOperand_error hsrc
    | ok v => exact isRule_memWrite a v rfl

theorem execPrt_dispatched (ops : List Operand) : Dispatched .prt ops s (execPrt ops s) := by
  refine execute1_dispatched rfl rfl (fun src => ?_) ops
  cases hsrc : readOperand s src with
  | error f => exact readOperand_error hsrc
  | ok v => cases hprinting : s.cfg.printing <;> simp [IsRule, emit]

theorem execRnd_dispatched (ops : List Operand) : Dispatched .rnd ops s (execRnd ops s) := by
  refine execute1_dispatched rfl rfl (fun dst => ?_) ops
  exact isRule_writeOperand dst _ rfl

end Meanings

/-- The check of DIV and of MOD on the divisor. -/
theorem divisor_check_error {q : Int → Int → Int} (a b : Int) (f : Fault)
    (h : (if b = 0 then .error .divisionByZero else .ok (q a b) : Except Fault Int) = .error f) :
    isDispatchFault f = false := by
  split at h
  · cases h
    rfl
  · cases h

/-- Every instruction is dispatched: its operand count is checked, then the form of its operand 0, then its rule
runs. -/
theorem exec_dispatched (i : Instr) (s : State) : Dispatched i.opcode i.operands s (exec i s) := by
  cases i with
  | nop ops | hlt ops =>
    refine execute0_dispatched rfl ?_ ops
    exact rfl
  | mov ops => exact execMov_dispatched ops
  | add ops | sub ops | mul ops =>
    simp only [exec, execAdd, execSub, execMul]
    exact arith2_dispatched rfl rfl (fun _ _ _ h => by cases h) ops
  | div ops | mod ops => exact arith2_dispatched rfl rfl divisor_check_error ops
  | inc ops | dec ops | neg ops => exact arith1_dispatched rfl rfl ops
  | and ops | or ops | xor ops => exact logic2_dispatched rfl rfl ops
  | not ops => exact execNot_dispatched ops
  | clr ops => exact execClr_dispatched ops
  | test ops => exact execTest_dispatched ops
  | shl ops | shr ops => exact shift_dispatched rfl rfl ops
  | cmp ops => exact execCmp_dispatched ops
  | jmp ops | jz ops | jnz ops | jn ops | jnn ops | jo ops | jno ops | jc ops | jnc ops =>
    simp only [exec, execJmp, execJz, execJnz, execJn, execJnn, execJo, execJno, execJc, execJnc]
    exact jump_dispatched rfl rfl ops
  | call ops => exact execCall_dispatched ops
  | ret ops => exact execRet_dispatched ops
  | push ops => exact execPush_dispatched ops
  | pop ops => exact execPop_dispatched ops
  | ldr ops => exact execLdr_dispatched ops
  | str ops => exact execStr_dispatched ops
  | dsp ops | cls ops | bfr ops | sb ops | col ops => exact displayOp_dispatched rfl rfl ops
  | prt ops => exact execPrt_dispatched ops
  | rnd ops => exact execRnd_dispatched ops

theorem finish_answers (s : State) (r : Except Fault State) : ∃ t, finish s r = .next t := by
  cases r with
  | ok t => exact ⟨t, rfl⟩
  | error f => exact ⟨takeFault f s, rfl⟩

/-- Settles O7: every instruction finishes a rule, its own or the fault of a check. -/
theorem everyInstructionAnswersANextState : Obligations.EveryInstructionAnswersANextState := by
  intro i s
  obtain ⟨rule, _, hexec⟩ := exec_dispatched i s
  rw [hexec]
  exact finish_answers s _

/-- A finished rule leaves no fault record of dispatch where there was none. -/
theorem finish_rule_fault {s t : State} {rule : Except Fault State} (hrule : IsRule s rule) (hnone : s.fault = none)
    (h : finish s rule = .next t) {f : Fault} (hf : isDispatchFault f = true) (pc0 : Int) :
    t.fault ≠ some ⟨f, pc0⟩ := by
  rcases finish_next h with rfl | ⟨g, rfl, rfl⟩
  · have hkept : t.fault = none := Eq.trans hrule hnone
    simp [hkept]
  · have hg : isDispatchFault g = false := hrule
    intro hsame
    obtain ⟨rfl, _⟩ : g = f ∧ s.pc0 = pc0 := by simpa using hsame
    simp [hg] at hf

/-- Settles O29: the first two clauses are the two checks of `exec_dispatched`; behind them only the rule is left. -/
theorem dispatchChecksCountThenForm : Obligations.DispatchChecksCountThenForm := by
  intro i s
  obtain ⟨rule, hrule, hexec⟩ := exec_dispatched i s
  rw [hexec]
  refine ⟨fun hcount => finish_raises (checked_badCount hcount rule), fun op ops hops hcount hreg hform => ?form,
    fun hcount hform hnone t ht pc0 o n => ?accepted⟩
  case form =>
    refine finish_raises (checked_badForm hcount ?_ rule)
    simp [hops, formRefused, hreg, hform]
  case accepted =>
    have haccepted : formRefused i.opcode i.operands = false := by
      cases hops : i.operands with
      | nil => rfl
      | cons op ops => simpa [formRefused] using hform op ops hops
    rw [checked_accepted hcount haccepted] at ht
    exact ⟨finish_rule_fault hrule hnone ht rfl pc0, finish_rule_fault hrule hnone ht rfl pc0⟩

end Sys2Proof.Machine
end

section
/-! PROOFS. The steps that stop in the fetch or in the decoder: what the fetch answers on each first bytes, and the step
that follows. -/

namespace Sys2Proof.Machine

/-! The length of the instruction at the pc, and its fetch. -/

section Fetch

variable {rom : List Byte} {pc : Int} {b0 : Byte} {s : State} {f : Fault}

theorem romByte_outside {i : Int} (h : ¬ (0 ≤ i ∧ i < rom.length)) : romByte rom i = .error (.accessViolation i) :=
  if_neg h

theorem fetchLength_count3 (hb0 : romByte rom pc = .ok b0) (hcount : bits b0.toNat 7 6 = 3) :
    fetchLength rom pc = .error (.decodingError pc) := by
  simp only [fetchLength, hb0, hcount, if_true]

theorem fetchLength_no_type_byte (hb0 : romByte rom pc = .ok b0) (hcount0 : bits b0.toNat 7 6 ≠ 0)
    (hcount3 : bits b0.toNat 7 6 ≠ 3) (hb1 : romByte rom (pc + 1) = .error f) : fetchLength rom pc = .error f := by
  simp only [fetchLength, hb0, hcount0, hcount3, hb1, if_false]

theorem instrLength_count3 (b1 : Byte) (h : bits b0.toNat 7 6 = 3) : instrLength b0 b1 = none := by
  simp [instrLength, h]

theorem instrLength_count0 (b1 : Byte) (h : bits b0.toNat 7 6 = 0) : instrLength b0 b1 = some 1 := by
  simp [instrLength, h]

/-- Where the first two bytes are in the ROM, the fetch takes the length that the length rule gives for them. -/
theorem fetchLength_of_instrLength {b1 : Byte} {n : Nat} (hb0 : romByte rom pc = .ok b0)
    (hb1 : romByte rom (pc + 1) = .ok b1) (hlen : instrLength b0 b1 = some n) : fetchLength rom pc = .ok n := by
  have hcount3 : bits b0.toNat 7 6 ≠ 3 := fun h => by simp [instrLength_count3 b1 h] at hlen
  by_cases hcount0 : bits b0.toNat 7 6 = 0
  · obtain rfl : 1 = n := by simpa [instrLength_count0 b1 hcount0] using hlen
    simp only [fetchLength, hb0, hcount0, if_true]
    rfl
  · simp only [fetchLength, hb0, hb1, hcount0, hcount3, hlen, if_false]

theorem fetch_negative (h : s.pc < 0) : fetch s = .error (.accessViolation s.pc) := by
  have hinside : ¬ s.pc ≥ s.rom.length := by omega
  rw [fetch, if_neg hinside, if_pos h]

/-- Inside the ROM, a fault of the length is the fault of the fetch. -/
theorem fetch_length_error (hb0 : romByte s.rom s.pc = .ok b0) (h : fetchLength s.rom s.pc = .error f) :
    fetch s = .error f := by
  obtain ⟨h0, hinside, _⟩ := romByte_ok hb0
  rw [fetch, if_neg (Int.not_le.2 hinside), if_neg (Int.not_lt.2 h0), h]

/-- Inside the ROM, an instruction that runs past the end faults with the length of the ROM. -/
theorem fetch_past_end {n : Nat} (hb0 : romByte s.rom s.pc = .ok b0) (h : fetchLength s.rom s.pc = .ok n)
    (hpast : (s.rom.length : Int) < s.pc + n) : fetch s = .error (.accessViolation s.rom.length) := by
  obtain ⟨h0, hinside, _⟩ := romByte_ok hb0
  rw [fetch, if_neg (Int.not_le.2 hinside), if_neg (Int.not_lt.2 h0), h]
  exact if_pos hpast

end Fetch

/-! The step behind the fetch. -/

section Step

variable {s : State}

theorem step_running (hidle : isIdle s = false) : step s = cycle (s.withPc0 s.pc) := by
  rw [step, stepCore, hidle]
  rfl

theorem step_end_of_rom (hidle : isIdle s = false) (h : fetch s = .ok none) :
    step s = .next { s with halted := true, pc0 := s.pc } := by
  rw [step_running hidle, cycle, fetch_withPc0, h]
  rfl

theorem step_fetch_error {f : Fault} (hidle : isIdle s = false) (h : fetch s = .error f) :
    ∃ t, step s = .next t ∧ Raised { s with pc0 := s.pc } t f := by
  rw [step_running hidle, cycle, fetch_withPc0, h]
  exact ⟨_, rfl, takeFault_raised f _⟩

theorem step_decode_error {bytes : List Byte} {e : CodecError} (hidle : isIdle s = false)
    (h : fetch s = .ok (some bytes)) (hdecode : decode s.cfg.opcodeIds bytes = .error e) :
    ∃ t, step s = .next t ∧ Raised { s with pc0 := s.pc } t (codecFault s.pc e) := by
  refine ⟨takeFault (codecFault s.pc e) { s with pc0 := s.pc, pc := s.pc + bytes.length }, ?_,
    takeFault_raised _ { s with pc0 := s.pc, pc := s.pc + bytes.length }⟩
  rw [step_running hidle, cycle, fetch_withPc0, h]
  simp only [runFetched, withPc_cfg, withPc0_cfg, hdecode]
  rfl

end Step

/-- Settles O9: the end of the ROM is a fetch without bytes, and the step that halts there counts nothing. -/
theorem fetchPastTheEndHalts : Obligations.FetchPastTheEndHalts := by
  intro s hidle hend
  obtain ⟨_, _, hnone⟩ := isIdle_eq_false_iff.1 hidle
  exact ⟨step_end_of_rom hidle (fetch_eq_none_iff.2 hend), by simp [stepResult, hidle, hnone]⟩

/-- Settles O10: one fault of the fetch for each clause. -/
theorem fetchFaultsAreRecorded : Obligations.FetchFaultsAreRecorded := by
  refine fun s hidle => ⟨fun hneg => ?negative, fun b0 h0 hb0 hcount => ?count3,
    fun b0 h0 hb0 hcount hlast => ?typeByte, fun b0 b1 n h0 hb0 hb1 hlen hpast => ?pastEnd⟩
  case negative => exact step_fetch_error hidle (fetch_negative hneg)
  case count3 =>
    have hfirst := romByte_at h0 hb0
    exact step_fetch_error hidle (fetch_length_error hfirst (fetchLength_count3 hfirst hcount))
  case typeByte =>
    have hfirst := romByte_at h0 hb0
    have hcount' : bits b0.toNat 7 6 = 1 ∨ bits b0.toNat 7 6 = 2 := by simpa using hcount
    have hsecond : romByte s.rom (s.pc + 1) = .error (.accessViolation (s.pc + 1)) := romByte_outside (by omega)
    exact step_fetch_error hidle
      (fetch_length_error hfirst (fetchLength_no_type_byte hfirst (by omega) (by omega) hsecond))
  case pastEnd =>
    have hfirst := romByte_at h0 hb0
    have hsecond : romByte s.rom (s.pc + 1) = .ok b1 := by
      refine romByte_at (by omega) ?_
      rwa [Int.toNat_add h0 Int.one_nonneg]
    exact step_fetch_error hidle
      (fetch_past_end hfirst (fetchLength_of_instrLength hfirst hsecond hlen) hpast)

/-! The errors of the decoder. -/

theorem decodeOperand_error {tag : Nat} {w : List Byte} {e : CodecError} (h : decodeOperand tag w = .error e) :
    e = .decodingError := by
  unfold decodeOperand at h
  split at h
  case h_1 | h_4 =>
    split at h
    · cases h
      rfl
    · cases h
  case h_2 | h_3 => cases h
  case h_5 =>
    cases h
    rfl

theorem decodeOperands_error {n t : Nat} {w : List Byte} {e : CodecError} (h : decodeOperands n t w = .error e) :
    e = .decodingError := by
  induction n generalizing t w with
  | zero => cases h
  | succ n ih =>
    rw [decodeOperands] at h
    split at h
    · cases h
      exact decodeOperand_error ‹_›
    · split at h
      · cases h
        exact ih ‹_›
      · cases h

/-- Behind a legal count and a known opcode every check of the decoder raises `DecodingError`. -/
theorem decode_known_opcode_error {ids : List Nat} {b0 : Byte} {rest : List Byte} {opc : Opcode} {e : CodecError}
    (hcount3 : bits b0.toNat 7 6 ≠ 3) (hopc : opcodeOf ids (bits b0.toNat 5 0) = some opc)
    (h : decode ids (b0 :: rest) = .error e) : e = .decodingError := by
  simp only [decode, hcount3, hopc, if_false] at h
  split at h
  · split at h
    · cases h
    · cases h
      rfl
  · split at h
    · cases h
      rfl
    · split at h
      · cases h
        rfl
      · split at h
        · cases h
          exact decodeOperands_error ‹_›
        · cases h
        · cases h
          rfl

/-- The decoder raises `DecodingError` and `InvalidOpcode`, and neither of the encoder's errors. -/
theorem decode_error {ids : List Nat} {w : List Byte} {e : CodecError} (h : decode ids w = .error e) :
    e = .decodingError ∨ ∃ id, e = .invalidOpcode id := by
  cases w with
  | nil => exact .inl (by simpa [decode] using h.symm)
  | cons b0 rest =>
    by_cases hcount3 : bits b0.toNat 7 6 = 3
    · rw [decode_count3 rest hcount3] at h
      exact .inl (by simpa using h.symm)
    cases hopc : opcodeOf ids (bits b0.toNat 5 0) with
    | none =>
      rw [decode_unknown_opcode rest hcount3 hopc] at h
      exact .inr ⟨_, by simpa using h.symm⟩
    | some opc => exact .inl (decode_known_opcode_error hcount3 hopc h)

/-- Settles O11: the fault of the step is the decoder's error, one of `decode_error`'s two. -/
theorem decodeFaultsAreRecorded : Obligations.DecodeFaultsAreRecorded := by
  intro s bytes e hidle hfetch hdecode
  obtain ⟨t, hstep, hraised⟩ := step_decode_error hidle hfetch hdecode
  rcases decode_error hdecode with rfl | ⟨id, rfl⟩
  · exact ⟨t, hstep, .inl ⟨rfl, hraised⟩⟩
  · exact ⟨t, hstep, .inr ⟨id, rfl, hraised⟩⟩

end Sys2Proof.Machine
end

section
/-! PROOFS. The assembler: an argument and the operand it stands for have the same payload size, so each line's bytes
are as many as pass 1 counts (30_encoding.md R69). -/

namespace Sys2Proof.Machine

section Sizes

variable {cfg : Config} {labels : List (List Char × Nat)}

theorem resolveArg_size {arg : AsmArg} {op : Operand} (h : resolveArg cfg labels arg = .ok op) :
    tagSize (tagOf op) = argSize arg := by
  cases arg with
  | register id | registerMemory id =>
    simp only [resolveArg] at h
    split at h
    · cases h
      rfl
    · cases h
  | memory inner =>
    simp only [resolveArg] at h
    split at h
    · cases h
      rfl
    · split at h <;> cases h
  | bare token =>
    simp only [resolveArg] at h
    split at h
    · cases h
      rfl
    · split at h
      · cases h
        rfl
      · cases h

theorem resolveArgs_size {args : List AsmArg} {ops : List Operand} (h : resolveArgs cfg labels args = .ok ops) :
    ops.map (fun op => tagSize (tagOf op)) = args.map argSize := by
  induction args generalizing ops with
  | nil =>
    cases h
    rfl
  | cons arg args ih =>
    rw [resolveArgs] at h
    split at h
    · cases h
    · rename_i op hop
      split at h
      · cases h
      · rename_i more hmore
        cases h
        rw [List.map_cons, List.map_cons, resolveArg_size hop, ih hmore]

/-- The length of an encoding: 1 byte without operands, else the first byte, the type byte and the payloads. -/
theorem encode_length {ids : List Nat} {i : Instr} {w : List Byte} (h : encode ids i = .ok w) :
    w.length = if i.operands = [] then 1 else 2 + payloadLength i.operands := by
  obtain ⟨_, rest, henc, rfl⟩ := encode_ok_iff.1 h
  rw [List.length_cons, encodedAs_length henc]
  split
  · rfl
  · omega

/-- Pass 1's size of a line's instruction, by the arguments' sizes. -/
theorem bodySize_some (mnemonic : List Char) (args : List AsmArg) :
    bodySize (some (mnemonic, args)) = if args = [] then 1 else 2 + (args.map argSize).sum := by
  cases args <;> rfl

theorem assembleBody_length {body : Option (List Char × List AsmArg)} {bytes : List Byte}
    (h : assembleBody cfg labels body = .ok bytes) : bytes.length = bodySize body := by
  match body with
  | none =>
    cases h
    rfl
  | some (mnemonic, args) =>
    simp only [assembleBody] at h
    split at h
    · cases h
    · split at h
      · cases h
      · split at h
        · cases h
        · rename_i ops hops
          split at h
          · cases h
          · rename_i w hencode
            cases h
            have hsizes := resolveArgs_size hops
            have hnil : ops = [] ↔ args = [] := by simpa using congrArg (· = []) hsizes
            rw [encode_length hencode, operands_ofOpcode, bodySize_some, payloadLength, hsizes]
            simp only [hnil]

theorem passTwo_length {lines : List AsmLine} {rom : List Byte} (h : passTwo cfg labels lines = .ok rom) :
    rom.length = (lines.map fun l => bodySize l.body).sum := by
  induction lines generalizing rom with
  | nil =>
    cases h
    rfl
  | cons l lines ih =>
    rw [passTwo] at h
    split at h
    · cases h
    · rename_i bytes hbytes
      split at h
      · cases h
      · rename_i more hmore
        cases h
        rw [List.length_append, assembleBody_length hbytes, ih hmore, List.map_cons, List.sum_cons]

end Sizes

/-- Settles O60: the image is what pass 2 emits, line by line. -/
theorem passOneSizesMatchTheImage : Obligations.PassOneSizesMatchTheImage := by
  intro cfg source rom h
  unfold assemble at h
  split at h
  · cases h
  · exact passTwo_length h

/-- Settles O59: the source is assembled by evaluation. -/
theorem assemblerResolvesTheSourceExample : Obligations.AssemblerResolvesTheSourceExample := by
  unfold Obligations.AssemblerResolvesTheSourceExample
  decide

end Sys2Proof.Machine
end

section
/-! PROOFS. The flags of capping, as the statements name them; a write in a state whose flags alone have been set; and NOP,
HLT and MOV. -/

namespace Sys2Proof.Machine

/-! The flags of capping. -/

theorem cap_carry_eq_carryOf (c : Config) (raw : Int) : (cap c raw).carry = carryOf c raw := by
  rw [cap_carry, carryOf]
  exact decide_eq_decide.2 or_comm

theorem cap_overflow_eq_overflowOf (c : Config) (raw : Int) : (cap c raw).overflow = overflowOf c raw := by
  rw [cap_overflow, overflowOf]
  exact decide_eq_decide.2 or_comm

/-- `CapFlags` answers the capped value and sets C and O only (10_state.md R20). -/
theorem capFlags_eq (s : State) (raw : Int) : capFlags s raw = ((cap s.cfg raw).value,
    s.withFlags ⟨s.flags.z, s.flags.n, carryOf s.cfg raw, overflowOf s.cfg raw⟩) := by
  rw [← cap_carry_eq_carryOf, ← cap_overflow_eq_overflowOf]
  rfl

/-! A write in a state whose flags alone have been set. -/

section WriteAfterFlags

variable {s t : State} {dst : Operand} {v : Int} {g : Flags}

theorem operandAddress_withFlags (s : State) (g : Flags) (op : Operand) :
    operandAddress (s.withFlags g) op = operandAddress s op := by
  cases op <;> rfl

/-- The location that an operand names does not depend on the flags. -/
theorem wrote_of_wrote_withFlags (h : Wrote (s.withFlags g) t dst v) : Wrote s t dst v := by
  simpa only [Wrote, operandAddress_withFlags, withFlags_cfg, withFlags_regs, withFlags_ram] using h

/-- An instruction that sets the flags and then writes its writable destination completes, and changes nothing but the
flags and the location that the destination names. -/
theorem writeOperand_withFlags (g : Flags) (v : Int) (hinv : MachineInv s) (hdst : writable s dst = true) :
    ∃ t, writeOperand (s.withFlags g) dst v = .ok t ∧ Wrote s t dst v ∧ SameBesides s t ∧ t.flags = g := by
  have hinv' : MachineInv (s.withFlags g) := hinv
  have hdst' : writable (s.withFlags g) dst = true := (writable_congr rfl rfl dst).trans hdst
  obtain ⟨t, hwrite, hwrote, hframe⟩ := (writeOperandWritesOneLocation (s.withFlags g) dst v hinv').1 hdst'
  have hflags : t.flags = g := by rw [hframe, withFlags_flags]
  refine ⟨t, hwrite, wrote_of_wrote_withFlags hwrote, ?_, hflags⟩
  rw [SameBesides, hflags]
  exact hframe

end WriteAfterFlags

/-- Settles O31: neither has an operand to count or to read, so each rule's state is the answer. -/
theorem nopAndHltComplete : Obligations.NopAndHltComplete :=
  fun s => ⟨finish_ok s s, finish_ok s (s.withHalted true)⟩

/-- Settles O32: MOV reads its source, sets C and O by capping it, and writes the capped value. -/
theorem movWritesCappedSource : Obligations.MovWritesCappedSource := by
  intro s dst src hinv hdst hsrc
  have ⟨⟨hbits, _⟩, _⟩ := hinv
  obtain ⟨t, hwrite, hwrote, hsame, hflags⟩ := writeOperand_withFlags
    ⟨s.flags.z, s.flags.n, carryOf s.cfg (operandValue s src), overflowOf s.cfg (operandValue s src)⟩
    (cap s.cfg (operandValue s src)).value hinv hdst
  have hexec : exec (.mov [dst, src]) s = .next t := calc
    exec (.mov [dst, src]) s = execMov [dst, src] s := rfl
    _ = .next t := by rw [execMov_reads dst hsrc, capFlags_eq, hwrite, finish_ok]
  exact ⟨t, _, hexec, cap_cappedTo hbits _, hwrote, hsame, hflags⟩

end Sys2Proof.Machine
end

section
/-! PROOFS. Integer arithmetic: the common end of the arithmetic instructions, what their two shared meanings do with a
writable destination, and the eight instructions. -/

namespace Sys2Proof.Machine

theorem readable_of_writable {s : State} {op : Operand} (h : writable s op = true) : readable s op = true := by
  cases op with
  | immediate k => rfl
  | register i | memoryAddress a | registerMemory i => exact h

/-! The common end: the four flags are set, then the capped result is written (41_arithmetic.md R75). -/

/-- The four flags of a raw result: Z and N of the capped value, C and O of the raw one. -/
def resultFlags (c : Config) (raw : Int) : Flags :=
  ⟨decide ((cap c raw).value = 0), decide ((cap c raw).value < 0), carryOf c raw, overflowOf c raw⟩

/-- `CapFlags` and then `ArithFlags` of the capped value set the four flags of the raw result (10_state.md R20, R21). -/
theorem arithFlags_capFlags (s : State) (raw : Int) :
    arithFlags (capFlags s raw).2 (cap s.cfg raw).value = s.withFlags (resultFlags s.cfg raw) := by
  rw [capFlags_eq]
  rfl

theorem writeArith_eq (s : State) (dst : Operand) (raw : Int) : writeArith s dst raw =
    writeOperand (s.withFlags (resultFlags s.cfg raw)) dst (cap s.cfg raw).value := by
  rw [← arithFlags_capFlags]
  rfl

section SharedMeanings

variable {s : State} {dst src : Operand} {opc : Opcode}

theorem writeArith_effect (raw : Int) (hinv : MachineInv s) (hdst : writable s dst = true) :
    ∃ t, writeArith s dst raw = .ok t ∧ ArithEffect s t dst raw := by
  have ⟨⟨hbits, _⟩, _⟩ := hinv
  obtain ⟨t, hwrite, hwrote, hsame, hflags⟩ :=
    writeOperand_withFlags (resultFlags s.cfg raw) (cap s.cfg raw).value hinv hdst
  exact ⟨t, (writeArith_eq s dst raw).trans hwrite, _, cap_cappedTo hbits raw, hwrote, hsame, hflags⟩

theorem arith1_effect (raw : Int → Int) (hinv : MachineInv s) (hdst : writable s dst = true) :
    ∃ t, arith1 opc raw [dst] s = .next t ∧ ArithEffect s t dst (raw (operandValue s dst)) := by
  obtain ⟨t, hwrite, heffect⟩ := writeArith_effect (raw (operandValue s dst)) hinv hdst
  refine ⟨t, ?_, heffect⟩
  rw [arith1_reads raw (readable_of_writable hdst), hwrite, finish_ok]

theorem arith2_effect {raw : Int → Int → Except Fault Int} {r : Int} (hinv : MachineInv s)
    (hdst : writable s dst = true) (hsrc : readable s src = true)
    (hraw : raw (operandValue s dst) (operandValue s src) = .ok r) :
    ∃ t, arith2 opc raw [dst, src] s = .next t ∧ ArithEffect s t dst r := by
  obtain ⟨t, hwrite, heffect⟩ := writeArith_effect r hinv hdst
  refine ⟨t, ?_, heffect⟩
  rw [arith2_reads (readable_of_writable hdst) hsrc hraw, hwrite, finish_ok]

/-- The operation's own fault is raised behind the two reads; the destination need not be writable. -/
theorem arith2_raises {raw : Int → Int → Except Fault Int} {f : Fault} (hdst : readable s dst = true)
    (hsrc : readable s src = true) (hraw : raw (operandValue s dst) (operandValue s src) = .error f) :
    ∃ t, arith2 opc raw [dst, src] s = .next t ∧ Raised s t f := by
  simp only [arith2, execute2, readOperand_readable hdst, readOperand_readable hsrc, hraw]
  exact finish_raises rfl

end SharedMeanings

/-- The floor remainder is 0 or has the divisor's sign, and is smaller in magnitude (41_arithmetic.md R76). -/
theorem fmod_bounds (a : Int) {b : Int} (hb : b ≠ 0) : 0 ≤ a.fmod b ∧ a.fmod b < b ∨ b < a.fmod b ∧ a.fmod b ≤ 0 := by
  rcases lt_or_gt_of_ne hb with hneg | hpos
  · exact .inr ((Int.fdiv_fmod_unique' hneg).1 ⟨rfl, rfl⟩).2
  · exact .inl ⟨Int.fmod_nonneg_of_pos a hpos, Int.fmod_lt_of_pos a hpos⟩

/-- Settles O33: the three instructions differ in the raw result alone. -/
theorem addSubMulWriteCappedResult : Obligations.AddSubMulWriteCappedResult := by
  intro s dst src hinv hdst hsrc
  simp only [exec, execAdd, execSub, execMul]
  exact ⟨arith2_effect hinv hdst hsrc rfl, arith2_effect hinv hdst hsrc rfl, arith2_effect hinv hdst hsrc rfl⟩

/-- Settles O34: the quotient and the remainder are `fdiv` and `fmod`; a divisor that is not 0 passes the check. -/
theorem divModWriteFloorQuotientRemainder : Obligations.DivModWriteFloorQuotientRemainder := by
  intro s dst src hinv hdst hsrc hne
  simp only [exec, execDiv, execMod]
  exact ⟨(operandValue s dst).fdiv (operandValue s src), (operandValue s dst).fmod (operandValue s src),
    (Int.mul_fdiv_add_fmod _ _).symm, fmod_bounds _ hne, arith2_effect hinv hdst hsrc (if_neg hne),
    arith2_effect hinv hdst hsrc (if_neg hne)⟩

/-- Settles O35: a divisor of 0 does not pass the check, which stands between the reads and the write. -/
theorem divisionByZeroFaults : Obligations.DivisionByZeroFaults := by
  intro s dst src hdst hsrc hzero
  simp only [exec, execDiv, execMod]
  exact ⟨arith2_raises hdst hsrc (if_pos hzero), arith2_raises hdst hsrc (if_pos hzero)⟩

/-- Settles O36: the three instructions differ in the raw result alone. -/
theorem incDecNegWriteCappedResult : Obligations.IncDecNegWriteCappedResult := by
  intro s dst hinv hdst
  simp only [exec, execInc, execDec, execNeg]
  exact ⟨arith1_effect _ hinv hdst, arith1_effect _ hinv hdst, arith1_effect _ hinv hdst⟩

end Sys2Proof.Machine
end

section
/-! PROOFS. The logical operations bit by bit; AND, OR, XOR, NOT and TEST; and CMP. -/

namespace Sys2Proof.Machine

/-! The model's integer operations are Mathlib's on the infinite two's-complement representation (00_scope.md R7). -/

section Bits

/-- The bits of `m` that `n` does not have, as the model writes them. -/
theorem xor_and_eq_ldiff (m n : Nat) : m ^^^ (m &&& n) = Nat.ldiff m n := by
  apply Nat.eq_of_testBit_eq
  intro k
  rw [Nat.testBit_ldiff, Nat.testBit_xor, Nat.testBit_and]
  cases m.testBit k <;> simp

theorem intAnd_eq_land (a b : Int) : intAnd a b = Int.land a b := by
  cases a with
  | ofNat m =>
    cases b with
    | ofNat n => rfl
    | negSucc n => exact congrArg Int.ofNat (xor_and_eq_ldiff m n)
  | negSucc m =>
    cases b with
    | ofNat n => exact congrArg Int.ofNat (xor_and_eq_ldiff n m)
    | negSucc n => rfl

theorem intOr_eq_lor (a b : Int) : intOr a b = Int.lor a b := by
  cases a with
  | ofNat m =>
    cases b with
    | ofNat n => rfl
    | negSucc n => exact congrArg Int.negSucc (xor_and_eq_ldiff n m)
  | negSucc m =>
    cases b with
    | ofNat n => exact congrArg Int.negSucc (xor_and_eq_ldiff m n)
    | negSucc n => rfl

theorem intXor_eq_xor (a b : Int) : intXor a b = Int.xor a b := by
  cases a <;> cases b <;> rfl

/-- `-v - 1` is the complement: `-(m + 1)` has the complements of the bits of `m`. -/
theorem intNot_eq_lnot (a : Int) : intNot a = Int.lnot a := by
  cases a with
  | ofNat m =>
    simp only [intNot, Int.lnot, Int.ofNat_eq_natCast, Int.negSucc_eq]
    omega
  | negSucc m =>
    simp only [intNot, Int.lnot, Int.negSucc_eq]
    omega

theorem testBit_intAnd (a b : Int) (k : Nat) : (intAnd a b).testBit k = (a.testBit k && b.testBit k) := by
  rw [intAnd_eq_land, Int.testBit_land]

theorem testBit_intOr (a b : Int) (k : Nat) : (intOr a b).testBit k = (a.testBit k || b.testBit k) := by
  rw [intOr_eq_lor, Int.testBit_lor]

theorem testBit_intXor (a b : Int) (k : Nat) : (intXor a b).testBit k = Bool.xor (a.testBit k) (b.testBit k) := by
  rw [intXor_eq_xor, Int.testBit_lxor]

theorem testBit_intNot (a : Int) (k : Nat) : (intNot a).testBit k = !a.testBit k := by
  rw [intNot_eq_lnot, Int.testBit_lnot]

end Bits

section Logic

variable {s : State} {dst src : Operand} {opc : Opcode}

/-- The common end: the boolean flags of the uncapped result are set, then the result is written (42_bitwise.md R85). -/
theorem writeLogic_effect (v : Int) (hinv : MachineInv s) (hdst : writable s dst = true) :
    ∃ t, writeOperand (boolFlags s v) dst v = .ok t ∧ LogicEffect s t dst v :=
  writeOperand_withFlags ⟨decide (v = 0), false, false, false⟩ v hinv hdst

theorem logic2_effect (op : Int → Int → Int) (hinv : MachineInv s) (hdst : writable s dst = true)
    (hsrc : readable s src = true) : ∃ t, logic2 opc op [dst, src] s = .next t ∧
      LogicEffect s t dst (op (operandValue s dst) (operandValue s src)) := by
  obtain ⟨t, hwrite, heffect⟩ := writeLogic_effect (op (operandValue s dst) (operandValue s src)) hinv hdst
  refine ⟨t, ?_, heffect⟩
  rw [logic2_reads op (readable_of_writable hdst) hsrc, hwrite, finish_ok]

theorem execNot_effect (hinv : MachineInv s) (hdst : writable s dst = true) :
    ∃ t, execNot [dst] s = .next t ∧ LogicEffect s t dst (intNot (operandValue s dst)) := by
  obtain ⟨t, hwrite, heffect⟩ := writeLogic_effect (intNot (operandValue s dst)) hinv hdst
  refine ⟨t, ?_, heffect⟩
  rw [execNot_reads (readable_of_writable hdst), hwrite, finish_ok]

theorem execTest_reads (hdst : readable s dst = true) (hsrc : readable s src = true) :
    execTest [dst, src] s = .next (boolFlags s (intAnd (operandValue s dst) (operandValue s src))) := by
  simp only [execTest, execute2, readOperand_readable hdst, readOperand_readable hsrc, finish_ok]

theorem execCmp_reads (hdst : readable s dst = true) (hsrc : readable s src = true) : execCmp [dst, src] s =
    .next (s.withFlags (resultFlags s.cfg (operandValue s dst - operandValue s src))) := by
  rw [← arithFlags_capFlags]
  simp only [execCmp, execute2, readOperand_readable hdst, readOperand_readable hsrc, finish_ok, capFlags_eq]

end Logic

/-- Settles O37: the four instructions differ in the integer operation alone, and each operation acts bit by bit. -/
theorem logicalOperationsActBitwise : Obligations.LogicalOperationsActBitwise := by
  intro s dst src hinv hdst hsrc
  simp only [exec, execAnd, execOr, execXor]
  obtain ⟨t₁, hand, hand_effect⟩ := logic2_effect intAnd hinv hdst hsrc
  obtain ⟨t₂, hor, hor_effect⟩ := logic2_effect intOr hinv hdst hsrc
  obtain ⟨t₃, hxor, hxor_effect⟩ := logic2_effect intXor hinv hdst hsrc
  obtain ⟨t₄, hnot, hnot_effect⟩ := execNot_effect hinv hdst
  exact ⟨⟨t₁, _, hand, hand_effect, testBit_intAnd _ _⟩, ⟨t₂, _, hor, hor_effect, testBit_intOr _ _⟩,
    ⟨t₃, _, hxor, hxor_effect, testBit_intXor _ _⟩, ⟨t₄, _, hnot, hnot_effect, testBit_intNot _⟩⟩

/-- Settles O38: each reads both operands and ends in a state with other flags. -/
theorem testAndCmpWriteOnlyFlags : Obligations.TestAndCmpWriteOnlyFlags := by
  intro s a b hinv ha hb
  have ⟨⟨hbits, _⟩, _⟩ := hinv
  exact ⟨⟨_, execTest_reads ha hb, testBit_intAnd _ _⟩, ⟨_, cap_cappedTo hbits _, execCmp_reads ha hb⟩⟩

end Sys2Proof.Machine
end

section
/-! PROOFS. CLR: each register and each RAM word after an operand write, and two such writes in a row. -/

namespace Sys2Proof.Machine

section WriteReads

variable {s t : State} {op : Operand} {v : Int}

/-- A RAM word after an operand write is the one written at the address that the operand names, and else the old one. -/
theorem writeOperand_ram_read (hwf : Memory.wf s.ram = true) (h : writeOperand s op v = .ok t) (k : Nat) :
    Memory.read t.ram k = if operandAddress s op = .ok (some (k : Int)) then v else Memory.read s.ram k := by
  rcases writeOperand_ok h with ⟨i, rfl, _, rfl⟩ | ⟨a, haddr, hvalid, rfl⟩
  · simp [operandAddress]
  · obtain ⟨n, rfl⟩ := Int.eq_ofNat_of_zero_le hvalid.1
    rw [haddr, withRam_ram, Int.toNat_natCast]
    by_cases hkn : k = n
    · rw [if_pos (by rw [hkn]), hkn, Memory.read_write_same n v hwf]
    · rw [if_neg (by simpa using Ne.symm hkn), Memory.read_write_other hkn]

/-- The address that an operand names depends on the parameters and the registers only. -/
theorem operandAddress_congr (hcfg : t.cfg = s.cfg) (hregs : t.regs = s.regs) (op : Operand) :
    operandAddress t op = operandAddress s op := by
  cases op <;> simp only [operandAddress, readReg, hcfg, hregs]

end WriteReads

/-- Settles O39: CLR is two operand writes of 0; a register or RAM word is 0 when the second write named it, or else when
the first did. -/
theorem clrClearsBothOperands : Obligations.ClrClearsBothOperands := by
  intro s a b ⟨_, hlen, hwf, _⟩ ha hb
  obtain ⟨u, hfirst⟩ := writeOperand_writable 0 ha
  have hkept := writeOperand_kept hfirst
  obtain ⟨hcfg, hregs⟩ := first_clear_cfg_regs hfirst
  obtain ⟨t, hsecond⟩ := writeOperand_writable 0 ((writable_congr hcfg hregs b).trans hb)
  have hlen' : u.regs.length = u.cfg.registerCount := by rw [hkept.regs_length, hkept.cfg, hlen]
  obtain ⟨hfirstRegs, _⟩ := writeOperand_wrote hlen hwf hfirst
  obtain ⟨hsecondRegs, _⟩ := writeOperand_wrote hlen' (hkept.ram_wf hwf) hsecond
  have hexec : exec (.clr [a, b]) s = .next t := calc
    exec (.clr [a, b]) s = execClr [a, b] s := rfl
    _ = .next t := by rw [execClr_first_ok b hfirst, hsecond, finish_ok]
  refine ⟨t, hexec, ?frame, (writeOperand_kept hsecond).regs_length.trans hkept.regs_length, fun j hj => ?regs,
    fun k => ?ram⟩
  case frame => rw [writeOperand_frame hsecond, writeOperand_frame hfirst]
  case regs =>
    rw [hsecondRegs j (hkept.cfg ▸ hj), hfirstRegs j hj, ← ite_or]
    exact if_congr or_comm rfl rfl
  case ram =>
    rw [writeOperand_ram_read (hkept.ram_wf hwf) hsecond, writeOperand_ram_read hwf hfirst,
      operandAddress_congr hcfg hregs, ← ite_or]
    exact if_congr or_comm rfl rfl

end Sys2Proof.Machine
end

section
/-! PROOFS. The shifts: the flags as the statements name them, the common meaning, and SHL and SHR. -/

namespace Sys2Proof.Machine

/-- `ShiftFlags` sets Z and N only; a register id is never negative (42_bitwise.md R92). -/
theorem shiftFlags_eq {i : Int} (s : State) (r : Int) (hi : 0 ≤ i) :
    shiftFlags s i r = s.withFlags (shiftedFlags s i r) := by
  have hneg : decide (i < 0) = false := decide_eq_false (by omega)
  unfold shiftFlags shiftedFlags
  cases s.cfg.shiftFlagSource with
  | registerId => simp only [hneg]
  | result => rfl

section Shift

variable {s : State} {i : Int} {amount : Operand} {opc : Opcode} (op : Int → Int → Int)

theorem shift_reads (hi : validReg s i) (hamount : readable s amount = true) (hk : 0 ≤ operandValue s amount) :
    shift opc op [.register i, amount] s = .next { s with
      regs := s.regs.set i.toNat (op (regValue s i) (operandValue s amount)),
      flags := shiftedFlags s i (op (regValue s i) (operandValue s amount)) } := by
  have hvalid : validReg (s.withFlags (shiftedFlags s i (op (regValue s i) (operandValue s amount)))) i := hi
  simp only [shift, executeReg2, execute2, readReg_valid hi, readOperand_readable hamount, if_neg (not_lt.2 hk),
    shiftFlags_eq s _ hi.1, writeReg_valid _ hvalid]
  rfl

theorem shift_negative (hi : validReg s i) (hamount : readable s amount = true) (hk : operandValue s amount < 0) :
    ∃ t, shift opc op [.register i, amount] s = .next t ∧
      Raised s t (.negativeShiftAmount (operandValue s amount)) := by
  simp only [shift, executeReg2, execute2, readReg_valid hi, readOperand_readable hamount, if_pos hk]
  exact finish_raises rfl

end Shift

theorem shiftLeft_eq_mul_two_pow (a k : Int) : shiftLeft a k = a * (2 : Int) ^ k.toNat := by
  rw [shiftLeft, Nat.cast_pow, Nat.cast_two]

/-- `SHR`'s quotient is the floor of the exact one (42_bitwise.md R94). -/
theorem shiftRight_bounds (a k : Int) : shiftRight a k * (2 : Int) ^ k.toNat ≤ a ∧
    a < (shiftRight a k + 1) * (2 : Int) ^ k.toNat := by
  have hpos : (0 : Int) < 2 ^ k.toNat := by positivity
  rw [shiftRight, Nat.cast_pow, Nat.cast_two, Int.fdiv_eq_ediv_of_nonneg a hpos.le]
  exact ⟨Int.ediv_mul_le a hpos.ne', Int.lt_ediv_add_one_mul_self a hpos⟩

/-- Settles O41: the quotient is `shiftRight`'s, by its two bounds. -/
theorem shrDividesByPowerOfTwoFloor : Obligations.ShrDividesByPowerOfTwoFloor := by
  intro s i amount hi hamount hk
  obtain ⟨hle, hlt⟩ := shiftRight_bounds (regValue s i) (operandValue s amount)
  simp only [exec, execShr]
  exact ⟨_, hle, hlt, shift_reads shiftRight hi hamount hk⟩

/-- Settles O40: the product is `shiftLeft`'s. -/
theorem shlMultipliesByPowerOfTwo : Obligations.ShlMultipliesByPowerOfTwo := by
  intro s i amount hi hamount hk
  simp only [exec, execShl, ← shiftLeft_eq_mul_two_pow]
  exact shift_reads shiftLeft hi hamount hk

/-- Settles O42: the two instructions share the check of the amount. -/
theorem negativeShiftAmountFaults : Obligations.NegativeShiftAmountFaults := by
  intro s i amount hi hamount hk
  simp only [exec, execShl, execShr]
  exact ⟨shift_negative shiftLeft hi hamount hk, shift_negative shiftRight hi hamount hk⟩

end Sys2Proof.Machine
end

section
/-! PROOFS. The jumps, CALL and RET: the pc and the stack that each leaves once its operands have been read, and RET after
CALL. -/

namespace Sys2Proof.Machine

section Branches

variable {s t : State} {x : Operand} {opc : Opcode}

theorem jump_reads (taken : Flags → Bool) (hx : readable s x = true) :
    jump opc taken [x] s = .next { s with pc := if taken s.flags = true then operandValue s x else s.pc } := by
  simp only [jump, execute1, readOperand_readable hx, finish_ok]
  split <;> rfl

/-- The jumps on a clear flag are the common meaning of a jump at the negated flag. -/
theorem jump_not_reads (flag : Flags → Bool) (hx : readable s x = true) :
    jump opc (fun f => !flag f) [x] s =
      .next { s with pc := if flag s.flags = false then operandValue s x else s.pc } := by
  simp only [jump_reads _ hx, Bool.not_eq_true']

theorem execCall_room (hx : readable s x = true) (hroom : s.stack.length ≠ s.cfg.stackSize) :
    execCall [x] s = .next { s with stack := s.stack ++ [s.pc], pc := operandValue s x } := by
  simp only [execCall, execute1, readOperand_readable hx, push_room _ hroom, finish_ok]
  rfl

theorem execRet_top {below : List Int} {v : Int} (htop : s.stack = below ++ [v]) :
    execRet [] s = .next { s with stack := below, pc := v } := by
  simp only [execRet, execute0, pop_top htop, finish_ok]
  rfl

/-- A CALL that completes leaves the return offset on top of the stack (43_compare_branch.md R106). -/
theorem execCall_stack {ops : List Operand} (h : execCall ops s = .next t) (hnone : t.fault = none) :
    t.stack = s.stack ++ [s.pc] := by
  obtain ⟨x, u, _, _, hpush, rfl⟩ := (execCall_next h).resolve_right (not_takeFault hnone)
  obtain ⟨_, rfl⟩ := push_ok hpush
  rw [withPc_stack, withStack_stack]

end Branches

/-- Settles O47: a completed CALL leaves the pc on top of the old stack, and RET takes both from there. -/
theorem retReturnsBehindTheCall : Obligations.RetReturnsBehindTheCall := by
  intro s t u x _ hcall hnone hstack
  have htop : u.stack = s.stack ++ [s.pc] := hstack.trans (execCall_stack hcall hnone)
  exact ⟨_, execRet_top htop, rfl, rfl⟩

/-- Settles O43: four jumps on a set flag, four on a clear one, and JMP, whose condition always holds. -/
theorem jumpsWritePcOnTheirCondition : Obligations.JumpsWritePcOnTheirCondition := by
  intro s x hx
  simp only [exec, execJmp, execJz, execJnz, execJn, execJnn, execJo, execJno, execJc, execJnc]
  exact ⟨jump_reads (fun _ => true) hx,
    jump_reads (·.z) hx, jump_not_reads (·.z) hx,
    jump_reads (·.n) hx, jump_not_reads (·.n) hx,
    jump_reads (·.o) hx, jump_not_reads (·.o) hx,
    jump_reads (·.c) hx, jump_not_reads (·.c) hx⟩

/-- Settles O45: a stack below its size is not full. -/
theorem callPushesReturnOffset : Obligations.CallPushesReturnOffset :=
  fun _ _ hx hroom => execCall_room hx hroom.ne

/-- Settles O46, from `execRet_top`. -/
theorem retPopsThePc : Obligations.RetPopsThePc :=
  fun _ _ _ htop => execRet_top htop

end Sys2Proof.Machine
end

section
/-! PROOFS. PUSH, POP, LDR and STR: the state that each leaves once its operands have been read, and the fault of an address
that is not in RAM. -/

namespace Sys2Proof.Machine

section StackMemory

variable {s : State} {dst src : Operand} {i : Int}

theorem execPush_room (hsrc : readable s src = true) (hroom : s.stack.length ≠ s.cfg.stackSize) :
    execPush [src] s = .next { s with stack := s.stack ++ [operandValue s src] } := by
  rw [execPush_reads hsrc, push_room _ hroom, finish_ok]
  rfl

/-- The register is written in the state without the top word, which has the same registers. -/
theorem execPop_top {below : List Int} {v : Int} (hi : validReg s i) (htop : s.stack = below ++ [v]) :
    execPop [.register i] s = .next { s with stack := below, regs := s.regs.set i.toNat v } := by
  have hi' : validReg (s.withStack below) i := hi
  rw [execPop_pop_ok i (pop_top htop), writeReg_valid v hi', finish_ok]
  rfl

theorem execLdr_valid (hi : validReg s i) (hsrc : readable s src = true) (haddr : validAddr s (operandValue s src)) :
    execLdr [.register i, src] s =
      .next { s with regs := s.regs.set i.toNat (Memory.read s.ram (operandValue s src).toNat) } := by
  rw [execLdr_reads i hsrc haddr, writeReg_valid _ hi, finish_ok]
  rfl

/-- The register is not looked at: the address is checked before it. -/
theorem execLdr_invalidAddr (i : Int) (hsrc : readable s src = true) (haddr : ¬ validAddr s (operandValue s src)) :
    ∃ t, execLdr [.register i, src] s = .next t ∧ Raised s t (.accessViolation (operandValue s src)) := by
  simp only [execLdr, executeReg2, execute2, readOperand_readable hsrc, memRead_invalid haddr]
  exact finish_raises rfl

theorem execStr_reads (hdst : readable s dst = true) (hsrc : readable s src = true) :
    execStr [dst, src] s = finish s (memWrite s (operandValue s dst) (operandValue s src)) := by
  simp only [execStr, execute2, readOperand_readable hdst, readOperand_readable hsrc]

theorem execStr_valid (hdst : readable s dst = true) (hsrc : readable s src = true)
    (haddr : validAddr s (operandValue s dst)) : execStr [dst, src] s =
      .next (s.withRam (Memory.write s.ram (operandValue s dst).toNat (operandValue s src))) := by
  rw [execStr_reads hdst hsrc, memWrite_valid _ haddr, finish_ok]

theorem execStr_invalidAddr (hdst : readable s dst = true) (hsrc : readable s src = true)
    (haddr : ¬ validAddr s (operandValue s dst)) :
    ∃ t, execStr [dst, src] s = .next t ∧ Raised s t (.accessViolation (operandValue s dst)) := by
  rw [execStr_reads hdst hsrc]
  exact finish_raises (memWrite_invalid _ haddr)

end StackMemory

/-- Settles O51: the RAM that STR leaves is a list write, so its words are those of read after write. The invariant gives
the canonical form, without which a stored word need not be read back. -/
theorem strStoresAtTheAddressedWord : Obligations.StrStoresAtTheAddressedWord := by
  intro s dst src ⟨_, _, hwf, _⟩ hdst hsrc haddr
  exact ⟨_, execStr_valid hdst hsrc haddr, rfl, Memory.read_write_same _ _ hwf,
    fun _ hne => Memory.read_write_other hne⟩

/-- Settles O48: a stack below its size is not full, and one with a top word is not empty. -/
theorem pushAndPopMoveOneWord : Obligations.PushAndPopMoveOneWord :=
  fun _ => ⟨fun _ hsrc hroom => execPush_room hsrc hroom.ne, fun _ _ _ hi htop => execPop_top hi htop⟩

/-- Settles O50, from `execLdr_valid`. -/
theorem ldrLoadsTheAddressedWord : Obligations.LdrLoadsTheAddressedWord :=
  fun _ _ _ hi hsrc haddr => execLdr_valid hi hsrc haddr

/-- Settles O52: LDR fails at its RAM read, STR at its RAM write. -/
theorem loadStoreOutOfRamFaults : Obligations.LoadStoreOutOfRamFaults :=
  fun _ i _ _ hx hy haddr => ⟨execLdr_invalidAddr i hx haddr, execStr_invalidAddr hx hy haddr⟩

end Sys2Proof.Machine
end

section
/-! PROOFS. The display opcodes, PRT and RND: reading a list of operands up to the first that cannot be read, and what each
instruction emits or writes. -/

namespace Sys2Proof.Machine

section InputOutput

variable {s u t : State} {x dst : Operand} {ops : List Operand} {v : Int} {opc : Opcode} {d : DisplayOpcode}

/-! Reading every operand in order. -/

theorem readOperands_readable (h : ∀ op ∈ ops, readable s op = true) :
    readOperands s ops = .ok (ops.map (operandValue s)) := by
  induction ops with
  | nil => rfl
  | cons op ops ih =>
    obtain ⟨hop, hops⟩ := List.forall_mem_cons.1 h
    simp only [readOperands, readOperand_readable hop, ih hops, List.map_cons]

/-- The operands behind the first that cannot be read are not looked at. -/
theorem readOperands_unreadable {before : List Operand} (after : List Operand)
    (hbefore : ∀ op ∈ before, readable s op = true) (hx : readable s x = false) :
    readOperands s (before ++ x :: after) = .error (operandFault s x) := by
  induction before with
  | nil => simp only [List.nil_append, readOperands, readOperand_unreadable hx]
  | cons op before ih =>
    obtain ⟨hop, hrest⟩ := List.forall_mem_cons.1 hbefore
    simp only [List.cons_append, readOperands, readOperand_readable hop, ih hrest]

/-! The common meaning of the display opcodes (45_io_system.md R113). -/

/-- The five display opcodes share one meaning. -/
theorem exec_display (s : State) (ops : List Operand) :
    ∀ p ∈ [(Instr.dsp ops, DisplayOpcode.dsp), (.cls ops, .cls), (.bfr ops, .bfr), (.sb ops, .sb), (.col ops, .col)],
      exec p.1 s = displayOp p.1.opcode p.2 ops s := by
  simp only [List.forall_mem_cons, List.not_mem_nil, false_imp_iff, implies_true, and_true]
  exact ⟨rfl, rfl, rfl, rfl, rfl⟩

theorem displayOp_absent (hlen : ops.length ≤ 2) (habsent : s.cfg.displayPresent = false) :
    displayOp opc d ops s = .next s := by
  simp only [displayOp, executeUpTo2, if_pos hlen, habsent, Bool.false_eq_true, if_false, finish_ok]

theorem displayOp_readable (hlen : ops.length ≤ 2) (hpresent : s.cfg.displayPresent = true)
    (hops : ∀ op ∈ ops, readable s op = true) :
    displayOp opc d ops s = .next (emit s (.display d (ops.map (operandValue s)))) := by
  simp only [displayOp, executeUpTo2, if_pos hlen, if_pos hpresent, readOperands_readable hops, finish_ok]

theorem displayOp_readOperands_error {f : Fault} (hlen : ops.length ≤ 2) (hpresent : s.cfg.displayPresent = true)
    (hread : readOperands s ops = .error f) : ∃ t, displayOp opc d ops s = .next t ∧ Raised s t f := by
  simp only [displayOp, executeUpTo2, if_pos hlen, if_pos hpresent, hread]
  exact finish_raises rfl

/-! PRT (45_io_system.md R119). -/

theorem execPrt_printing (hx : readable s x = true) (hprinting : s.cfg.printing = true) :
    execPrt [x] s = .next (emit s (.print (operandValue s x))) := by
  simp only [execPrt, execute1, readOperand_readable hx, if_pos hprinting, finish_ok]

theorem execPrt_silent (hx : readable s x = true) (hsilent : s.cfg.printing = false) :
    execPrt [x] s = .next s := by
  simp only [execPrt, execute1, readOperand_readable hx, hsilent, Bool.false_eq_true, if_false, finish_ok]

theorem execPrt_unreadable (hx : readable s x = false) :
    ∃ t, execPrt [x] s = .next t ∧ Raised s t (operandFault s x) := by
  simp only [execPrt, execute1, readOperand_unreadable hx]
  exact finish_raises rfl

/-! RND (45_io_system.md R120). -/

/-- The location that an operand names depends on the parameters and the registers, its old word on the RAM. -/
theorem wrote_congr (hcfg : u.cfg = s.cfg) (hregs : u.regs = s.regs) (hram : u.ram = s.ram) :
    Wrote u t dst v ↔ Wrote s t dst v := by
  simp only [Wrote, operandAddress_congr hcfg hregs, hcfg, hregs, hram]

/-- A draw is 31 bits wide. -/
theorem drawRandom_bounds (s : State) : 0 ≤ (drawRandom s).1 ∧ (drawRandom s).1 ≤ 2147483647 := by
  have hlt : (Config.rndDraw s.draws).toNat < 2 ^ 31 := (Config.rndDraw s.draws).isLt
  simp only [drawRandom]
  omega

theorem execRnd_writable (hinv : MachineInv s) (hdst : writable s dst = true) :
    ∃ t, execRnd [dst] s = .next t ∧ Wrote s t dst (drawRandom s).1 ∧
      t = { s with regs := t.regs, ram := t.ram, draws := s.draws + 1 } := by
  have hinv' : MachineInv (drawRandom s).2 := hinv
  have hdst' : writable (drawRandom s).2 dst = true := (writable_congr rfl rfl dst).trans hdst
  obtain ⟨t, hwrite, hwrote, hframe⟩ :=
    (writeOperandWritesOneLocation (drawRandom s).2 dst (drawRandom s).1 hinv').1 hdst'
  have hexec : execRnd [dst] s = .next t := by simp only [execRnd, execute1, hwrite, finish_ok]
  exact ⟨t, hexec, (wrote_congr rfl rfl rfl).1 hwrote, hframe⟩

end InputOutput

/-- Settles O53: the five opcodes share `displayOp`, which asks for the Display first and then reads the operands in
order. -/
theorem displayOpcodesForwardTheirValues : Obligations.DisplayOpcodesForwardTheirValues := by
  intro s ops hlen p hp
  rw [exec_display s ops p hp]
  refine ⟨displayOp_absent hlen, displayOp_readable hlen, ?unreadable⟩
  case unreadable =>
    rintro hpresent before op after rfl hbefore hop
    exact displayOp_readOperands_error hlen hpresent (readOperands_unreadable after hbefore hop)

/-- Settles O55: RND writes its destination in the state that the draw leaves. -/
theorem rndWritesADrawnValue : Obligations.RndWritesADrawnValue := by
  intro s dst hinv hdst
  obtain ⟨t, hexec, hwrote, hframe⟩ := execRnd_writable hinv hdst
  obtain ⟨hnonneg, hmax⟩ := drawRandom_bounds s
  exact ⟨t, (drawRandom s).1, hexec, rfl, rfl, hnonneg, hmax, hwrote, hframe⟩

/-- Settles O54: PRT reads its operand before it asks whether printing is enabled. -/
theorem prtEmitsWhenPrinting : Obligations.PrtEmitsWhenPrinting :=
  fun _ _ => ⟨execPrt_printing, execPrt_silent, execPrt_unreadable⟩

end Sys2Proof.Machine
end

section
/-! PROOFS. A step that raises takes its fault in the state of the instruction, at rest until `reset()`; and the output
events of a step. -/

namespace Sys2Proof.Machine

/-! A step that raises. -/

theorem step_eq_self_of_isIdle {s : State} (h : isIdle s = true) : step s = .next s := by
  rw [step, stepCore, if_pos h]

theorem exec_takes_fault {i : Instr} {s t : State} (hnone : s.fault = none) (h : exec i s = .next t)
    (hfault : t.fault ≠ none) : ∃ f, t = takeFault f s :=
  (exec_kept h).resolve_left fun hk => hfault (hk.fault.trans hnone)

theorem countCompleted_takeFault (f : Fault) (s : State) : countCompleted (takeFault f s) = takeFault f s := rfl

/-- A step that sets the fault record takes the fault, of the fetch, of the decoder or of the instruction, in a state
that differs from the one before in the offset of the instruction, the pc and the last instruction only. -/
theorem step_takes_fault {s t : State} (hnone : s.fault = none) (h : step s = .next t) (hfault : t.fault ≠ none) :
    isIdle s = false ∧ ∃ f u, t = takeFault f u ∧ u = { s with pc0 := s.pc, pc := u.pc, last := u.last } := by
  rcases step_cases h with ⟨_, rfl⟩ | ⟨_, _, rfl⟩ | ⟨hrun, f, _, rfl⟩ | ⟨hrun, bytes, e, _, _, rfl⟩ |
    ⟨hrun, bytes, i, u, _, _, hexec, rfl⟩
  · exact absurd hnone hfault
  · exact absurd hnone hfault
  · exact ⟨hrun, f, s.withPc0 s.pc, rfl, rfl⟩
  · exact ⟨hrun, _, _, rfl, rfl⟩
  · rw [countCompleted_fault] at hfault
    have hready : (executing i bytes s).fault = none := hnone
    obtain ⟨f, rfl⟩ := exec_takes_fault hready hexec hfault
    exact ⟨hrun, f, executing i bytes s, countCompleted_takeFault f _, rfl⟩

/-- Settles O12: a taken fault keeps the counter, the events and the two statuses of the core that was running, and its
record makes the core idle. -/
theorem faultIsRecordedAndFinal : Obligations.FaultIsRecordedAndFinal := by
  intro s t r hnone h hr
  have hfault : t.fault ≠ none := by simp [hr]
  have hidle : isIdle t = true := by simp [isIdle, hr]
  obtain ⟨hrun, f, u, rfl, hu⟩ := step_takes_fault hnone h hfault
  obtain ⟨hhalted, hpaused, _⟩ := isIdle_eq_false_iff.1 hrun
  obtain rfl : ⟨f, u.pc0⟩ = r := by simpa using hr
  refine ⟨?offset, ?icount, ?events, ?halted, ?paused, step_eq_self_of_isIdle hidle, rfl⟩
  case offset => rw [hu]
  case icount => rw [takeFault_icount, hu]
  case events => rw [takeFault_events, hu]
  case halted => rw [takeFault_halted, hu, hhalted]
  case paused => rw [takeFault_paused, hu, hpaused]

/-! The events of a step. -/

@[simp] theorem countCompleted_events (t : State) : (countCompleted t).events = t.events := by
  unfold countCompleted
  split <;> rfl

/-- The device that an event needs is there: the Display for a display event, printing for a print event. -/
def DeviceEnabled (c : Config) (e : Event) : Prop :=
  (∃ d vs, e = .display d vs ∧ c.displayPresent = true) ∨ ∃ v, e = .print v ∧ c.printing = true

/-- From `s` to `t` no event has been emitted, or one whose device is enabled. -/
def EmitsAtMostOne (s t : State) : Prop :=
  t.events = s.events ∨ ∃ e, t.events = s.events ++ [e] ∧ DeviceEnabled s.cfg e

section Events

variable {s t : State} {opc : Opcode} {ops : List Operand}

theorem writeReg_events {i v : Int} (h : writeReg s i v = .ok t) : t.events = s.events := by
  obtain ⟨_, rfl⟩ := writeReg_ok h
  rfl

theorem memWrite_events {a v : Int} (h : memWrite s a v = .ok t) : t.events = s.events := by
  obtain ⟨_, rfl⟩ := memWrite_ok h
  rfl

theorem writeOperand_events {op : Operand} {v : Int} (h : writeOperand s op v = .ok t) : t.events = s.events := by
  rw [writeOperand_frame h]

theorem writeArith_events {dst : Operand} {raw : Int} (h : writeArith s dst raw = .ok t) : t.events = s.events :=
  (writeOperand_events h).trans rfl

theorem push_events {v : Int} (h : push s v = .ok t) : t.events = s.events := by
  obtain ⟨_, rfl⟩ := push_ok h
  rfl

theorem pop_events {v : Int} (h : pop s = .ok (v, t)) : t.events = s.events := by
  obtain ⟨_, _, rfl⟩ := pop_ok h
  rfl

theorem shiftFlags_events (s : State) (i r : Int) : (shiftFlags s i r).events = s.events := by
  unfold shiftFlags
  split <;> rfl

theorem arith2_events {raw : Int → Int → Except Fault Int} (h : arith2 opc raw ops s = .next t)
    (hnone : t.fault = none) : t.events = s.events := by
  obtain ⟨_, _, _, _, _, _, _, hw⟩ := (arith2_next h).resolve_right (not_takeFault hnone)
  exact writeArith_events hw

theorem arith1_events {raw : Int → Int} (h : arith1 opc raw ops s = .next t) (hnone : t.fault = none) :
    t.events = s.events := by
  obtain ⟨_, _, _, hw⟩ := (arith1_next h).resolve_right (not_takeFault hnone)
  exact writeArith_events hw

theorem logic2_events {op : Int → Int → Int} (h : logic2 opc op ops s = .next t) (hnone : t.fault = none) :
    t.events = s.events := by
  obtain ⟨_, _, _, _, _, hw⟩ := (logic2_next h).resolve_right (not_takeFault hnone)
  exact (writeOperand_events hw).trans rfl

theorem shift_events {op : Int → Int → Int} (h : shift opc op ops s = .next t) (hnone : t.fault = none) :
    t.events = s.events := by
  obtain ⟨_, _, _, _, _, _, hw⟩ := (shift_next h).resolve_right (not_takeFault hnone)
  exact (writeReg_events hw).trans (shiftFlags_events _ _ _)

theorem jump_events {taken : Flags → Bool} (h : jump opc taken ops s = .next t) (hnone : t.fault = none) :
    t.events = s.events := by
  obtain ⟨_, _, _, rfl⟩ := (jump_next h).resolve_right (not_takeFault hnone)
  split <;> rfl

theorem displayOp_events {d : DisplayOpcode} (h : displayOp opc d ops s = .next t) : EmitsAtMostOne s t := by
  rcases displayOp_next h with ⟨_, _, rfl⟩ | ⟨_, hpresent, _, rfl⟩ | ⟨f, rfl⟩
  · exact .inl rfl
  · exact .inr ⟨_, rfl, .inl ⟨d, _, rfl, hpresent⟩⟩
  · exact .inl rfl

theorem execPrt_events (h : execPrt ops s = .next t) : EmitsAtMostOne s t := by
  rcases execPrt_next h with ⟨x, _, _, rfl⟩ | ⟨f, rfl⟩
  · split
    · exact .inr ⟨_, rfl, .inr ⟨_, rfl, ‹_›⟩⟩
    · exact .inl rfl
  · exact .inl rfl

end Events

/-- An instruction that completes emits at most one event: the display opcodes and PRT can emit, the others do not. -/
theorem exec_emitsAtMostOne {i : Instr} {s t : State} (h : exec i s = .next t) (hnone : t.fault = none) :
    EmitsAtMostOne s t := by
  have hcomplete : ¬ ∃ f, t = takeFault f s := not_takeFault hnone
  cases i with
  | dsp ops | cls ops | bfr ops | sb ops | col ops => exact displayOp_events h
  | prt ops => exact execPrt_events h
  | add ops | sub ops | mul ops | div ops | mod ops =>
    simp only [exec, execAdd, execSub, execMul, execDiv, execMod] at h
    exact .inl (arith2_events h hnone)
  | inc ops | dec ops | neg ops => exact .inl (arith1_events h hnone)
  | and ops | or ops | xor ops => exact .inl (logic2_events h hnone)
  | shl ops | shr ops => exact .inl (shift_events h hnone)
  | jmp ops | jz ops | jnz ops | jn ops | jnn ops | jo ops | jno ops | jc ops | jnc ops =>
    simp only [exec, execJmp, execJz, execJnz, execJn, execJnn, execJo, execJno, execJc, execJnc] at h
    exact .inl (jump_events h hnone)
  | nop ops =>
    obtain rfl := (execNop_next h).resolve_right hcomplete
    exact .inl rfl
  | mov ops =>
    obtain ⟨_, _, _, _, hw⟩ := (execMov_next h).resolve_right hcomplete
    exact .inl ((writeOperand_events hw).trans rfl)
  | not ops =>
    obtain ⟨_, _, _, hw⟩ := (execNot_next h).resolve_right hcomplete
    exact .inl ((writeOperand_events hw).trans rfl)
  | clr ops =>
    obtain ⟨_, _, _, _, hfirst, hsecond⟩ := (execClr_next h).resolve_right hcomplete
    exact .inl ((writeOperand_events hsecond).trans (writeOperand_events hfirst))
  | test ops =>
    obtain ⟨_, _, _, _, _, rfl⟩ := (execTest_next h).resolve_right hcomplete
    exact .inl rfl
  | cmp ops =>
    obtain ⟨_, _, _, _, _, rfl⟩ := (execCmp_next h).resolve_right hcomplete
    exact .inl rfl
  | call ops =>
    obtain ⟨_, _, _, _, hpush, rfl⟩ := (execCall_next h).resolve_right hcomplete
    exact .inl ((withPc_events _ _).trans (push_events hpush))
  | ret ops =>
    obtain ⟨_, _, _, hpop, rfl⟩ := (execRet_next h).resolve_right hcomplete
    exact .inl ((withPc_events _ _).trans (pop_events hpop))
  | push ops =>
    obtain ⟨_, _, _, hpush⟩ := (execPush_next h).resolve_right hcomplete
    exact .inl (push_events hpush)
  | pop ops =>
    obtain ⟨_, _, _, _, hpop, hw⟩ := (execPop_next h).resolve_right hcomplete
    exact .inl ((writeReg_events hw).trans (pop_events hpop))
  | ldr ops =>
    obtain ⟨_, _, _, _, _, hw⟩ := (execLdr_next h).resolve_right hcomplete
    exact .inl (writeReg_events hw)
  | str ops =>
    obtain ⟨_, _, _, _, _, hw⟩ := (execStr_next h).resolve_right hcomplete
    exact .inl (memWrite_events hw)
  | rnd ops =>
    obtain ⟨_, _, hw⟩ := (execRnd_next h).resolve_right hcomplete
    exact .inl ((writeOperand_events hw).trans rfl)
  | hlt ops =>
    obtain ⟨_, rfl⟩ := (execHlt_next h).resolve_right hcomplete
    exact .inl rfl

/-- Settles O17: of the cases of `step_cases` only an executed instruction can emit, and it does so only when it
completes. -/
theorem atMostOneEventPerStep : Obligations.AtMostOneEventPerStep := by
  intro s t h
  rcases step_cases h with ⟨_, rfl⟩ | ⟨_, _, rfl⟩ | ⟨_, f, _, rfl⟩ | ⟨_, bytes, e, _, _, rfl⟩ |
    ⟨hrun, bytes, i, u, _, _, hexec, rfl⟩
  case inr.inr.inr.inr =>
    obtain ⟨_, _, hnone⟩ := isIdle_eq_false_iff.1 hrun
    rw [countCompleted_events, countCompleted_fault]
    by_cases hfault : u.fault = none
    · exact (exec_emitsAtMostOne hexec hfault).imp id fun hemit => ⟨hfault, hemit⟩
    · have hready : (executing i bytes s).fault = none := hnone
      obtain ⟨f, rfl⟩ := exec_takes_fault hready hexec hfault
      exact .inl rfl
  all_goals exact .inl rfl

end Sys2Proof.Machine
end

section
/-! PROOFS. Operands that cannot be read: the instructions that read one operand, those that read both in order, and the
shifts. -/

namespace Sys2Proof.Machine

section Unreadable

variable {s : State} {x y : Operand} {opc : Opcode} {f : Fault}

/-! One operand read. -/

theorem jump_unreadable (taken : Flags → Bool) (hx : readable s x = false) :
    ∃ t, jump opc taken [x] s = .next t ∧ Raised s t (operandFault s x) :=
  finish_raises (by simp only [readOperand_unreadable hx])

theorem execCall_unreadable (hx : readable s x = false) :
    ∃ t, execCall [x] s = .next t ∧ Raised s t (operandFault s x) :=
  finish_raises (by simp only [readOperand_unreadable hx])

theorem arith1_unreadable (raw : Int → Int) (hx : readable s x = false) :
    ∃ t, arith1 opc raw [x] s = .next t ∧ Raised s t (operandFault s x) :=
  finish_raises (by simp only [readOperand_unreadable hx])

theorem execNot_unreadable (hx : readable s x = false) :
    ∃ t, execNot [x] s = .next t ∧ Raised s t (operandFault s x) :=
  finish_raises (by simp only [readOperand_unreadable hx])

theorem execPush_unreadable (hx : readable s x = false) :
    ∃ t, execPush [x] s = .next t ∧ Raised s t (operandFault s x) :=
  finish_raises (by simp only [readOperand_unreadable hx])

theorem execMov_unreadable (y : Operand) (hx : readable s x = false) :
    ∃ t, execMov [y, x] s = .next t ∧ Raised s t (operandFault s x) :=
  finish_raises (by simp only [readOperand_unreadable hx])

theorem execLdr_unreadable (r : Int) (hx : readable s x = false) :
    ∃ t, execLdr [.register r, x] s = .next t ∧ Raised s t (operandFault s x) :=
  finish_raises (by simp only [readOperand_unreadable hx])

/-! Both operands read, operand 0 first. -/

/-- Two operands cannot be read in order: operand 0 cannot, or it can and operand 1 cannot. -/
theorem readOperands_pair_error (h : readOperands s [x, y] = .error f) :
    readOperand s x = .error f ∨ ∃ a, readOperand s x = .ok a ∧ readOperand s y = .error f := by
  cases hx : readOperand s x with
  | error g => exact .inl (by simpa [readOperands, hx] using h)
  | ok a =>
    cases hy : readOperand s y with
    | error g => exact .inr ⟨a, rfl, by simpa [readOperands, hx, hy] using h⟩
    | ok b => simp [readOperands, hx, hy] at h

/-- A rule that passes on the fault of either read, of operand 1 where operand 0 has been read, raises the first. -/
theorem execute2_raises_at_read {rule : Operand → Operand → Except Fault State}
    (hread : readOperands s [x, y] = .error f) (hfirst : readOperand s x = .error f → rule x y = .error f)
    (hsecond : ∀ a, readOperand s x = .ok a → readOperand s y = .error f → rule x y = .error f) :
    ∃ t, execute2 opc [x, y] s rule = .next t ∧ Raised s t f := by
  rcases readOperands_pair_error hread with hx | ⟨a, hx, hy⟩
  · exact finish_raises (hfirst hx)
  · exact finish_raises (hsecond a hx hy)

theorem arith2_unreadable (raw : Int → Int → Except Fault Int) (hread : readOperands s [x, y] = .error f) :
    ∃ t, arith2 opc raw [x, y] s = .next t ∧ Raised s t f :=
  execute2_raises_at_read hread (fun hx => by simp only [hx]) (fun a hx hy => by simp only [hx, hy])

theorem logic2_unreadable (op : Int → Int → Int) (hread : readOperands s [x, y] = .error f) :
    ∃ t, logic2 opc op [x, y] s = .next t ∧ Raised s t f :=
  execute2_raises_at_read hread (fun hx => by simp only [hx]) (fun a hx hy => by simp only [hx, hy])

theorem execTest_unreadable (hread : readOperands s [x, y] = .error f) :
    ∃ t, execTest [x, y] s = .next t ∧ Raised s t f :=
  execute2_raises_at_read hread (fun hx => by simp only [hx]) (fun a hx hy => by simp only [hx, hy])

theorem execCmp_unreadable (hread : readOperands s [x, y] = .error f) :
    ∃ t, execCmp [x, y] s = .next t ∧ Raised s t f :=
  execute2_raises_at_read hread (fun hx => by simp only [hx]) (fun a hx hy => by simp only [hx, hy])

theorem execStr_unreadable (hread : readOperands s [x, y] = .error f) :
    ∃ t, execStr [x, y] s = .next t ∧ Raised s t f :=
  execute2_raises_at_read hread (fun hx => by simp only [hx]) (fun a hx hy => by simp only [hx, hy])

/-- The eleven instructions that read both operands raise the fault of the first that cannot be read. -/
theorem exec_two_reads_unreadable (hread : readOperands s [x, y] = .error f) :
    ∀ i ∈ [Instr.add [x, y], .sub [x, y], .mul [x, y], .div [x, y], .mod [x, y], .and [x, y], .or [x, y],
      .xor [x, y], .test [x, y], .cmp [x, y], .str [x, y]], ∃ t, exec i s = .next t ∧ Raised s t f := by
  simp only [List.forall_mem_cons, List.not_mem_nil, false_imp_iff, implies_true, and_true]
  simp only [exec, execAdd, execSub, execMul, execDiv, execMod, execAnd, execOr, execXor]
  exact ⟨arith2_unreadable _ hread, arith2_unreadable _ hread, arith2_unreadable _ hread, arith2_unreadable _ hread,
    arith2_unreadable _ hread, logic2_unreadable _ hread, logic2_unreadable _ hread, logic2_unreadable _ hread,
    execTest_unreadable hread, execCmp_unreadable hread, execStr_unreadable hread⟩

/-! The shifts. -/

theorem shift_invalidRegister (op : Int → Int → Int) (y : Operand) {r : Int} (hr : ¬ validReg s r) :
    ∃ t, shift opc op [.register r, y] s = .next t ∧ Raised s t (.invalidRegister r) :=
  finish_raises (by simp only [readReg_invalid hr])

theorem shift_unreadable (op : Int → Int → Int) {r : Int} (hr : validReg s r) (hy : readable s y = false) :
    ∃ t, shift opc op [.register r, y] s = .next t ∧ Raised s t (operandFault s y) :=
  finish_raises (by simp only [readReg_valid hr, readOperand_unreadable hy])

end Unreadable

/-- Settles O44: the instructions that read one operand, one lemma per meaning; those that read two, by
`exec_two_reads_unreadable` for either operand; the shifts, the register before the amount. -/
theorem unreadableOperandFaultsAtItsRead : Obligations.UnreadableOperandFaultsAtItsRead := by
  intro s x y r
  refine ⟨fun hx => ⟨?target, ?oneRead, ?first⟩, fun hx hy => ?second, ?shifts⟩
  case first => exact exec_two_reads_unreadable (readOperands_unreadable (before := []) [y] (by simp) hx)
  case second => exact exec_two_reads_unreadable (readOperands_unreadable (before := [x]) [] (by simpa using hx) hy)
  all_goals simp only [List.forall_mem_cons, List.not_mem_nil, false_imp_iff, implies_true, and_true]
  case target =>
    simp only [exec, execJmp, execJz, execJnz, execJn, execJnn, execJo, execJno, execJc, execJnc]
    exact ⟨jump_unreadable _ hx, jump_unreadable _ hx, jump_unreadable _ hx, jump_unreadable _ hx,
      jump_unreadable _ hx, jump_unreadable _ hx, jump_unreadable _ hx, jump_unreadable _ hx, jump_unreadable _ hx,
      execCall_unreadable hx⟩
  case oneRead =>
    simp only [exec, execInc, execDec, execNeg]
    exact ⟨arith1_unreadable _ hx, arith1_unreadable _ hx, arith1_unreadable _ hx, execNot_unreadable hx,
      execPush_unreadable hx, execMov_unreadable y hx, execLdr_unreadable r hx⟩
  case shifts =>
    simp only [exec, execShl, execShr]
    exact ⟨⟨shift_invalidRegister _ y, shift_unreadable _⟩, ⟨shift_invalidRegister _ y, shift_unreadable _⟩⟩

end Sys2Proof.Machine
end

section
/-! PROOFS. The step behind a fetch that succeeds; what a step returns to the host; and the host's control surface:
reset, pause, resume and construction (70_reset_and_hazards.md R137, R140 to R142). -/

namespace Sys2Proof.Machine

/-! The fetch of the bytes that decode. -/

section FetchDecoded

variable {rom bytes : List Byte} {pc : Int} {b0 : Byte} {ids : List Nat} {i : Instr} {s : State}

theorem romByte_of_prefix {k : Nat} {b : Byte} (h0 : 0 ≤ pc) (hprefix : bytes <+: rom.drop pc.toNat)
    (hk : bytes[k]? = some b) : romByte rom (pc + k) = .ok b := by
  obtain ⟨tail, htail⟩ := hprefix
  have hlt : k < bytes.length := (List.getElem?_eq_some_iff.1 hk).1
  refine romByte_at (by omega) ?_
  have hoffset : (pc + k).toNat = pc.toNat + k := by omega
  rw [hoffset, ← List.getElem?_drop, ← htail, List.getElem?_append_left hlt, hk]

theorem fetchLength_count0 (hb0 : romByte rom pc = .ok b0) (hcount : bits b0.toNat 7 6 = 0) :
    fetchLength rom pc = .ok 1 := by
  simp only [fetchLength, hb0, hcount, if_true]
  rfl

/-- An instruction with operands has a type byte. -/
theorem two_le_of_instrLength {b1 : Byte} {n : Nat} (hcount0 : bits b0.toNat 7 6 ≠ 0)
    (h : instrLength b0 b1 = some n) : 2 ≤ n := by
  unfold instrLength at h
  split at h
  · contradiction
  · cases h
  · obtain rfl := Option.some.inj h
    omega

/-- Where the bytes at the pc decode, the fetch finds their length: a decoded sequence obeys the length rule (O3). -/
theorem fetchLength_of_decode (h0 : 0 ≤ pc) (hprefix : bytes <+: rom.drop pc.toNat)
    (hdecode : decode ids bytes = .ok i) : fetchLength rom pc = .ok bytes.length := by
  cases bytes with
  | nil => cases hdecode
  | cons b0 rest =>
    obtain ⟨_, _, hlen⟩ := encodeOfDecodeIsIdentity ids b0 rest i hdecode
    have hb0 : romByte rom pc = .ok b0 := by simpa using romByte_of_prefix (k := 0) h0 hprefix rfl
    by_cases hcount0 : bits b0.toNat 7 6 = 0
    · obtain rfl : rest = [] := by simpa [instrLength_count0 _ hcount0] using hlen
      exact fetchLength_count0 hb0 hcount0
    · cases rest with
      | nil => exact absurd (two_le_of_instrLength hcount0 hlen) (by simp)
      | cons b1 payload =>
        have hb1 : romByte rom (pc + 1) = .ok b1 := romByte_of_prefix (k := 1) h0 hprefix rfl
        exact fetchLength_of_instrLength hb0 hb1 hlen

/-- Inside the ROM, a length that fits gives the bytes of the instruction. -/
theorem fetch_of_fetchLength {n : Nat} (h0 : 0 ≤ s.pc) (hinside : s.pc < s.rom.length)
    (h : fetchLength s.rom s.pc = .ok n) (hfits : s.pc + n ≤ s.rom.length) :
    fetch s = .ok (some ((s.rom.drop s.pc.toNat).take n)) := by
  rw [fetch, if_neg (Int.not_le.2 hinside), if_neg (Int.not_lt.2 h0), h]
  exact if_neg (Int.not_lt.2 hfits)

theorem length_bytes_at_pc {n : Nat} (h0 : 0 ≤ s.pc) (hfits : s.pc + n ≤ s.rom.length) :
    ((s.rom.drop s.pc.toNat).take n).length = n := by
  rw [List.length_take, List.length_drop]
  omega

/-- The fetch gives the bytes at the pc that decode. -/
theorem fetch_of_decode {n : Nat} (h0 : 0 ≤ s.pc) (hfits : s.pc + n ≤ s.rom.length)
    (hdecode : decode ids ((s.rom.drop s.pc.toNat).take n) = .ok i) :
    fetch s = .ok (some ((s.rom.drop s.pc.toNat).take n)) := by
  have hpos : n ≠ 0 := by
    rintro rfl
    cases hdecode
  have hlength := fetchLength_of_decode h0 (List.take_prefix n _) hdecode
  rw [length_bytes_at_pc h0 hfits] at hlength
  exact fetch_of_fetchLength h0 (by omega) hlength hfits

end FetchDecoded

/-! The step that executes. -/

theorem countCompleted_eq_ite (t : State) :
    countCompleted t = if t.fault = none then { t with icount := t.icount + 1 } else t := by
  cases hfault : t.fault <;> simp [countCompleted, hfault, State.withIcount]

theorem step_executes {s u : State} {bytes : List Byte} {i : Instr} (hidle : isIdle s = false)
    (hfetch : fetch s = .ok (some bytes)) (hdecode : decode s.cfg.opcodeIds bytes = .ok i)
    (hexec : exec i (executing i bytes s) = .next u) : step s = .next (countCompleted u) := by
  have hready : ((s.withPc0 s.pc).withPc (s.pc + bytes.length)).withLast (some i) = executing i bytes s := rfl
  rw [step_running hidle, cycle, fetch_withPc0, hfetch]
  simp only [runFetched, withPc_cfg, withPc0_cfg, withPc0_pc, hdecode, runDecoded, hready, hexec]

/-- Settles O6: the fetch gives the bytes that decode, and the step executes and counts their instruction. -/
theorem stepRunsTheDecodedInstruction : Obligations.StepRunsTheDecodedInstruction := by
  intro s t i n hidle h0 hfits hdecode hexec
  rw [← countCompleted_eq_ite]
  refine step_executes hidle (fetch_of_decode h0 hfits hdecode) hdecode ?_
  rw [executing, length_bytes_at_pc h0 hfits]
  exact hexec

/-! What a step returns to the host. -/

section Returns

variable {s t : State}

theorem stepResult_of_idle (h : isIdle s = true) : stepResult s t = .idle := if_pos h

theorem stepResult_of_fault {r : FaultRecord} (hrun : isIdle s = false) (h : t.fault = some r) :
    stepResult s t = .fault r.fault := by
  simp [stepResult, hrun, h]

theorem stepResult_of_counted (hrun : isIdle s = false) (hnone : t.fault = none)
    (hcount : t.icount = s.icount + 1) : stepResult s t = .executed := by
  simp [stepResult, hrun, hnone, hcount]

theorem runStatus_of_fault {r : FaultRecord} (h : t.fault = some r) : runStatus t = .error := by
  simp [runStatus, h]

theorem runStatus_of_halted (hnone : t.fault = none) (hhalted : t.halted = true) : runStatus t = .success := by
  simp [runStatus, hnone, hhalted]

end Returns

/-- Settles O14: the end of the ROM by O9, and an instruction that completes is known by the count of O13. -/
theorem stepReturnsWhatItDid : Obligations.StepReturnsWhatItDid := by
  intro s t h
  refine ⟨stepResult_of_idle, fun hrun hend => ?halted, fun hrun hinside hnone => ?executed,
    fun r hrun hfault => ⟨stepResult_of_fault hrun hfault, runStatus_of_fault hfault⟩⟩
  case halted =>
    obtain ⟨_, _, hnone⟩ := isIdle_eq_false_iff.1 hrun
    obtain ⟨hstep, hresult⟩ := fetchPastTheEndHalts s hrun hend
    obtain rfl := Host.Outcome.next.inj (hstep.symm.trans h)
    exact ⟨hresult, runStatus_of_halted hnone rfl⟩
  case executed =>
    obtain ⟨_, hrunning⟩ := counterCountsCompletedInstructions s t h
    obtain ⟨hcounted, _⟩ := hrunning hrun hinside
    exact stepResult_of_counted hrun hnone (hcounted hnone)

/-! A core that takes no step. -/

theorem isIdle_eq_true_iff {s : State} : isIdle s = true ↔ s.halted = true ∨ s.paused = true ∨ s.fault ≠ none := by
  simp [isIdle, Option.isSome_iff_ne_none, or_assoc]

/-- Settles O8: each of the three statuses makes the core idle. -/
theorem idleStepChangesNothing : Obligations.IdleStepChangesNothing :=
  fun _ h => step_eq_self_of_isIdle (isIdle_eq_true_iff.2 h)

/-! The host's control surface. -/

theorem step_of_paused {s : State} (h : s.paused = true) : step s = .next s :=
  idleStepChangesNothing s (.inr (.inl h))

theorem hostReset_reg {s : State} {i : Int} (h : validReg s i) : (hostReset s).regs[i.toNat]? = some 0 := by
  have hlt : i.toNat < s.cfg.registerCount := (Int.toNat_lt h.1).2 h.2
  exact List.getElem?_replicate_of_lt hlt

/-- Construction is a resumed reset of any state with the same parameters and ROM, without its draws and events. -/
theorem construct_eq_resume_hostReset (s : State) :
    construct s.cfg s.rom = ((resume (hostReset s)).withDraws 0).withEvents [] := rfl

theorem construct_not_idle (cfg : Config) (rom : List Byte) : isIdle (construct cfg rom) = false := rfl

/-- Settles O20: the registers by `hostReset_reg`, the step by `paused`, the rest field by field. -/
theorem resetClearsTheMachine : Obligations.ResetClearsTheMachine :=
  fun s => ⟨rfl, fun _ => hostReset_reg, fun _ => rfl, rfl, rfl, rfl, rfl, rfl, rfl, rfl, rfl, rfl,
    step_of_paused (s := hostReset s) rfl, rfl⟩

/-- Settles O21: both write `paused` only, so a halted or faulted core stays idle. -/
theorem pauseAndResumeTouchOnlyPaused : Obligations.PauseAndResumeTouchOnlyPaused := by
  refine fun s => ⟨rfl, rfl, rfl, rfl, step_of_paused (s := pause s) rfl, fun h => ?_⟩
  have hidle : (resume s).halted = true ∨ (resume s).paused = true ∨ (resume s).fault ≠ none := h.imp_right .inr
  exact idleStepChangesNothing (resume s) hidle

/-- Settles O22: construction is a resumed reset, and the state after reset the paused default construction. -/
theorem constructionIsResumedReset : Obligations.ConstructionIsResumedReset := by
  rintro s _ _ rfl rfl
  refine ⟨construct_eq_resume_hostReset s, construct_not_idle _ _, rfl, ?_⟩
  rw [reset_eq_pause_construct]
  rfl

end Sys2Proof.Machine
end
